-- ==== Sys2Proof/Word.lean ====
section
/-! DEFINITION. The word types of the P1P2 serial core and the extraction of bit fields (00_scope.md R13, R14). -/

namespace Sys2Proof

/-- One data byte, or one 8-bit error mask (00_scope.md R12: data width 8, error-flag width 8). -/
abbrev Byte := BitVec 8

/-- A quantity in milliseconds, or a tick count that fits the bit timer (00_scope.md R12: 16 bits). -/
abbrev Half := BitVec 16

/-- One 32-bit command word, or the value of a result (30_encoding.md R150, R153). -/
abbrev Word := BitVec 32

/-- An instant or a duration in bit-timer ticks, unbounded (00_scope.md R15). -/
abbrev Tick := Nat

/-- The field of `len` bits of `v` whose lowest bit is bit `lo` (00_scope.md R13). -/
def field (v : Word) (lo len : Nat) : BitVec len := v.extractLsb' lo len

end Sys2Proof
end

