-- ==== Sys2Proof/Syntax.lean ====
section
/-! DEFINITION. The commands of the port: one constructor per row of the opcode map (30_encoding.md R155, R172),
and the pseudo-instructions with their expansions (R163). -/

namespace Sys2Proof

/-- A command of the port with its operand fields (30_encoding.md R155, R156). WRITEPACKET's `LEN` is the length
of its payload. SETSCOPE and ADC_RESULTS are reserved codes whose 24 operand bits may be anything (R172). -/
inductive Instr where
  | beginCmd (pol : Bool) (baud : BitVec 23)
  | endCmd
  | available
  | read
  | readError
  | readDelta
  | packetAvailable
  | flushInput
  | write (b : Byte)
  | writeReady
  | flushOutput
  | setDelay (ms : Half)
  | setDelayTimeout (ms : Half)
  | setEcho (en : Bool)
  | setAllow (bits : Byte)
  | setErrorMask (mask : Byte)
  | uptimeSec
  | uptimeMillisec
  | readPacket (gen feed maxlen : Byte)
  | writePacket (gen feed : Byte) (delay : Half) (payload : List Byte)
  | setScope (operand : BitVec 24)
  | adcResults (operand : BitVec 24)
  deriving DecidableEq, Repr

/-- The pseudo-instructions of 30_encoding.md R163. -/
inductive Pseudo where
  | getslot
  | send (d : Half) (bytes : List Byte)
  | drain
  | discard
  deriving DecidableEq, Repr

/-- The commands a pseudo-instruction stands for, in order (30_encoding.md R163). -/
def Pseudo.expand : Pseudo → List Instr
  | .getslot => [.readDelta, .readError, .read]
  | .send d bytes => .setDelay d :: bytes.map .write
  | .drain => [.flushOutput]
  | .discard => [.flushInput]

end Sys2Proof
end

