-- ==== Sys2Proof/WellFormed.lean ====
section
/-! DEFINITION. The commands that have an encoding. Every operand but one has the width of its field as its type;
the payload length of WRITEPACKET is the only operand that needs a check (30_encoding.md R150: `LEN` is 0..255). -/

namespace Sys2Proof

/-- A command is well formed when each operand fits its field (30_encoding.md R150, R152). -/
def Instr.wellFormed : Instr → Bool
  | .writePacket _ _ _ payload => decide (payload.length < 256)
  | .beginCmd _ _ | .endCmd | .available | .read | .readError | .readDelta | .packetAvailable | .flushInput
  | .write _ | .writeReady | .flushOutput | .setDelay _ | .setDelayTimeout _ | .setEcho _ | .setAllow _
  | .setErrorMask _ | .uptimeSec | .uptimeMillisec | .readPacket _ _ _ | .setScope _ | .adcResults _ => true

end Sys2Proof
end

