-- ==== Sys2Proof/Decode.lean ====
section
/-! DEFINITION. The decoder of command words, total on every word list (30_encoding.md R150 to R160, R172), and
after it the encoder, written from the same tables. -/

namespace Sys2Proof

/-- Why a command is `ILLEGAL` (30_encoding.md R157, R159). The result is the same for each: `(ILLEGAL, 0)`. -/
inductive Illegal where
  /-- The opcode is not in the table of R155 and not `0x60` or `0x61` (R159). -/
  | unassignedOpc
  /-- A reserved bit of word 0 is set (R157). -/
  | reservedBits
  /-- A bit of word 1 [31:16] of a WRITEPACKET is set (R157). -/
  | reservedDelayWord
  /-- An unused high byte of the last payload word of a WRITEPACKET is not 0 (R157, R158). -/
  | reservedPayload
  deriving DecidableEq, Repr

/-- What a complete command decodes to (30_encoding.md R160). The refused codes `0x60` and `0x61` are commands
here; their meanings refuse (R172). -/
inductive Decoded where
  | command (i : Instr)
  | illegal (why : Illegal)
  deriving DecidableEq, Repr

/-- What the words present at the port give: too few words for the command that word 0 begins, or one command
(or illegal command) and how many words it has (30_encoding.md R151). -/
inductive Fetched where
  | incomplete
  | got (d : Decoded) (words : Nat)
  deriving DecidableEq, Repr

/-- `OPC`, bits 31:24 of word 0 (30_encoding.md R150). -/
def opcOf (w : Word) : Byte := field w 24 8

/-- The number of words of the command that word 0 begins: `2 + ceil(LEN / 4)` for `OPC = 0x51`, else one
(30_encoding.md R151). -/
def cmdWords (w0 : Word) : Nat :=
  if opcOf w0 = 0x51 then 2 + ((field w0 0 8).toNat + 3) / 4 else 1

/-- The reserved-bit check of 30_encoding.md R157: `reserved` has a 1 at every bit outside the opcode and the
fields. -/
def checked (w reserved : Word) (i : Instr) : Decoded :=
  if w &&& reserved = 0 then .command i else .illegal .reservedBits

/-- A command of format C (30_encoding.md R150, R155, R156, R159, R172). -/
def decodeC (w : Word) : Decoded :=
  match (opcOf w).toNat with
  | 0x01 => .command (.beginCmd (w.getLsbD 23) (field w 0 23))
  | 0x02 => checked w 0x00FFFFFF .endCmd
  | 0x10 => checked w 0x00FFFFFF .available
  | 0x11 => checked w 0x00FFFFFF .read
  | 0x12 => checked w 0x00FFFFFF .readError
  | 0x13 => checked w 0x00FFFFFF .readDelta
  | 0x14 => checked w 0x00FFFFFF .packetAvailable
  | 0x15 => checked w 0x00FFFFFF .flushInput
  | 0x20 => checked w 0x00FFFF00 (.write (field w 0 8))
  | 0x21 => checked w 0x00FFFFFF .writeReady
  | 0x22 => checked w 0x00FFFFFF .flushOutput
  | 0x30 => checked w 0x00FF0000 (.setDelay (field w 0 16))
  | 0x31 => checked w 0x00FF0000 (.setDelayTimeout (field w 0 16))
  | 0x32 => checked w 0x00FFFFFE (.setEcho (w.getLsbD 0))
  | 0x33 => checked w 0x00FFFF00 (.setAllow (field w 0 8))
  | 0x34 => checked w 0x00FFFF00 (.setErrorMask (field w 0 8))
  | 0x40 => checked w 0x00FFFFFF .uptimeSec
  | 0x41 => checked w 0x00FFFFFF .uptimeMillisec
  | 0x50 => .command (.readPacket (field w 16 8) (field w 8 8) (field w 0 8))
  | 0x60 => .command (.setScope (field w 0 24))
  | 0x61 => .command (.adcResults (field w 0 24))
  | _ => .illegal .unassignedOpc

/-- The four bytes of a payload word, byte 0 least significant (30_encoding.md R158). -/
def wordBytes (w : Word) : List Byte := [field w 0 8, field w 8 8, field w 16 8, field w 24 8]

/-- A command of format P, from word 0, word 1 and the payload words (30_encoding.md R150, R157, R158). -/
def decodeP (w0 w1 : Word) (payloadWords : List Word) : Decoded :=
  let bytes := payloadWords.flatMap wordBytes
  let len := (field w0 0 8).toNat
  if field w1 16 16 ≠ 0 then .illegal .reservedDelayWord
  else if (bytes.drop len).any (· ≠ 0) then .illegal .reservedPayload
  else .command (.writePacket (field w0 16 8) (field w0 8 8) (field w1 0 16) (bytes.take len))

/-- The decoder: the command at the front of the words, or `incomplete` while some of its words are missing
(30_encoding.md R151, R160). -/
def decode : List Word → Fetched
  | [] => .incomplete
  | w0 :: rest =>
    if rest.length + 1 < cmdWords w0 then .incomplete
    else if opcOf w0 = 0x51 then
      match rest with
      | [] => .incomplete
      | w1 :: more => .got (decodeP w0 w1 (more.take (cmdWords w0 - 2))) (cmdWords w0)
    else .got (decodeC w0) 1

/-- The words of the command whose bits are `w`: bit 0 of `w` is bit 0 of word 0, word `k` is bits 32k+31 to 32k,
bits at and above `nbits` are 0, and the command has as many words as its word 0 says. -/
def tableWords (nbits w : Nat) : List Word :=
  let bits := w % 2 ^ nbits
  (List.range (cmdWords (BitVec.ofNat 32 bits))).map fun k => BitVec.ofNat 32 (bits / 2 ^ (32 * k))

/-- The command the decoder reads from a row's bits, numbered as the opcode table numbers them. -/
def decodeTableWord (nbits w : Nat) : Option Instr :=
  match decode (tableWords nbits w) with
  | .got (.command i) _ => some i
  | _ => none

/-- A format C word: the opcode in 31:24 and the 24 operand bits (30_encoding.md R150). -/
def formatC (opc : Byte) (operand : BitVec 24) : Word := opc ++ operand

/-- Payload bytes packed four to a word, byte 0 least significant, unused high bytes 0 (30_encoding.md R158). -/
def packBytes : List Byte → List Word
  | [] => []
  | [a] => [(0 : BitVec 24) ++ a]
  | [a, b] => [(0 : BitVec 16) ++ b ++ a]
  | [a, b, c] => [(0 : BitVec 8) ++ c ++ b ++ a]
  | a :: b :: c :: d :: rest => (d ++ c ++ b ++ a) :: packBytes rest

/-- The words of a command (30_encoding.md R150, R155, R156, R158). -/
def encode : Instr → List Word
  | .beginCmd pol baud => [formatC 0x01 (BitVec.ofBool pol ++ baud)]
  | .endCmd => [formatC 0x02 0]
  | .available => [formatC 0x10 0]
  | .read => [formatC 0x11 0]
  | .readError => [formatC 0x12 0]
  | .readDelta => [formatC 0x13 0]
  | .packetAvailable => [formatC 0x14 0]
  | .flushInput => [formatC 0x15 0]
  | .write b => [formatC 0x20 ((0 : BitVec 16) ++ b)]
  | .writeReady => [formatC 0x21 0]
  | .flushOutput => [formatC 0x22 0]
  | .setDelay ms => [formatC 0x30 ((0 : BitVec 8) ++ ms)]
  | .setDelayTimeout ms => [formatC 0x31 ((0 : BitVec 8) ++ ms)]
  | .setEcho en => [formatC 0x32 ((0 : BitVec 23) ++ BitVec.ofBool en)]
  | .setAllow bits => [formatC 0x33 ((0 : BitVec 16) ++ bits)]
  | .setErrorMask mask => [formatC 0x34 ((0 : BitVec 16) ++ mask)]
  | .uptimeSec => [formatC 0x40 0]
  | .uptimeMillisec => [formatC 0x41 0]
  | .readPacket gen feed maxlen => [formatC 0x50 (gen ++ feed ++ maxlen)]
  | .writePacket gen feed delay payload =>
    formatC 0x51 (gen ++ feed ++ BitVec.ofNat 8 payload.length) :: ((0 : BitVec 16) ++ delay) :: packBytes payload
  | .setScope operand => [formatC 0x60 operand]
  | .adcResults operand => [formatC 0x61 operand]

end Sys2Proof
end

