-- ==== Sys2Proof/Config.lean ====
section
/-! DEFINITION. The implementation parameters of 00_scope.md R11, the fixed constants of R12 and the free values of
the model (what the spec leaves open without a value: the order of simultaneous steps, 60_exceptions.md R505, the
registers that BEGIN leaves unspecified, 10_state.md R48, R50, R66, and a count that 32 bits do not hold, 44_ring_ops.md
R390). -/

namespace Sys2Proof

/-- How the edge-suppression test measures elapsed ticks: `EXACT` or `MOD16` (00_scope.md R11, 41_rx_engine.md R253). -/
inductive SuppressDiff where
  | exactTicks
  | mod16
  deriving DecidableEq, Repr

/-- The trailer kind of the packet framer (00_scope.md R11, 45_packet_framer.md R430). -/
inductive FramerMode where
  | crc
  | checksum
  deriving DecidableEq, Repr

/-- The parameters the platform fixes before the block runs (00_scope.md R11, 70_reset_and_hazards.md R552).
`lengthPrefix` is `NONE` or `(LEN_POS, LEN_ADJ)`; `LEN_ADJ` is an integer and may be negative (log entry 18). -/
structure Params where
  fClk : Nat
  rxN : Nat
  txN : Nat
  msPeriod : Nat
  msPhase : Nat
  checkSecondHalf : Bool
  suppressDiff : SuppressDiff
  framerMode : FramerMode
  lengthPrefix : Option (Nat × Int)
  uptimeGated : Bool
  deriving DecidableEq, Repr

/-- The legal values of the parameters (00_scope.md R11, column "legal values"). -/
abbrev Params.legal (p : Params) : Prop :=
  1 ≤ p.fClk ∧ 1 ≤ p.rxN ∧ 1 ≤ p.txN ∧ 1 ≤ p.msPeriod ∧ 1 ≤ p.msPhase ∧ p.msPhase ≤ p.msPeriod

/-- The values 00_scope.md R11 lists as used by the test vectors. `State.reset` carries them (log entry 1). -/
def Params.vectors : Params where
  fClk := 8000000
  rxN := 4
  txN := 4
  msPeriod := 8000
  msPhase := 8000
  checkSecondHalf := true
  suppressDiff := .exactTicks
  framerMode := .crc
  lengthPrefix := none
  uptimeGated := true

/-- `RX_C`, the capacity of the RX ring (00_scope.md R11, 20_memory.md R101). -/
def Params.rxC (p : Params) : Nat := p.rxN + 1

/-- `TX_C`, the capacity of the TX ring (00_scope.md R11, 20_memory.md R102). -/
def Params.txC (p : Params) : Nat := p.txN + 1

/-- `MIN_DELAY`, the 2 ms floor of a scheduled write (00_scope.md R12). -/
def minDelay : Half := 2

/-- The reset value of `DLY_TO` in ms (00_scope.md R12). -/
def defaultDelayTimeout : Half := 2500

/-- A free value: which of several steps due at one instant is taken next. The order is open
(60_exceptions.md R505); no proof can see a value of this constant (log entry 5). -/
opaque Config.tieOrder : Nat → Nat

/-- A free value: the bits of a register that the spec leaves unspecified after BEGIN (log entry 6). -/
opaque Config.freeBits (w : Nat) : Nat → BitVec w

/-- A free value: an instant that the spec leaves unspecified after BEGIN (log entry 6). -/
opaque Config.freeTick : Nat → Tick

/-- A free value: what AVAILABLE returns for an unread count of 2^32 or more, as a function of the count. 00_scope.md R11 gives `RX_N` no
upper bound, a value has 32 bits (30_encoding.md R153), and 44_ring_ops.md R390 states no result there (log entry 29). -/
opaque Config.wideCount : Nat → Word

end Sys2Proof
end

