-- ==== Sys2Proof/Machine/State.lean ====
section
/-! DEFINITION. The state of the P1P2 serial core (10_state.md), of its command port and of its environment's inputs
(10_state.md R62), the reasons a step can stop, and the state after power-on reset (10_state.md R65). Plain data. -/

namespace Sys2Proof.Machine

/-- `MODE` (10_state.md R42). -/
inductive Mode where
  | off
  | on
  deriving DecidableEq, Repr

/-- `rx_state` (10_state.md R47). `data i` is `BIT (i + 1)`, `parity` is `BIT 9` and `stop` is `BIT 10`: no other value
of the register is ever held, so none is a term. `RxState.code` gives the 4-bit encoding. -/
inductive RxState where
  | idle
  | data (i : Fin 8)
  | parity
  | stop
  deriving DecidableEq, Repr

/-- `tx_state` (10_state.md R49). `semi j`: the next TX compare is semibit boundary `j`. `TxState.code` gives the 5-bit
encoding. -/
inductive TxState where
  | idle
  | wait
  | semi (j : Fin 23)
  deriving DecidableEq, Repr

/-- The timing registers (10_state.md R43), with the spec's names. -/
structure Timing where
  T : Half
  S : Half
  SUPP : Half
  SCHED : Half
  TT : Half
  TS : Half
  deriving DecidableEq, Repr

/-- The configuration registers `ECHO`, `ALLOW`, `ERRMASK`, `DELAY`, `DLY_TO` (10_state.md R44). -/
structure Conf where
  echo : Bool
  allow : Byte
  errMask : Byte
  delay : Half
  dlyTo : Half
  deriving DecidableEq, Repr

/-- The interrupt enables `RX_EN`, `MS_IE` and the pending bit `MS_PEND` (10_state.md R46). -/
structure Irq where
  rxEn : Bool
  msIe : Bool
  msPend : Bool
  deriving DecidableEq, Repr

/-- `rx_state` and the RX datapath registers (10_state.md R47, R48). `lastEdge = none` is the spec's `NONE`. -/
structure RxEngine where
  state : RxState
  target : Tick
  shift : Byte
  par : Bool
  curDelta : Half
  lastEdge : Option Tick
  deriving DecidableEq, Repr

/-- The deferred-commit cell (10_state.md R60). -/
structure PendCell where
  valid : Bool
  byte : Byte
  err : Byte
  delta : Half
  deriving DecidableEq, Repr

/-- `tx_state`, the TX datapath registers and `Out` (10_state.md R49, R50). -/
structure TxEngine where
  state : TxState
  byte : Byte
  t0 : Tick
  target : Tick
  par : Bool
  err : Byte
  delta : Half
  out : Bool
  effDelay : Half
  wait : Half
  deriving DecidableEq, Repr

/-- The sequencer registers (10_state.md R51). -/
structure Sequencer where
  msSinceStart : Half
  uptimeMs : Word
  uptimeSub : BitVec 10
  uptimeSec : Word
  nextMs : Tick
  deriving DecidableEq, Repr

/-- A slot of the RX ring: `rxb[i]`, `rxe[i]`, `rxd[i]` (20_memory.md R101). -/
structure RxSlot where
  byte : Byte
  err : Byte
  delta : Half
  deriving DecidableEq, Repr

/-- A slot of the TX ring: `txb[i]`, `txd[i]` (20_memory.md R102). -/
structure TxSlot where
  byte : Byte
  delay : Half
  deriving DecidableEq, Repr

/-- A ring buffer: its slots by index, the producer's `head` and the consumer's `tail` (20_memory.md R100 to R102). -/
structure Ring (α : Type) where
  slots : List α
  head : Nat
  tail : Nat
  deriving DecidableEq, Repr

/-- The working registers of READPACKET with its operands (45_packet_framer.md R433, R437). `buf` and `err` hold
the written elements of `fr_buf` and `fr_err`, from index 0 (log entry 13). `decl = none` is the spec's `NONE`. -/
structure ReadRegs where
  maxlen : Byte
  gen : Byte
  n : Nat
  acc : Byte
  delta : Half
  decl : Option Int
  buf : List Byte
  err : List Byte
  deriving DecidableEq, Repr

/-- The working registers of WRITEPACKET with its operands (45_packet_framer.md R437, R440). -/
structure WriteRegs where
  payload : List Byte
  gen : Byte
  i : Byte
  acc : Byte
  deriving DecidableEq, Repr

/-- The host agent: ready for its next command, or inside a command that has more steps to take or that holds
(60_exceptions.md R508, R511, R512). The framer registers exist only inside a framer command (R437). -/
inductive HostPhase where
  | ready
  | write (b : Byte)
  | flushOutput
  | readPacket (r : ReadRegs)
  | writePacket (w : WriteRegs)
  deriving DecidableEq, Repr

/-- The status codes a command returns (30_encoding.md R153). `REFUSED` is no value the block returns: it is the
outcome `refused` of a step. -/
inductive Status where
  | ok
  | empty
  | notBegun
  | fail
  | illegal
  deriving DecidableEq, Repr

/-- The record READPACKET returns with its result (45_packet_framer.md R435). -/
structure Packet where
  delta : Half
  buf : List Byte
  errbuf : List Byte
  deriving DecidableEq, Repr

/-- The result of a command: the pair `(status, value)`, and the packet record of READPACKET (30_encoding.md R153). -/
structure Result where
  status : Status
  value : Word
  packet : Option Packet
  deriving DecidableEq, Repr

/-- One word the host sends to the command port, with the instant from which it is there (10_state.md R62: the host's
command stream with the instant of each command). -/
structure PortWord where
  tick : Tick
  word : Word
  deriving DecidableEq, Repr

/-- A change of the raw level that the other devices drive: from `tick` on the level is `raw` (30_encoding.md R164). -/
structure PinChange where
  tick : Tick
  raw : Bool
  deriving DecidableEq, Repr

/-- The bus environment (10_state.md R62, 30_encoding.md R164): whether the bus is wired-AND with the core's own output
(`bus loopback`), the raw level the other devices drive now, `In(now)` as 00_scope.md R17 defines it (the logical
level held on the interval that ends at `now`), and the level changes still to come. -/
structure Bus where
  loopback : Bool
  other : Bool
  before : Bool
  changes : List PinChange
  deriving DecidableEq, Repr

/-- Why the machine stops with a fault: never. The block has no fault and no stuck state (60_exceptions.md R500,
R513), so the type has no constructor. -/
inductive Fault where
  deriving DecidableEq, Repr

/-- Why a run is refused (60_exceptions.md R515). -/
inductive Refusal where
  /-- Raised by `exec` for an instruction the model gives no meaning. Safe: the model stops. No arm raises it. -/
  | notModelled (mnemonic : String)
  /-- Raised by BEGIN while `MODE = ON` (40_calibrator_control.md R206). Safe: the spec refuses the run. -/
  | secondBegin
  /-- Raised by SETSCOPE, in any mode (30_encoding.md R172). Safe: the spec refuses the run. -/
  | scopeBuffer
  /-- Raised by ADC_RESULTS, in any mode (30_encoding.md R172). Safe: the spec refuses the run. -/
  | adcResults
  deriving DecidableEq, Repr

/-- The whole state: the block's registers and rings, the host agent, the port, the environment's inputs, the
parameters (written by no step, log entry 1), the time `now` (00_scope.md R15) and the model's own counter of
free values used (log entries 5 and 6). -/
structure State where
  cfg : Params
  now : Tick
  mode : Mode
  timing : Timing
  pol : Bool
  conf : Conf
  irq : Irq
  rx : RxEngine
  pend : PendCell
  tx : TxEngine
  seq : Sequencer
  rxRing : Ring RxSlot
  txRing : Ring TxSlot
  host : HostPhase
  port : List PortWord
  results : List Result
  bus : Bus
  free : Nat
  deriving DecidableEq, Repr

/-- What a command, an event or a step answers. -/
abbrev StepOutcome := Host.Outcome State Fault Refusal

/-- A slot with every element 0. -/
def RxSlot.zero : RxSlot := ⟨0, 0, 0⟩

/-- A slot with every element 0. -/
def TxSlot.zero : TxSlot := ⟨0, 0⟩

/-- The power-on state for given parameters (10_state.md R65, 70_reset_and_hazards.md R550): the values R65 states;
0 in every register R65 leaves unspecified (log entry 2); an idle bus, an empty port and no result (log entry 3). -/
def State.powerOn (p : Params) : State where
  cfg := p
  now := 0
  mode := .off
  timing := ⟨0, 0, 0, 0, 0, 0⟩
  pol := false
  conf := { echo := true, allow := 0, errMask := 0xFF, delay := 0, dlyTo := defaultDelayTimeout }
  irq := { rxEn := false, msIe := false, msPend := false }
  rx := { state := .idle, target := 0, shift := 0, par := false, curDelta := 0, lastEdge := none }
  pend := { valid := false, byte := 0, err := 0, delta := 0 }
  tx := { state := .idle, byte := 0, t0 := 0, target := 0, par := false, err := 0, delta := 0, out := true,
          effDelay := 0, wait := 0 }
  seq := { msSinceStart := 0, uptimeMs := 0, uptimeSub := 0, uptimeSec := 0, nextMs := 0 }
  rxRing := ⟨List.replicate p.rxC RxSlot.zero, 0, 0⟩
  txRing := ⟨List.replicate p.txC TxSlot.zero, 0, 0⟩
  host := .ready
  port := []
  results := []
  bus := { loopback := false, other := true, before := true, changes := [] }
  free := 0

/-- The machine right after reset, with the parameter values of 00_scope.md R11's last column (log entry 1). -/
def State.reset : State := State.powerOn Params.vectors

end Sys2Proof.Machine
end

