-- ==== Sys2Proof/Machine/Flags.lean ====
section
/-! DEFINITION. The error bitmask and every flag computation (10_state.md R52, 42_tx_engine.md R312), the numeric
encodings of the state registers and the status codes. -/

namespace Sys2Proof.Machine

/-- `ERR_START` (10_state.md R52). -/
def errStart : Byte := 0x01
/-- `ERR_DATA` (10_state.md R52). -/
def errData : Byte := 0x02
/-- `ERR_PARITY` (10_state.md R52). -/
def errParity : Byte := 0x04
/-- `ERR_OVERRUN` (10_state.md R52). -/
def errOverrun : Byte := 0x08
/-- `ERR_CRC` (10_state.md R52). -/
def errCrc : Byte := 0x10
/-- `ERR_COLLISION` (10_state.md R52). -/
def errCollision : Byte := 0x20
/-- `ERR_DOUBLESTART`, never set in `GENERIC` (10_state.md R52, 00_scope.md R8). -/
def errDoubleStart : Byte := 0x40
/-- `SIGNAL_EOP` (10_state.md R52). -/
def signalEop : Byte := 0x80

/-- The flag of a received byte's parity check: `rx_par = 1 ? 0x04 : 0x00` (41_rx_engine.md R257, R260). -/
def parityFlag (par : Bool) : Byte := if par then errParity else 0

/-- The flag merged at a finalization: `eop = 1 ? 0x80 : 0x00` (41_rx_engine.md R263). -/
def eopFlag (eop : Bool) : Byte := if eop then signalEop else 0

/-- Whether an error byte has the raw `SIGNAL_EOP` bit (44_ring_ops.md R395, 45_packet_framer.md R434). -/
def hasEop (e : Byte) : Bool := e &&& signalEop ≠ 0

/-- `ErrCode(bit, half)`: the read-back flag of a mismatch in one semibit (42_tx_engine.md R312). -/
def errCode (checkSecondHalf : Bool) (bit half : Nat) : Byte :=
  if half = 0 then
    if bit = 0 then errStart else if bit ≤ 9 then errData else errCollision
  else if checkSecondHalf then errCollision else 0

/-- The 4-bit encoding of `rx_state` (10_state.md R47). -/
def RxState.code : RxState → BitVec 4
  | .idle => 0
  | .data i => BitVec.ofNat 4 (i.val + 1)
  | .parity => 9
  | .stop => 10

/-- The 5-bit encoding of `tx_state` (10_state.md R49). -/
def TxState.code : TxState → BitVec 5
  | .idle => 0
  | .wait => 1
  | .semi j => BitVec.ofNat 5 (j.val + 2)

/-- The 1-bit encoding of `MODE` (10_state.md R42). -/
def Mode.code : Mode → BitVec 1
  | .off => 0
  | .on => 1

/-- The status codes (30_encoding.md R153). -/
def Status.code : Status → Nat
  | .ok => 0
  | .empty => 1
  | .notBegun => 2
  | .fail => 3
  | .illegal => 4

end Sys2Proof.Machine
end

