-- ==== Sys2Proof/Machine/Operands.lean ====
section
/-! DEFINITION. How an operand field feeds a register, a parameter or a result: zero extension everywhere
(30_encoding.md R152, R156), the floor of a delay, and the counts a command returns (00_scope.md R14). -/

namespace Sys2Proof.Machine

/-- `zext_32` of an operand, a byte, an error byte or a delta (00_scope.md R14, 30_encoding.md R152). -/
def zext32 {n : Nat} (v : BitVec n) : Word := v.setWidth 32

/-- A number of bytes as the 32-bit `value` of a framer command: READPACKET's is unbounded and returned modulo 2^32
(45_packet_framer.md R435), WRITEPACKET's is at most 256 (R440). -/
def countValue (n : Nat) : Word := BitVec.ofNat 32 n

/-- AVAILABLE's `value` for `n` unread slots (44_ring_ops.md R390). DESIGN CHOICE, log entry 29: the spec states no value for a count
of 2^32 or more (`RX_N` has no upper bound, 00_scope.md R11, and a value has 32 bits, 30_encoding.md R153), so it is a free value
there. -/
def availableValue (n : Nat) : Word := if n < 2 ^ 32 then BitVec.ofNat 32 n else Config.wideCount n

/-- A condition as the value 1 or 0 (42_tx_engine.md R303, 44_ring_ops.md R395). -/
def boolValue (b : Bool) : Word := if b then 1 else 0

/-- The value of a read of the empty RX ring (44_ring_ops.md R392). -/
def emptyValue : Word := 0xFFFF

/-- BEGIN's `baud = zext_32(BAUD)`, as a number (30_encoding.md R156). -/
def baudOf (baud : BitVec 23) : Nat := (zext32 baud).toNat

/-- The effective delay `max(d, MIN_DELAY)` (42_tx_engine.md R300, R316). -/
def effectiveDelay (d : Half) : Half := if minDelay ≤ d then d else minDelay

end Sys2Proof.Machine
end

