-- ==== Sys2Proof/Machine/Ops.lean ====
section
/-! DEFINITION. The named operations the rules share: how a command ends, the mode check, the ring primitives
(20_memory.md R110 to R118), the deferred-commit cell (41_rx_engine.md R262, R263), the bus levels (00_scope.md R17)
and the hold conditions (60_exceptions.md R512). The block takes no exception (R500): its one shared entry, the
taking of an event, is `takeEvent` in Machine/Events.lean. -/

namespace Sys2Proof.Machine

/-! ### How a command ends -/

/-- A command returns `(status, value)`: the host is ready for the next one (30_encoding.md R153). -/
def State.answer (s : State) (status : Status) (value : Word) : State :=
  { s with host := .ready, results := ⟨status, value, none⟩ :: s.results }

/-- READPACKET returns `(OK, value)` with its packet record (45_packet_framer.md R435). -/
def State.answerPacket (s : State) (value : Word) (p : Packet) : State :=
  { s with host := .ready, results := ⟨.ok, value, some p⟩ :: s.results }

/-- The mode check: a command that needs `MODE = ON` returns `(NOT_BEGUN, 0)` while `OFF` (30_encoding.md R154). -/
def State.whenOn (s : State) (f : State → StepOutcome) : StepOutcome :=
  match s.mode with
  | .on => f s
  | .off => .next (s.answer .notBegun 0)

/-! ### Rings: the indices are taken modulo the capacity `c` -/

/-- The form of a ring of capacity `c`: as many slots, and both indices in range (20_memory.md R101, R102). -/
abbrev Ring.wf {α : Type} (c : Nat) (r : Ring α) : Prop := r.slots.length = c ∧ r.head < c ∧ r.tail < c

/-- `RxCount`, `TxCount` (20_memory.md R111, R113). -/
def Ring.count {α : Type} (c : Nat) (r : Ring α) : Nat := (r.head + c - r.tail) % c

/-- `RxFull`, `TxFull` (20_memory.md R112, R113). -/
def Ring.full {α : Type} (c : Nat) (r : Ring α) : Bool := (r.head + 1) % c == r.tail

/-- `RxEmpty`, `TxEmpty` (20_memory.md R112, R113). -/
def Ring.isEmpty {α : Type} (r : Ring α) : Bool := r.head == r.tail

/-- A slot is written at `head`, and `head` moves on (20_memory.md R110, R115). -/
def Ring.push {α : Type} (c : Nat) (x : α) (r : Ring α) : Ring α :=
  { r with slots := r.slots.set r.head x, head := (r.head + 1) % c }

/-- The slot at `i`; `d` outside the array, which no reachable state reads (log entry 14). -/
def Ring.slotAt {α : Type} (d : α) (i : Nat) (r : Ring α) : α := r.slots.getD i d

/-- `tail` moves on: the head-of-line slot is consumed (20_memory.md R116, R118). -/
def Ring.consume {α : Type} (c : Nat) (r : Ring α) : Ring α := { r with tail := (r.tail + 1) % c }

/-- `TxFlush`, `RxFlush`: `tail <- head`; no slot changes (20_memory.md R117). -/
def Ring.flush {α : Type} (r : Ring α) : Ring α := { r with tail := r.head }

/-- The newest committed slot, at `head - 1`, changed by `f` (20_memory.md R110). -/
def Ring.modifyNewest {α : Type} (c : Nat) (f : α → α) (r : Ring α) : Ring α :=
  { r with slots := r.slots.modify ((r.head + c - 1) % c) f }

/-- The slots in `[tail, head)`, the oldest first (44_ring_ops.md R395, R397). -/
def Ring.unread {α : Type} (d : α) (c : Nat) (r : Ring α) : List α :=
  (List.range (r.count c)).map fun k => r.slotAt d ((r.tail + k) % c)

/-- A slot is retro-flagged with the overrun error (20_memory.md R110). -/
def RxSlot.overrun (x : RxSlot) : RxSlot := { x with err := x.err ||| errOverrun }

/-- `RxCommit` on a ring of capacity `c` (20_memory.md R110). -/
def rxCommitRing (c : Nat) (x : RxSlot) (r : Ring RxSlot) : Ring RxSlot :=
  if r.full c then r.modifyNewest c RxSlot.overrun else r.push c x

/-- `RxCommit(b, e, d)`: the only way a slot enters the RX ring (20_memory.md R110). -/
def State.rxCommit (s : State) (x : RxSlot) : State := { s with rxRing := rxCommitRing s.cfg.rxC x s.rxRing }

/-- `RxCount()` (20_memory.md R111). -/
def State.rxCount (s : State) : Nat := s.rxRing.count s.cfg.rxC

/-- The head-of-line slot of the RX ring (44_ring_ops.md, opening). -/
def State.rxFront (s : State) : RxSlot := s.rxRing.slotAt RxSlot.zero s.rxRing.tail

/-- The unread RX slots, the oldest first. -/
def State.rxUnread (s : State) : List RxSlot := s.rxRing.unread RxSlot.zero s.cfg.rxC

/-- `RxPop()`, its effect on the ring; the slot popped is `rxFront` (20_memory.md R118). -/
def State.rxPop (s : State) : State := { s with rxRing := s.rxRing.consume s.cfg.rxC }

/-- `RxFlush()` (20_memory.md R117). -/
def State.rxFlush (s : State) : State := { s with rxRing := s.rxRing.flush }

/-- `TxFull()` (20_memory.md R113). -/
def State.txFull (s : State) : Bool := s.txRing.full s.cfg.txC

/-- `TxCount()` (20_memory.md R113). -/
def State.txCount (s : State) : Nat := s.txRing.count s.cfg.txC

/-- The slot `TxDequeue` returns (20_memory.md R116). -/
def State.txFront (s : State) : TxSlot := s.txRing.slotAt TxSlot.zero s.txRing.tail

/-- The queued TX slots, the oldest first. -/
def State.txQueued (s : State) : List TxSlot := s.txRing.unread TxSlot.zero s.cfg.txC

/-- `TxEnqueue(b, d)` (20_memory.md R115). -/
def State.txEnqueue (s : State) (x : TxSlot) : State := { s with txRing := s.txRing.push s.cfg.txC x }

/-- `TxDequeue()`, its effect on the ring; the slot returned is `txFront` (20_memory.md R116). -/
def State.txDequeue (s : State) : State := { s with txRing := s.txRing.consume s.cfg.txC }

/-- `TxFlush()` (20_memory.md R117). -/
def State.txFlush (s : State) : State := { s with txRing := s.txRing.flush }

/-! ### The deferred-commit cell -/

/-- `Finalize(eop)`: the staged byte enters the RX ring, with `SIGNAL_EOP` merged when `eop` (41_rx_engine.md R263). -/
def State.finalize (s : State) (eop : Bool) : State :=
  let s1 := s.rxCommit ⟨s.pend.byte, s.pend.err ||| eopFlag eop, s.pend.delta⟩
  { s1 with pend := { s1.pend with valid := false } }

/-- `if pend_valid = 1: Finalize(eop)` (41_rx_engine.md R255, R262; 42_tx_engine.md R310). -/
def State.finalizePending (s : State) (eop : Bool) : State := if s.pend.valid then s.finalize eop else s

/-- `Stage(b, e, d)`: a decoded byte enters the cell; a byte already there is finalized first, without EOP
(41_rx_engine.md R262). -/
def State.stage (s : State) (b e : Byte) (d : Half) : State :=
  { s.finalizePending false with pend := ⟨true, b, e, d⟩ }

/-- `EopAt(t) = t + (1 + ALLOW) · T`, with `ALLOW` as it is now (41_rx_engine.md R258). -/
def State.eopAt (s : State) (t : Tick) : Tick := t + (1 + s.conf.allow.toNat) * s.timing.T.toNat

/-! ### Levels and counters -/

/-- The logical level of the bus pin from now on, before any further change (00_scope.md R17; 30_encoding.md R164 for
the wired-AND bus). -/
def State.lineLevel (s : State) : Bool :=
  let o := s.bus.other ^^ s.pol
  if s.bus.loopback then s.tx.out && o else o

/-- `In(now)`: the logical level held on the interval that ends at `now` (00_scope.md R17). -/
def State.inLevel (s : State) : Bool := s.bus.before

/-- The raw level of the output pin, `Out ^ POL` (00_scope.md R17). -/
def State.rawOut (s : State) : Bool := s.tx.out ^^ s.pol

/-- The bit timer's 16-bit counter, `TCNT = now mod 2^16` (00_scope.md R15, 60_exceptions.md R516). -/
def State.tcnt (s : State) : Half := BitVec.ofNat 16 s.now

/-! ### Hold conditions (60_exceptions.md R512) -/

/-- The condition on which a WRITE step holds no longer: `tx_state = IDLE or not TxFull()` (42_tx_engine.md R301). -/
def State.canWrite (s : State) : Bool := s.tx.state == .idle || !s.txFull

end Sys2Proof.Machine
end

