-- ==== Sys2Proof/Machine/Calibrator.lean ====
section
/-! DEFINITION. The timing calibrator and the control commands: BEGIN, END, the five setters and the uptime reads
(40_calibrator_control.md). -/

namespace Sys2Proof.Machine

/-- The timing BEGIN derives, or `none` when it fails (40_calibrator_control.md R200 to R204). -/
def calibrate (fClk baud : Nat) : Option Timing :=
  if baud = 0 then none
  else
    let t := (fClk + baud / 2) / baud
    let s := t / 2
    if t < 2 ∨ 65535 < t + s then none
    else some {
      T := BitVec.ofNat 16 t
      S := BitVec.ofNat 16 s
      SUPP := BitVec.ofNat 16 (s + t / 8)
      SCHED := BitVec.ofNat 16 (t + s)
      TT := BitVec.ofNat 16 t
      TS := BitVec.ofNat 16 s }

/-- The RX ring after BEGIN: empty, its contents unspecified (10_state.md R66, log entry 6). -/
def freshRxRing (c f : Nat) : Ring RxSlot :=
  ⟨(List.range c).map fun i =>
    ⟨Config.freeBits 8 (f + 2 * i), Config.freeBits 8 (f + 2 * i + 1), Config.freeBits 16 (f + i)⟩, 0, 0⟩

/-- The TX ring after BEGIN: empty, its contents unspecified (10_state.md R66, log entry 6). -/
def freshTxRing (c f : Nat) : Ring TxSlot :=
  ⟨(List.range c).map fun i => ⟨Config.freeBits 8 (f + i), Config.freeBits 16 (f + i)⟩, 0, 0⟩

/-- The state of 10_state.md R66: what a successful BEGIN leaves at the instant `s.now`. The registers R48, R50 and
R66 leave unspecified take free values (log entry 6); the configuration registers and the cell's contents stay. -/
def State.begun (s : State) (tm : Timing) (pol : Bool) : State :=
  let f := s.free
  { s with
    mode := .on
    timing := tm
    pol := pol
    irq := { rxEn := true, msIe := true, msPend := false }
    rx := {
      state := .idle
      target := Config.freeTick f
      shift := Config.freeBits 8 f
      par := (Config.freeBits 1 f).getLsbD 0
      curDelta := Config.freeBits 16 f
      lastEdge := none }
    pend := { s.pend with valid := false }
    tx := {
      state := .idle
      byte := Config.freeBits 8 (f + 1)
      t0 := Config.freeTick (f + 1)
      target := Config.freeTick (f + 2)
      par := (Config.freeBits 1 (f + 1)).getLsbD 0
      err := Config.freeBits 8 (f + 2)
      delta := Config.freeBits 16 (f + 1)
      out := true
      effDelay := Config.freeBits 16 (f + 2)
      wait := Config.freeBits 16 (f + 3) }
    seq := { msSinceStart := 0, uptimeMs := 0, uptimeSub := 0, uptimeSec := 0, nextMs := s.now + s.cfg.msPhase }
    rxRing := freshRxRing s.cfg.rxC (f + 4)
    txRing := freshTxRing s.cfg.txC (f + 4 + 2 * s.cfg.rxC)
    free := f + 4 + 2 * s.cfg.rxC + s.cfg.txC }

/-- BEGIN (40_calibrator_control.md R200, R204 to R206). -/
def execBegin (pol : Bool) (baud : BitVec 23) (s : State) : StepOutcome :=
  match s.mode with
  | .on => .refused .secondBegin
  | .off =>
    match calibrate s.cfg.fClk (baudOf baud) with
    | none => .next (s.answer .fail 0)
    | some tm => .next ((s.begun tm pol).answer .ok 0)

/-- What END does to the block (40_calibrator_control.md R207). -/
def State.ended (s : State) : State :=
  let s1 := s.txFlush
  { s1 with
    irq := { rxEn := false, msIe := false, msPend := false }
    tx := { s1.tx with state := .idle, out := true }
    rx := { s1.rx with state := .idle }
    pend := { s1.pend with valid := false }
    mode := .off }

/-- END (40_calibrator_control.md R207). -/
def execEnd (s : State) : StepOutcome := s.whenOn fun s => .next (s.ended.answer .ok 0)

/-- SETDELAY (40_calibrator_control.md R209, R210). -/
def execSetDelay (ms : Half) (s : State) : StepOutcome :=
  .next (State.answer { s with conf := { s.conf with delay := ms } } .ok 0)

/-- SETDELAYTIMEOUT (40_calibrator_control.md R209, R211). -/
def execSetDelayTimeout (ms : Half) (s : State) : StepOutcome :=
  .next (State.answer { s with conf := { s.conf with dlyTo := ms } } .ok 0)

/-- SETECHO (40_calibrator_control.md R209, R212). -/
def execSetEcho (en : Bool) (s : State) : StepOutcome :=
  .next (State.answer { s with conf := { s.conf with echo := en } } .ok 0)

/-- SETALLOW (40_calibrator_control.md R209, R213). -/
def execSetAllow (bits : Byte) (s : State) : StepOutcome :=
  .next (State.answer { s with conf := { s.conf with allow := bits } } .ok 0)

/-- SETERRORMASK (40_calibrator_control.md R209, R214). -/
def execSetErrorMask (mask : Byte) (s : State) : StepOutcome :=
  .next (State.answer { s with conf := { s.conf with errMask := mask } } .ok 0)

/-- UPTIME_SEC (40_calibrator_control.md R215). -/
def execUptimeSec (s : State) : StepOutcome := s.whenOn fun s => .next (s.answer .ok s.seq.uptimeSec)

/-- UPTIME_MILLISEC (40_calibrator_control.md R216). -/
def execUptimeMillisec (s : State) : StepOutcome := s.whenOn fun s => .next (s.answer .ok s.seq.uptimeMs)

end Sys2Proof.Machine
end

