-- ==== Sys2Proof/Machine/Excluded.lean ====
section
/-! DEFINITION. The two reserved codes for features outside the spec: both are refused, with any operand and in any
mode (30_encoding.md R172, 60_exceptions.md R515, R541). -/

namespace Sys2Proof.Machine

/-- SETSCOPE: refused (30_encoding.md R172). -/
def execSetScope (_operand : BitVec 24) (_s : State) : StepOutcome := .refused .scopeBuffer

/-- ADC_RESULTS: refused (30_encoding.md R172). -/
def execAdcResults (_operand : BitVec 24) (_s : State) : StepOutcome := .refused .adcResults

end Sys2Proof.Machine
end

