-- ==== Sys2Proof/Machine/TxEngine.lean ====
section
/-! DEFINITION. The TX engine: the step of a WRITE, the handlers of the TX compare and the commands WRITE, WRITEREADY
and FLUSHOUTPUT (42_tx_engine.md). -/

namespace Sys2Proof.Machine

/-- The step of a WRITE whose hold condition is true: the byte is staged with its delay when the engine is idle (42_tx_engine.md
R300), else it is queued with its delay (R301). Each WRITE consumes `DELAY`. -/
def State.writeByte (s : State) (b : Byte) : State :=
  match s.tx.state with
  | .idle =>
    { s with
      tx := { s.tx with byte := b, effDelay := effectiveDelay s.conf.delay, wait := 0, state := .wait }
      conf := { s.conf with delay := 0 } }
  | .wait | .semi _ =>
    let s1 := s.txEnqueue ⟨b, s.conf.delay⟩
    { s1 with conf := { s1.conf with delay := 0 } }

/-- A WRITE step of the command port: it is performed when its hold condition is true, else the host holds
(42_tx_engine.md R300, R301). -/
def State.writeStep (s : State) (b : Byte) : State :=
  if s.canWrite then (s.writeByte b).answer .ok 0 else { s with host := .write b }

/-- The step of a FLUSHOUTPUT: it returns when the engine is idle, else the host holds (42_tx_engine.md R304). -/
def State.flushOutputStep (s : State) : State :=
  if s.tx.state = .idle then s.answer .ok 0 else { s with host := .flushOutput }

/-! ### The byte sequence -/

/-- `Boundary(j)` (42_tx_engine.md R314). -/
def State.boundary (s : State) (j : Nat) : Tick :=
  s.tx.t0 + (j / 2) * s.timing.TT.toNat + (j % 2) * s.timing.TS.toNat

/-- `Level(j)`, the level of semibit `j` of `byte` with parity bit `par` (42_tx_engine.md R315). -/
def semibitLevel (byte : Byte) (par : Bool) (j : Nat) : Bool :=
  let bit := j / 2
  if j % 2 = 1 then true
  else if bit = 0 then false
  else if bit ≤ 8 then byte.getLsbD (bit - 1)
  else if bit = 9 then par
  else true

/-- `Promote(t)` (42_tx_engine.md R310). -/
def State.promote (s : State) (t : Tick) : State :=
  let s1 := State.finalizePending { s with irq := { s.irq with rxEn := false, msIe := false } } true
  { s1 with
    seq := { s1.seq with msSinceStart := 0 }
    tx := { s1.tx with
      delta := s1.seq.msSinceStart
      target := t + s1.timing.TS.toNat
      state := .semi 0 } }

/-- `BeginByte(t)`: the start of a byte's start bit (42_tx_engine.md R311). -/
def State.beginByte (s : State) (t : Tick) : State :=
  { s with tx := { s.tx with
      t0 := t
      err := 0
      par := false
      out := false
      target := t + s.timing.TS.toNat
      state := .semi 1 } }

/-- `Sample(j, t)`: the read-back check of the semibit that has just ended (42_tx_engine.md R312). -/
def State.sample (s : State) (j : Nat) : State :=
  let m := j - 1
  if s.inLevel ≠ s.tx.out then
    { s with tx := { s.tx with err := s.tx.err ||| errCode s.cfg.checkSecondHalf (m / 2) (m % 2) } }
  else s

/-- `Drive(j, t)` for `1 ≤ j ≤ 21`: semibit `j` is driven and the next boundary armed (42_tx_engine.md R313). -/
def State.drive (s : State) (j : Nat) (h : j + 1 < 23) : State :=
  let bit := j / 2
  let par := if j % 2 = 0 ∧ 1 ≤ bit ∧ bit ≤ 8 then s.tx.par ^^ s.tx.byte.getLsbD (bit - 1) else s.tx.par
  { s with tx := { s.tx with
      par := par
      out := semibitLevel s.tx.byte par j
      target := s.boundary (j + 1)
      state := .semi ⟨j + 1, h⟩ } }

/-- `ReleaseBus(t)`: the bus is handed back to the receiver (42_tx_engine.md R318). -/
def State.releaseBus (s : State) (t : Tick) : State :=
  { s with
    irq := { s.irq with rxEn := true, msIe := true }
    rx := { s.rx with state := .idle, target := if s.pend.valid then s.eopAt t else s.rx.target } }

/-- `NextByte(t)`: the next queued byte, or idle (42_tx_engine.md R316). -/
def State.nextByte (s : State) (t : Tick) : State :=
  if s.txRing.isEmpty then
    State.releaseBus { s with tx := { s.tx with state := .idle } } t
  else
    let x := s.txFront
    let s1 := s.txDequeue
    let s2 : State := { s1 with tx := { s1.tx with byte := x.byte } }
    if x.delay = 0 then
      State.beginByte
        { s2 with
          tx := { s2.tx with delta := s2.seq.msSinceStart }
          seq := { s2.seq with msSinceStart := 0 } } t
    else
      State.releaseBus
        { s2 with tx := { s2.tx with effDelay := effectiveDelay x.delay, wait := 0, state := .wait } } t

/-- The echo of the byte just sent: `if ECHO = 1: Stage(tx_byte, tx_err, tx_delta)` (42_tx_engine.md R317). -/
def State.echoByte (s : State) : State :=
  if s.conf.echo then s.stage s.tx.byte s.tx.err s.tx.delta else s

/-- The defensive flush: `if tx_err ≠ 0: TxFlush()` (42_tx_engine.md R317). -/
def State.flushOnError (s : State) : State := if s.tx.err ≠ 0 then s.txFlush else s

/-- `EndByte(t)`: echo, flush, next byte (42_tx_engine.md R317). -/
def State.endByte (s : State) (t : Tick) : State := s.echoByte.flushOnError.nextByte t

/-- The TX compare is armed (10_state.md R61, 60_exceptions.md R503). -/
def State.txArmed (s : State) : Bool :=
  s.mode == .on && (match s.tx.state with | .semi _ => true | .idle | .wait => false)

/-- `TXCMP(t)` by boundary (42_tx_engine.md R319). -/
def State.txCmp (s : State) (t : Tick) : State :=
  match s.tx.state with
  | .idle => s
  | .wait => s
  | .semi j =>
    if j.val = 0 then s.beginByte t
    else if h : j.val + 1 < 23 then (s.sample j.val).drive j.val h
    else (s.sample 22).endByte t

/-! ### The commands -/

/-- WRITE (42_tx_engine.md R300, R301). -/
def execWrite (b : Byte) (s : State) : StepOutcome := s.whenOn fun s => .next (s.writeStep b)

/-- WRITEREADY: 1 exactly when a WRITE issued now would not hold (42_tx_engine.md R303). -/
def execWriteReady (s : State) : StepOutcome := s.whenOn fun s => .next (s.answer .ok (boolValue s.canWrite))

/-- FLUSHOUTPUT (42_tx_engine.md R304). -/
def execFlushOutput (s : State) : StepOutcome := s.whenOn fun s => .next s.flushOutputStep

end Sys2Proof.Machine
end

