-- ==== Sys2Proof/Machine/Framer.lean ====
section
/-! DEFINITION. The packet framer: the accumulator, READPACKET and WRITEPACKET (45_packet_framer.md). -/

namespace Sys2Proof.Machine

/-- One bit of `CrcStep`: the accumulator after the data bit in bit 0 of `b` (45_packet_framer.md R431). -/
def crcBit (gen acc b : Byte) : Byte :=
  if (acc ^^^ b) &&& 1 = 1 then (acc >>> 1) ^^^ gen else acc >>> 1

/-- `n` rounds of `CrcStep`'s loop (45_packet_framer.md R431). -/
def crcRounds (gen : Byte) : Nat → Byte → Byte → Byte
  | 0, acc, _ => acc
  | n + 1, acc, b => crcRounds gen n (crcBit gen acc b) (b >>> 1)

/-- `CrcStep(acc, b, gen)` (45_packet_framer.md R431). -/
def crcStep (acc b gen : Byte) : Byte := crcRounds gen 8 acc b

/-- `Upd(acc, b, gen)` (45_packet_framer.md R430, R432). -/
def accUpdate (mode : FramerMode) (acc b gen : Byte) : Byte :=
  match mode with
  | .crc => crcStep acc b gen
  | .checksum => acc + b

/-- The accumulation of a byte sequence from `feed` (45_packet_framer.md R430, R441). -/
def accumulate (mode : FramerMode) (gen feed : Byte) (bytes : List Byte) : Byte :=
  bytes.foldl (fun acc b => accUpdate mode acc b gen) feed

/-! ### READPACKET -/

/-- The working registers when READPACKET starts (45_packet_framer.md R433). -/
def ReadRegs.start (gen feed maxlen : Byte) : ReadRegs where
  maxlen := maxlen
  gen := gen
  n := 0
  acc := feed
  delta := 0
  decl := none
  buf := []
  err := []

/-- The byte and its masked flags are stored, or condensed into the last storable slot; the first byte's delta is
the packet's (45_packet_framer.md R433). -/
def ReadRegs.store (r : ReadRegs) (errMask : Byte) (x : RxSlot) : ReadRegs :=
  let e := x.err &&& errMask
  let r1 := if r.n = 0 then { r with delta := x.delta } else r
  if r.n < r.maxlen.toNat then { r1 with buf := r1.buf ++ [x.byte], err := r1.err ++ [e] }
  else { r1 with err := r1.err.modify (r.maxlen.toNat - 1) (· ||| e) }

/-- The declared length, taken from the byte at `LEN_POS` (45_packet_framer.md R434). -/
def ReadRegs.declare (r : ReadRegs) (prefixAt : Option (Nat × Int)) (b : Byte) : ReadRegs :=
  match prefixAt with
  | some (pos, adj) => if r.n = pos then { r with decl := some ((b.toNat : Int) + adj) } else r
  | none => r

/-- The byte just popped ends the packet: it has the raw `SIGNAL_EOP` bit, or the declared length is reached
(45_packet_framer.md R434). -/
def ReadRegs.terminal (r : ReadRegs) (x : RxSlot) : Bool :=
  hasEop x.err || (match r.decl with | some d => decide (d ≤ (r.n : Int) + 1) | none => false)

/-- The check of the terminal byte against the accumulator (45_packet_framer.md R434). -/
def ReadRegs.check (r : ReadRegs) (b : Byte) : ReadRegs :=
  if r.gen ≠ 0 ∧ r.acc ≠ b then { r with err := r.err.modify (min r.n (r.maxlen.toNat - 1)) (· ||| errCrc) } else r

/-- A byte that does not end the packet is folded into the accumulator and counted (45_packet_framer.md R433). -/
def ReadRegs.fold (r : ReadRegs) (mode : FramerMode) (b : Byte) : ReadRegs :=
  { r with acc := accUpdate mode r.acc b r.gen, n := r.n + 1 }

/-- The record READPACKET returns (45_packet_framer.md R435). -/
def ReadRegs.packet (r : ReadRegs) : Packet := ⟨r.delta, r.buf, r.err⟩

/-- One iteration of READPACKET's loop, when the ring is not empty (45_packet_framer.md R433, R434). -/
def State.readIteration (s : State) (r : ReadRegs) : State :=
  let x := s.rxFront
  let s1 := s.rxPop
  let r1 := (r.store s.conf.errMask x).declare s.cfg.lengthPrefix x.byte
  if r1.terminal x then s1.answerPacket (countValue (r.n + 1)) (r1.check x.byte).packet
  else { s1 with host := .readPacket (r1.fold s.cfg.framerMode x.byte) }

/-- A step of READPACKET: an iteration, or a hold while the ring is empty (45_packet_framer.md R433). -/
def State.readStep (s : State) (r : ReadRegs) : State :=
  if s.rxCount = 0 then { s with host := .readPacket r } else s.readIteration r

/-- READPACKET (45_packet_framer.md R433, R436). -/
def execReadPacket (gen feed maxlen : Byte) (s : State) : StepOutcome :=
  s.whenOn fun s =>
    if maxlen = 0 then .next (s.answer .illegal 0) else .next (s.readStep (ReadRegs.start gen feed maxlen))

/-! ### WRITEPACKET -/

/-- WRITEPACKET's value: `len + (gen ≠ 0 ? 1 : 0)` (45_packet_framer.md R440). -/
def WriteRegs.value (w : WriteRegs) : Word := countValue (w.payload.length + if w.gen = 0 then 0 else 1)

/-- WRITEPACKET has no WRITE left to do: it returns; else it goes on (45_packet_framer.md R440). -/
def State.writeContinue (s : State) (w : WriteRegs) : State :=
  if w.payload.length ≤ w.i.toNat ∧ w.gen = 0 then s.answer .ok w.value else { s with host := .writePacket w }

/-- One WRITE step of WRITEPACKET, when its hold condition is true: the next payload byte, or after the payload the
trailer (45_packet_framer.md R440, R441). -/
def State.packetWrite (s : State) (w : WriteRegs) : State :=
  match w.payload[w.i.toNat]? with
  | some b =>
    (s.writeByte b).writeContinue
      { w with acc := accUpdate s.cfg.framerMode w.acc b w.gen, i := w.i + 1 }
  | none => (if w.gen = 0 then s else s.writeByte w.acc).answer .ok w.value

/-- A step of WRITEPACKET: a WRITE, or a hold (45_packet_framer.md R440). -/
def State.packetWriteStep (s : State) (w : WriteRegs) : State :=
  if s.canWrite then s.packetWrite w else { s with host := .writePacket w }

/-- WRITEPACKET's step 0: `DELAY` and the working registers (45_packet_framer.md R440). -/
def execWritePacket (gen feed : Byte) (delay : Half) (payload : List Byte) (s : State) : StepOutcome :=
  s.whenOn fun s =>
    .next (State.writeContinue { s with conf := { s.conf with delay := delay } }
      { payload := payload, gen := gen, i := 0, acc := feed })

end Sys2Proof.Machine
end

