-- ==== Sys2Proof/Machine/RingCommands.lean ====
section
/-! DEFINITION. The host commands on the RX ring (44_ring_ops.md). -/

namespace Sys2Proof.Machine

/-- A read of the RX ring: `(EMPTY, 0xFFFF)` and no change when it is empty, else `f` (44_ring_ops.md R392). -/
def State.unlessEmpty (s : State) (f : State → State) : State :=
  if s.rxRing.isEmpty then s.answer .empty emptyValue else f s

/-- AVAILABLE (44_ring_ops.md R390; a count of 2^32 or more: log entry 29). -/
def execAvailable (s : State) : StepOutcome := s.whenOn fun s => .next (s.answer .ok (availableValue s.rxCount))

/-- READ: consumes the head-of-line slot and returns its byte (44_ring_ops.md R391). -/
def execRead (s : State) : StepOutcome :=
  s.whenOn fun s => .next (s.unlessEmpty fun s => s.rxPop.answer .ok (zext32 s.rxFront.byte))

/-- READ_ERROR: the masked error byte of the head-of-line slot (44_ring_ops.md R394). -/
def execReadError (s : State) : StepOutcome :=
  s.whenOn fun s => .next (s.unlessEmpty fun s => s.answer .ok (zext32 (s.rxFront.err &&& s.conf.errMask)))

/-- READ_DELTA: the delta of the head-of-line slot (44_ring_ops.md R393). -/
def execReadDelta (s : State) : StepOutcome :=
  s.whenOn fun s => .next (s.unlessEmpty fun s => s.answer .ok (zext32 s.rxFront.delta))

/-- PACKETAVAILABLE: 1 iff some unread slot has the raw `SIGNAL_EOP` bit (44_ring_ops.md R395). -/
def execPacketAvailable (s : State) : StepOutcome :=
  s.whenOn fun s => .next (s.answer .ok (boolValue (s.rxUnread.any fun x => hasEop x.err)))

/-- FLUSHINPUT (44_ring_ops.md R396). -/
def execFlushInput (s : State) : StepOutcome := s.whenOn fun s => .next (s.rxFlush.answer .ok 0)

end Sys2Proof.Machine
end

