-- ==== Sys2Proof/Machine/Dispatch.lean ====
section
/-! DEFINITION. The dispatch of a command to its meaning, one arm per constructor. -/

namespace Sys2Proof.Machine

/-- The first step of a command at its instant (60_exceptions.md R511). -/
def exec (i : Instr) (s : State) : Host.Outcome State Fault Refusal :=
  match i with
  | .beginCmd pol baud => Sys2Proof.Machine.execBegin pol baud s
  | .endCmd => Sys2Proof.Machine.execEnd s
  | .available => Sys2Proof.Machine.execAvailable s
  | .read => Sys2Proof.Machine.execRead s
  | .readError => Sys2Proof.Machine.execReadError s
  | .readDelta => Sys2Proof.Machine.execReadDelta s
  | .packetAvailable => Sys2Proof.Machine.execPacketAvailable s
  | .flushInput => Sys2Proof.Machine.execFlushInput s
  | .write b => Sys2Proof.Machine.execWrite b s
  | .writeReady => Sys2Proof.Machine.execWriteReady s
  | .flushOutput => Sys2Proof.Machine.execFlushOutput s
  | .setDelay ms => Sys2Proof.Machine.execSetDelay ms s
  | .setDelayTimeout ms => Sys2Proof.Machine.execSetDelayTimeout ms s
  | .setEcho en => Sys2Proof.Machine.execSetEcho en s
  | .setAllow bits => Sys2Proof.Machine.execSetAllow bits s
  | .setErrorMask mask => Sys2Proof.Machine.execSetErrorMask mask s
  | .uptimeSec => Sys2Proof.Machine.execUptimeSec s
  | .uptimeMillisec => Sys2Proof.Machine.execUptimeMillisec s
  | .readPacket gen feed maxlen => Sys2Proof.Machine.execReadPacket gen feed maxlen s
  | .writePacket gen feed delay payload => Sys2Proof.Machine.execWritePacket gen feed delay payload s
  | .setScope operand => Sys2Proof.Machine.execSetScope operand s
  | .adcResults operand => Sys2Proof.Machine.execAdcResults operand s

end Sys2Proof.Machine
end

