-- ==== Sys2Proof/Machine/RxEngine.lean ====
section
/-! DEFINITION. The RX engine: the handlers of a falling edge and of the RX compare (41_rx_engine.md). -/

namespace Sys2Proof.Machine

/-- `Elapsed(t, u)` (41_rx_engine.md R253). -/
def elapsed (d : SuppressDiff) (t u : Tick) : Nat :=
  match d with
  | .exactTicks => t - u
  | .mod16 => (t - u) % 2 ^ 16

/-- An edge at `t` is suppressed: less than `SUPP` ticks after the last genuine edge (41_rx_engine.md R252). -/
def State.suppressed (s : State) (t : Tick) : Bool :=
  match s.rx.lastEdge with
  | none => false
  | some u => elapsed s.cfg.suppressDiff t u < s.timing.SUPP.toNat

/-- `BIT (k + 1)` after `BIT k`, for `1 ≤ k ≤ 9` (10_state.md R47); the other states stay. -/
def RxState.nextBit : RxState → RxState
  | .data i => if h : i.val + 1 < 8 then .data ⟨i.val + 1, h⟩ else .parity
  | .parity => .stop
  | .stop => .stop
  | .idle => .idle

/-- `StartBit(t)` (41_rx_engine.md R255). -/
def State.startBit (s : State) (t : Tick) : State :=
  let s1 := s.finalizePending false
  { s1 with
    irq := { s1.irq with msIe := false }
    seq := { s1.seq with msSinceStart := 0 }
    rx := { s1.rx with
      curDelta := s1.seq.msSinceStart
      shift := 0
      par := false
      target := t + s1.timing.SCHED.toNat
      state := .data 0 } }

/-- `ZeroBit(k)`: the bit being decided is 0 (41_rx_engine.md R256). -/
def State.zeroBit (s : State) : State :=
  { s with rx := { s.rx with target := s.rx.target + s.timing.T.toNat, state := s.rx.state.nextBit } }

/-- `StopSlotEdge(t)`: the stop bit reads as 0; the byte is finalized and a new one begins (41_rx_engine.md R257). -/
def State.stopSlotEdge (s : State) (t : Tick) : State :=
  let s1 := (s.stage s.rx.shift (parityFlag s.rx.par) s.rx.curDelta).finalize false
  State.startBit { s1 with rx := { s1.rx with state := .idle } } t

/-- `Dispatch(t)` of a genuine edge by `rx_state` (41_rx_engine.md R254). -/
def State.dispatchEdge (s : State) (t : Tick) : State :=
  match s.rx.state with
  | .idle => s.startBit t
  | .data _ => s.zeroBit
  | .parity => s.zeroBit
  | .stop => s.stopSlotEdge t

/-- `HandleEdge(t)`: noise suppression, then the dispatch of a genuine edge (41_rx_engine.md R252). -/
def State.handleEdge (s : State) (t : Tick) : State :=
  if s.suppressed t then s
  else State.dispatchEdge { s with rx := { s.rx with lastEdge := some t } } t

/-- `EDGE(t)`: handled only if `MODE = ON` and `RX_EN = 1`, else discarded (41_rx_engine.md R251). -/
def State.edge (s : State) (t : Tick) : State :=
  if s.mode = .on ∧ s.irq.rxEn = true then s.handleEdge t else s

/-- `OneBit(k)`: the compare fired with no edge before it, so the bit is 1 (41_rx_engine.md R259). -/
def State.oneBit (s : State) : State :=
  { s with rx := { s.rx with
      shift := match s.rx.state with
        | .data i => s.rx.shift ||| (1 <<< i.val)
        | .parity | .stop | .idle => s.rx.shift
      par := !s.rx.par
      target := s.rx.target + s.timing.T.toNat
      state := s.rx.state.nextBit } }

/-- `StopBit(t)`: the byte is complete and is staged (41_rx_engine.md R260). -/
def State.stopBit (s : State) (t : Tick) : State :=
  let s1 := s.stage s.rx.shift (parityFlag s.rx.par) s.rx.curDelta
  { s1 with
    rx := { s1.rx with state := .idle, target := s1.eopAt t }
    irq := { s1.irq with msIe := true } }

/-- `EopFire(t)`: silence lasted until the EOP instant (41_rx_engine.md R261). -/
def State.eopFire (s : State) : State := s.finalize true

/-- The RX compare is armed (10_state.md R61, 60_exceptions.md R503). -/
def State.rxArmed (s : State) : Bool :=
  s.mode == .on && s.irq.rxEn && (s.rx.state != .idle || s.pend.valid)

/-- `RXCMP(t)` by `rx_state` (41_rx_engine.md R259, R260, R261). -/
def State.rxCmp (s : State) (t : Tick) : State :=
  match s.rx.state with
  | .data _ => s.oneBit
  | .parity => s.oneBit
  | .stop => s.stopBit t
  | .idle => s.eopFire

end Sys2Proof.Machine
end

