-- ==== Sys2Proof/Machine/Sequencer.lean ====
section
/-! DEFINITION. The sequencer: the handlers of the millisecond boundary and of the latched boundary (43_sequencer.md). -/

namespace Sys2Proof.Machine

/-- `Uptime()` (43_sequencer.md R363). -/
def State.uptime (s : State) : State :=
  let sub := s.seq.uptimeSub + 1
  let wrap : Bool := sub = 1000
  { s with seq := { s.seq with
      uptimeMs := s.seq.uptimeMs + 1
      uptimeSub := if wrap then 0 else sub
      uptimeSec := if wrap then s.seq.uptimeSec + 1 else s.seq.uptimeSec } }

/-- `WaitCount()`: the services since the byte entered `WAIT`, saturating at 65535 (43_sequencer.md R364). -/
def State.waitCount (s : State) : State :=
  if s.tx.state = .wait then
    { s with tx := { s.tx with wait := if s.tx.wait = 65535 then 65535 else s.tx.wait + 1 } }
  else s

/-- The test of `PromoteCheck`: the delay has elapsed since the last start bit, or the timeout since the write
(43_sequencer.md R365). -/
def State.promoteDue (s : State) : Bool :=
  s.tx.state == .wait && (decide (s.tx.effDelay ≤ s.seq.msSinceStart) || decide (s.conf.dlyTo ≤ s.tx.wait))

/-- `PromoteCheck(t)` (43_sequencer.md R365). -/
def State.promoteCheck (s : State) (t : Tick) : State := if s.promoteDue then s.promote t else s

/-- `MsService(t)`: the four steps in order (43_sequencer.md R362). -/
def State.msService (s : State) (t : Tick) : State :=
  let s1 : State := { s with seq := { s.seq with msSinceStart := s.seq.msSinceStart + 1 } }
  let s2 := if s1.cfg.uptimeGated then s1.uptime else s1
  s2.waitCount.promoteCheck t

/-- `MSB(t)`: a millisecond boundary (43_sequencer.md R360). -/
def State.msBoundary (s : State) (t : Tick) : State :=
  let s1 : State := { s with seq := { s.seq with nextMs := s.seq.nextMs + s.cfg.msPeriod } }
  let s2 := if s1.cfg.uptimeGated then s1 else s1.uptime
  if s2.irq.msIe then s2.msService t else { s2 with irq := { s2.irq with msPend := true } }

/-- `MSPEND(t)`: the latched boundary is serviced (43_sequencer.md R361). -/
def State.msPending (s : State) (t : Tick) : State :=
  State.msService { s with irq := { s.irq with msPend := false } } t

end Sys2Proof.Machine
end

