-- ==== Sys2Proof/Machine/Events.lean ====
section
/-! DEFINITION. The events of the block: when each is due, what taking it does, and the passing of time to the next
instant at which something can be due (30_encoding.md R161, 60_exceptions.md R503, R505, R508). -/

namespace Sys2Proof.Machine

/-- A step that can be due at an instant, in the reference order of 60_exceptions.md R505: a change of the bus level
(`EDGE` when it is a falling edge), `RXCMP`, `TXCMP`, `MSB`, `MSPEND`, and a step of the host agent. -/
inductive Due where
  | pin
  | rxCmp
  | txCmp
  | msb
  | msPend
  | host
  deriving DecidableEq, Repr

/-- The next change of the level the other devices drive has come (30_encoding.md R164). -/
def State.pinDue (s : State) : Bool :=
  match s.bus.changes with
  | [] => false
  | c :: _ => c.tick ≤ s.now

/-- `RXCMP` is due: `now = rx_target` while the RX compare is armed (30_encoding.md R161). -/
def State.rxCmpDue (s : State) : Bool := s.rxArmed && s.rx.target == s.now

/-- `TXCMP` is due: `now = tx_target` while `tx_state = SEMI j` (30_encoding.md R161). -/
def State.txCmpDue (s : State) : Bool := s.txArmed && s.tx.target == s.now

/-- `MSB` is due: `now = next_ms`, with `MODE = ON` (43_sequencer.md R360). -/
def State.msbDue (s : State) : Bool := s.mode == .on && s.seq.nextMs == s.now

/-- `MSPEND` is due: `MODE = ON`, `MS_IE = 1` and `MS_PEND = 1` (43_sequencer.md R361). -/
def State.msPendDue (s : State) : Bool := s.mode == .on && s.irq.msIe && s.irq.msPend

/-- A change of the level the other devices drive; when the logical input level falls it is `EDGE(now)`
(00_scope.md R18, 41_rx_engine.md R251). A rising edge is not captured. DESIGN CHOICE, log entry 28: the spec has one level per
interval and does not say what several changes at one tick mean; each is a step of its own, in the order of the list, and the
level it falls from is the one the change before it left, so that 1, 0, 1 and 0, 1, 0 at one tick each raise `EDGE`. Log entry 26:
a change in the past is taken at `now`. -/
def State.pinChange (s : State) : State :=
  match s.bus.changes with
  | [] => s
  | c :: rest =>
    let s1 : State := { s with bus := { s.bus with other := c.raw, changes := rest } }
    if s.lineLevel = true ∧ s1.lineLevel = false then s1.edge s.now else s1

/-- Taking an event: one atomic step at the event's instant. It saves no state and has no vector; its handler is the rule the
event names (60_exceptions.md R504, R508). A host step is no event. -/
def State.takeEvent (s : State) : Due → State
  | .pin => s.pinChange
  | .rxCmp => s.rxCmp s.now
  | .txCmp => s.txCmp s.now
  | .msb => s.msBoundary s.now
  | .msPend => s.msPending s.now
  | .host => s

/-- The instants at which something is known to become due: the next level change, the next word of the command port, and while
`MODE = ON` the armed compares and the next millisecond boundary (60_exceptions.md R503). -/
def State.agenda (s : State) : List Tick :=
  (s.bus.changes.head?.map PinChange.tick).toList ++ ((s.port.map PortWord.tick).filter (s.now < ·)).head?.toList ++
    (if s.rxArmed then [s.rx.target] else []) ++ (if s.txArmed then [s.tx.target] else []) ++
    (if s.mode == .on then [s.seq.nextMs] else [])

/-- The earliest instant after `now` on the agenda; the next tick when the agenda has none (a hang: time advances,
60_exceptions.md R512). -/
def State.nextInstant (s : State) : Tick := ((s.agenda.filter (s.now < ·)).min?).getD (s.now + 1)

/-- Time advances when nothing is due. The level the bus now has is the level held on the interval that ends at the new
instant (00_scope.md R15, R17; 60_exceptions.md R505). -/
def State.advance (s : State) : State :=
  { s with now := s.nextInstant, bus := { s.bus with before := s.lineLevel } }

end Sys2Proof.Machine
end

