-- ==== Sys2Proof/Machine/HostAgent.lean ====
section
/-! DEFINITION. The host agent: its command port, when it has a step, and its step (30_encoding.md R150 to R160,
60_exceptions.md R511, R512, R518). -/

namespace Sys2Proof.Machine

/-- The words the port has received by now, in order (log entry 8). -/
def State.arrived (s : State) : List Word := (s.port.takeWhile fun p => p.tick ≤ s.now).map PortWord.word

/-- What the words at the port give (30_encoding.md R151, R160). -/
def State.fetch (s : State) : Fetched := decode s.arrived

/-- The host agent has a step: its next command is at the port, or the hold of the command it is in is released
(60_exceptions.md R511, R512). -/
def State.hostDue (s : State) : Bool :=
  match s.host with
  | .ready => (match s.fetch with | .got _ _ => true | .incomplete => false)
  | .write _ => s.canWrite
  | .flushOutput => s.tx.state == .idle
  | .readPacket _ => s.rxCount != 0
  | .writePacket _ => s.canWrite

/-- The words of a command leave the port (30_encoding.md R151). -/
def State.takeWords (s : State) (n : Nat) : State := { s with port := s.port.drop n }

/-- A command begins: a well-formed word sequence is performed, an illegal one returns `(ILLEGAL, 0)` and changes nothing
(30_encoding.md R157, R159, R160). -/
def State.issue (s : State) (d : Decoded) : StepOutcome :=
  match d with
  | .command i => exec i s
  | .illegal _ => .next (s.answer .illegal 0)

/-- The host agent's step: its next command begins, or the command it is in takes its next step (60_exceptions.md
R508, R511). -/
def State.hostStep (s : State) : StepOutcome :=
  match s.host with
  | .ready =>
    match s.fetch with
    | .got d n => (s.takeWords n).issue d
    | .incomplete => .next s
  | .write b => .next (s.writeStep b)
  | .flushOutput => .next s.flushOutputStep
  | .readPacket r => .next (s.readStep r)
  | .writePacket w => .next (s.packetWriteStep w)

/-- A step is due at `now` (60_exceptions.md R505). -/
def State.isDue (s : State) : Due → Bool
  | .pin => s.pinDue
  | .rxCmp => s.rxCmpDue
  | .txCmp => s.txCmpDue
  | .msb => s.msbDue
  | .msPend => s.msPendDue
  | .host => s.hostDue

/-- The steps due at `now`, in the reference order (60_exceptions.md R505). -/
def State.dueSteps (s : State) : List Due := [.pin, .rxCmp, .txCmp, .msb, .msPend, .host].filter s.isDue

/-- Takes one due step (60_exceptions.md R505). -/
def State.takeDue (s : State) : Due → StepOutcome
  | .host => s.hostStep
  | .pin => .next (s.takeEvent .pin)
  | .rxCmp => .next (s.takeEvent .rxCmp)
  | .txCmp => .next (s.takeEvent .txCmp)
  | .msb => .next (s.takeEvent .msb)
  | .msPend => .next (s.takeEvent .msPend)

/-- One step under a choice of the order of steps due at one instant: time advances when none is due, a single due step is
taken, and of several the one that `pick` names, numbered in the reference order (60_exceptions.md R505). -/
def stepWith (pick : Nat → Nat) (s : State) : StepOutcome :=
  match s.dueSteps with
  | [] => .next s.advance
  | [d] => s.takeDue d
  | d :: ds => State.takeDue { s with free := s.free + 1 } ((d :: ds).getD (pick s.free % (ds.length + 1)) d)

/-- The words of an instruction at the front of the port, there from now on, and the host ready for it. -/
def State.placeWords (s : State) (ws : List Word) : State :=
  { s with host := .ready, port := ws.map (fun w => ⟨s.now, w⟩) ++ s.port }

end Sys2Proof.Machine
end

