-- ==== Sys2Proof/Machine/Step.lean ====
section
/-! DEFINITION. The step of the machine, and the placing of one instruction where the next step takes it. -/

namespace Sys2Proof.Machine

/-- One step of the machine: one due step of the block or of its host, in an order that is left open
(`Config.tieOrder`), or the passing of time (60_exceptions.md R505, R508, R511). -/
def step (s : State) : Host.Outcome State Fault Refusal := stepWith Config.tieOrder s

/-- The instruction with the bits `w` at the front of the command port, arrived by now, and the host ready to take it: the next
step runs it when no event is due at `now` (at reset none is). -/
def State.withFetchWord (s : State) (nbits w : Nat) : State := s.placeWords (Sys2Proof.tableWords nbits w)

end Sys2Proof.Machine
end

