-- ==== Sys2Proof/Machine/Assembler.lean ====
section
/-! DEFINITION. The text of commands and programs: the assembler syntax (30_encoding.md R162, R163), the program lines and
environment directives (R164), and how a program's lines become the inputs of a state (70_reset_and_hazards.md R580). -/

namespace Sys2Proof.Machine

/-! ### Frames on the bus (00_scope.md R19, R20) -/

/-- Even parity of a byte: `d0 ^ d1 ^ … ^ d7` (00_scope.md R20). -/
def evenParity (b : Byte) : Bool := (List.range 8).foldl (fun p i => p ^^ b.getLsbD i) false

/-- The 11 bits of a frame in wire order: start, `d0` to `d7`, parity, stop (00_scope.md R20). -/
def frameBits (b : Byte) (par stop : Bool) : List Bool :=
  false :: ((List.range 8).map fun i => b.getLsbD i) ++ [par, stop]

/-- The logical level changes of frame bits from `t`: each 0 bit `k` falls at `t + k·T` and rises `S` ticks later
(00_scope.md R19, 30_encoding.md R164). -/
def frameLevels (T S : Nat) : Tick → List Bool → List (Tick × Bool)
  | _, [] => []
  | t, bit :: rest => (if bit then [] else [(t, false), (t + S, true)]) ++ frameLevels T S (t + T) rest

/-! ### Program lines (30_encoding.md R164) -/

/-- A line of a program: a timed command, a level directive, a frame, or the wired-AND bus. -/
inductive Line where
  | command (t : Tick) (i : Instr)
  | level (t : Tick) (logical : Bool)
  | frame (t : Tick) (b : Byte) (par : Option Bool) (stop : Bool)
  | loopback
  deriving DecidableEq, Repr

/-- The logical level changes a line stands for, given the bit and semibit ticks of the bus. -/
def Line.levels (T S : Nat) : Line → List (Tick × Bool)
  | .command _ _ => []
  | .level t b => [(t, b)]
  | .frame t b par stop => frameLevels T S t (frameBits b (par.getD (evenParity b)) stop)
  | .loopback => []

/-- The port words a line stands for, each there from the line's instant on. -/
def Line.words : Line → List PortWord
  | .command t i => (Sys2Proof.encode i).map fun w => ⟨t, w⟩
  | .level _ _ => []
  | .frame _ _ _ _ => []
  | .loopback => []

/-- A change put in its place by instant, after the changes at the same instant (log entry 28). -/
def insertChange (c : PinChange) : List PinChange → List PinChange
  | [] => [c]
  | d :: ds => if c.tick < d.tick then c :: d :: ds else d :: insertChange c ds

/-- The inputs of a program, given to a state whose bus has bit and semibit ticks `T` and `S` and polarity `pol`
(10_state.md R62, 70_reset_and_hazards.md R580): the raw level is the logical level XOR the polarity (00_scope.md R17). -/
def State.load (s : State) (T S : Nat) (pol : Bool) (lines : List Line) : State :=
  { s with
    port := s.port ++ lines.flatMap Line.words
    bus := { s.bus with
      loopback := s.bus.loopback || lines.contains .loopback
      other := !pol
      changes := (lines.flatMap (Line.levels T S)).foldl (fun cs c => insertChange ⟨c.1, c.2 ^^ pol⟩ cs) s.bus.changes } }

/-! ### Text -/

/-- A lower-case letter, or the character itself. -/
def lowerChar (c : Char) : Char := if 'A' ≤ c ∧ c ≤ 'Z' then Char.ofNat (c.toNat + 32) else c

/-- A blank or a comma: the separators of a line (30_encoding.md R162, log entry 27). -/
def isSeparator (c : Char) : Bool := c = ' ' || c = ',' || c = Char.ofNat 9

/-- The tokens of a line up to its comment, in lower case; `w` is the token being read, reversed. -/
def tokens (w : List Char) : List Char → List (List Char)
  | [] => if w.isEmpty then [] else [w.reverse]
  | c :: cs =>
    if c = ';' then (if w.isEmpty then [] else [w.reverse])
    else if isSeparator c then (if w.isEmpty then tokens [] cs else w.reverse :: tokens [] cs)
    else tokens (lowerChar c :: w) cs

/-- The value of a digit in base `base`. -/
def digit (base : Nat) (c : Char) : Option Nat :=
  let v := if '0' ≤ c ∧ c ≤ '9' then c.toNat - 48 else if 'a' ≤ c ∧ c ≤ 'f' then c.toNat - 87 else 99
  if v < base then some v else none

/-- A digit string in base `base`. -/
def digits (base : Nat) : Nat → List Char → Option Nat
  | acc, [] => some acc
  | acc, c :: cs => match digit base c with | some v => digits base (acc * base + v) cs | none => none

/-- A number, decimal or `0x` hex (30_encoding.md R162). -/
def number : List Char → Option Nat
  | [] => none
  | '0' :: 'x' :: c :: cs => digits 16 0 (c :: cs)
  | c :: cs => digits 10 0 (c :: cs)

/-- A number as an operand of `n` bits; a number that does not fit has no encoding. -/
def operand (n v : Nat) : Option (BitVec n) := if v < 2 ^ n then some (BitVec.ofNat n v) else none

/-- A number as a flag. -/
def flag (v : Nat) : Option Bool := if v = 0 then some false else if v = 1 then some true else none

/-- A command from its mnemonic and its operands (30_encoding.md R162). -/
def parseCommand (name : String) (args : List Nat) : Option Instr :=
  match name, args with
  | "begin", [b] => (operand 23 b).map (.beginCmd false)
  | "begin", [b, p] => do return .beginCmd (← flag p) (← operand 23 b)
  | "end", [] => some .endCmd
  | "available", [] => some .available
  | "read", [] => some .read
  | "read_error", [] => some .readError
  | "read_delta", [] => some .readDelta
  | "packetavailable", [] => some .packetAvailable
  | "flushinput", [] => some .flushInput
  | "write", [b] => (operand 8 b).map .write
  | "writeready", [] => some .writeReady
  | "flushoutput", [] => some .flushOutput
  | "setdelay", [v] => (operand 16 v).map .setDelay
  | "setdelaytimeout", [v] => (operand 16 v).map .setDelayTimeout
  | "setecho", [v] => (flag v).map .setEcho
  | "setallow", [v] => (operand 8 v).map .setAllow
  | "seterrormask", [v] => (operand 8 v).map .setErrorMask
  | "uptime_sec", [] => some .uptimeSec
  | "uptime_millisec", [] => some .uptimeMillisec
  | "readpacket", [m, g, f] => do return .readPacket (← operand 8 g) (← operand 8 f) (← operand 8 m)
  | "writepacket", d :: g :: f :: bs => do
    let payload ← bs.mapM (operand 8)
    if payload.length < 256 then return .writePacket (← operand 8 g) (← operand 8 f) (← operand 16 d) payload else none
  | _, _ => none

/-- A command or the expansion of a pseudo-instruction (30_encoding.md R162, R163). -/
def parseCommands (name : String) (args : List Nat) : Option (List Instr) :=
  match name, args with
  | "getslot", [] => some (Pseudo.expand .getslot)
  | "send", d :: bs => do return Pseudo.expand (.send (← operand 16 d) (← bs.mapM (operand 8)))
  | "drain", [] => some (Pseudo.expand .drain)
  | "discard", [] => some (Pseudo.expand .discard)
  | _, _ => (parseCommand name args).map fun i => [i]

/-- The options `par=<p>` and `stop=<s>` of a frame line (30_encoding.md R164). -/
def frameOptions : List (List Char) → Option (Option Bool × Bool)
  | [] => some (none, true)
  | ('p' :: 'a' :: 'r' :: '=' :: v) :: rest => do
    let p ← (← number v) |> flag
    let o ← frameOptions rest
    return (some p, o.2)
  | ('s' :: 't' :: 'o' :: 'p' :: '=' :: v) :: rest => do
    let st ← (← number v) |> flag
    let o ← frameOptions rest
    return (o.1, st)
  | _ => none

/-- The lines one text line stands for (30_encoding.md R164). An empty line stands for none. -/
def parseTokens : List (List Char) → Option (List Line)
  | [] => some []
  | ('@' :: time) :: name :: args => do
    let t ← number time
    match String.ofList name with
    | "in" => match args with
      | [v] => do return [.level t (← (← number v) |> flag)]
      | _ => none
    | "frame" => match args with
      | b :: options => do
        let o ← frameOptions options
        return [.frame t (← (← number b) |> operand 8) o.1 o.2]
      | [] => none
    | n => do return (← parseCommands n (← args.mapM number)).map (.command t)
  | [b, l] => if String.ofList b = "bus" ∧ String.ofList l = "loopback" then some [.loopback] else none
  | _ => none

/-- The lines of a program text, one text line each (30_encoding.md R164). -/
def parseProgram (text : List String) : Option (List Line) := do
  return (← text.mapM fun l => parseTokens (tokens [] l.toList)).flatten

/-- The words of one command's text (30_encoding.md R162). -/
def assemble (text : String) : Option (List Word) :=
  match tokens [] text.toList with
  | name :: args => do
    let i ← parseCommand (String.ofList name) (← args.mapM number)
    return Sys2Proof.encode i
  | [] => none

end Sys2Proof.Machine
end

