-- ==== Sys2Proof/Safety.lean ====
section
/-! DEFINITION. What counts as a safe run: the invariants of the reachable states (10_state.md R63, 60_exceptions.md
R506), the reachable states, and the ends of a run (60_exceptions.md R513, 70_reset_and_hazards.md R580). -/

namespace Sys2Proof.Machine

/-- The invariants of 10_state.md R63 (item 5 with `MODE = ON`, log entry 16), with what makes them inductive: the arrays have
the capacity's length, `Out` rests at even boundaries, `tx_err` holds only the bits 10_state.md R50 allows, and the uptime
counters agree. -/
structure State.Inv (s : State) : Prop where
  cfgLegal : s.cfg.legal
  rxWf : s.rxRing.wf s.cfg.rxC
  txWf : s.txRing.wf s.cfg.txC
  txIdleEmpty : s.tx.state = .idle → s.txRing.head = s.txRing.tail
  rxBusy : s.rx.state ≠ .idle → s.irq.msIe = false ∧ s.irq.rxEn = true
  txBusy : ∀ j, s.tx.state = .semi j → s.irq.rxEn = false ∧ s.irq.msIe = false ∧ s.rx.state = .idle
  bothFree : s.mode = .on → (s.tx.state = .idle ∨ s.tx.state = .wait) → s.rx.state = .idle →
    s.irq.rxEn = true ∧ s.irq.msIe = true
  pendNoEop : s.pend.err &&& signalEop = 0
  outRest : (s.tx.state = .idle ∨ s.tx.state = .wait) → s.tx.out = true
  outEven : ∀ j, s.tx.state = .semi j → j.val % 2 = 0 → s.tx.out = true
  txErrBits : ∀ j, s.tx.state = .semi j → 1 ≤ j.val → s.tx.err &&& 0xDC = 0
  uptimeSub : s.seq.uptimeSub < 1000
  uptimeSum : s.seq.uptimeMs = s.seq.uptimeSec * 1000 + s.seq.uptimeSub.setWidth 32

/-- The timing registers are as BEGIN derives them from one `T` (40_calibrator_control.md R201 to R204). -/
def Timing.derived (tm : Timing) : Prop :=
  2 ≤ tm.T.toNat ∧ tm.S.toNat = tm.T.toNat / 2 ∧ tm.SUPP.toNat = tm.S.toNat + tm.T.toNat / 8 ∧
    tm.SCHED.toNat = tm.T.toNat + tm.S.toNat ∧ tm.TT = tm.T ∧ tm.TS = tm.S

/-- No event is due at an instant already past (60_exceptions.md R506): while `MODE = ON` the timing is as BEGIN derived it, the
armed targets and the next boundary are not before `now`, and a byte on the bus keeps its boundaries (42_tx_engine.md R314). -/
structure State.Timely (s : State) : Prop where
  derived : s.mode = .on → s.timing.derived
  rxTarget : s.rxArmed = true → s.now ≤ s.rx.target
  txTarget : s.txArmed = true → s.now ≤ s.tx.target
  txBoundary : ∀ j, s.mode = .on → s.tx.state = .semi j → 1 ≤ j.val → s.tx.target = s.boundary j.val
  nextMs : s.mode = .on → s.now ≤ s.seq.nextMs
  lastEdge : ∀ u, s.rx.lastEdge = some u → u ≤ s.now

/-- The states a run reaches from power-on with some parameters and some inputs, in any order of the steps due at one
instant. -/
inductive State.Reachable (p : Params) : State → Prop where
  | start (bus : Bus) (port : List PortWord) : Reachable p { State.powerOn p with bus := bus, port := port }
  | next (pick : Nat → Nat) (s t : State) : Reachable p s → stepWith pick s = .next t → Reachable p t

/-- The state is the one observed at `tEnd`: every step whose instant is at most `tEnd` has been taken, and no later one: nothing is
due, and the next instant at which something can be lies after `tEnd` (70_reset_and_hazards.md R580). Until then only time passes, so
every such state of one run has the same registers. -/
def State.atEnd (tEnd : Tick) (s : State) : Bool :=
  decide (s.now ≤ tEnd) && s.dueSteps.isEmpty && decide (tEnd < s.nextInstant)

/-- The states that can be observed at `tEnd` in a run from power-on with the parameters `p`, in any order of the steps due at one
instant (70_reset_and_hazards.md R580, 60_exceptions.md R505). -/
def State.Observed (p : Params) (tEnd : Tick) (s : State) : Prop := State.Reachable p s ∧ s.atEnd tEnd = true

/-- The state observed at `tEnd` in the run from `s` under the order `pick`, if it comes within `n` steps: none in a refused run, and none
when `s` lies after `tEnd` (70_reset_and_hazards.md R580, 60_exceptions.md R515). -/
def State.observe (pick : Nat → Nat) (tEnd : Tick) : Nat → State → Option State
  | 0, s => if s.atEnd tEnd then some s else none
  | n + 1, s =>
    if s.atEnd tEnd then some s
    else if s.now ≤ tEnd then
      match stepWith pick s with
      | .next t => t.observe pick tEnd n
      | .fault _ => none
      | .refused _ => none
    else none

/-- A run as 70_reset_and_hazards.md R580 gives it: from power-on with the parameters `p`, the program's lines and directives loaded (with the
bit and semibit ticks and the polarity of its bus), observed at `tEnd` under the order `pick`, within `n` steps. -/
def runProgram (p : Params) (T S : Nat) (pol : Bool) (lines : List Line) (pick : Nat → Nat) (tEnd : Tick) (n : Nat) : Option State :=
  State.observe pick tEnd n ((State.powerOn p).load T S pol lines)

/-- The run is complete at `tEnd`: in the state observed there, every command of the program has returned
(70_reset_and_hazards.md R580). -/
def State.complete (tEnd : Tick) (s : State) : Bool := s.atEnd tEnd && s.host == .ready && s.port.isEmpty

/-- The run is complete and the block at rest at `tEnd` (70_reset_and_hazards.md R580). -/
def State.quiescent (tEnd : Tick) (s : State) : Bool :=
  s.complete tEnd && s.tx.state == .idle && s.rx.state == .idle && !s.pend.valid && !s.irq.msPend

/-- The host agent holds: it is inside a command and has no step (60_exceptions.md R512). A hang is a hold that never
releases. -/
def State.holding (s : State) : Bool := s.host != .ready && !s.hostDue

/-- `n` steps of the host agent with no event between them, stopping where the host holds (60_exceptions.md R511, R512). -/
def State.hostRun : Nat → State → StepOutcome
  | 0, s => .next s
  | n + 1, s =>
    if s.hostDue then
      match s.hostStep with
      | .next t => t.hostRun n
      | .fault r => .fault r
      | .refused r => .refused r
    else .next s

/-- A command, then `n` further steps of the host agent with no event between them (45_packet_framer.md, opening). -/
def execThen (n : Nat) (i : Instr) (s : State) : StepOutcome :=
  match exec i s with
  | .next t => t.hostRun n
  | .fault r => .fault r
  | .refused r => .refused r

/-- A step that is no stop: the block has no fault, and a refusal is the spec's own (60_exceptions.md R513, R515). -/
def goesOn (o : StepOutcome) : Prop := ∃ t, o = .next t

end Sys2Proof.Machine
end

