-- ==== Sys2Proof/Certificates/Slice0/Obligations.lean ====
section
/-! DEFINITION. The statements for the provers. Each docstring names the rule it formalises. Log entries are named where a clause
rests on a choice of the model. -/

open Sys2Proof Sys2Proof.Machine

/-! ## Decoding and encoding -/

/-- 30_encoding.md R150 to R158, R160: the encoder and the decoder agree, for every well-formed command, whatever words follow. -/
def Obligations.DecodeOfEncodeIsTheCommand : Prop :=
  ∀ (i : Instr) (rest : List Word), i.wellFormed = true →
    decode (encode i ++ rest) = .got (.command i) (encode i).length

/-- 30_encoding.md R157, R160: every word has one meaning, so a command is decoded from its own encoding only. -/
def Obligations.EncodeOfDecodeIsTheWords : Prop :=
  ∀ (ws : List Word) (i : Instr) (n : Nat), decode ws = .got (.command i) n →
    i.wellFormed = true ∧ n ≤ ws.length ∧ encode i = ws.take n

/-- Words of 30_encoding.md R162 and 95_test_vectors.md section 8, written out, decode to the commands they stand for. -/
def Obligations.ListedWordsDecodeAsListed : Prop :=
  decode [0x01002580] = .got (.command (.beginCmd false 9600)) 1 ∧
  decode [0x01802580] = .got (.command (.beginCmd true 9600)) 1 ∧
  decode [0x30000014] = .got (.command (.setDelay 20)) 1 ∧
  decode [0x2000005A] = .got (.command (.write 0x5A)) 1 ∧
  decode [0x3400007F] = .got (.command (.setErrorMask 0x7F)) 1 ∧
  decode [0x50D90008] = .got (.command (.readPacket 0xD9 0 8)) 1 ∧
  decode [0x51D90002, 0x00000000, 0x00000040] = .got (.command (.writePacket 0xD9 0 0 [0x40, 0x00])) 3 ∧
  decode [0x51D95505, 0x00000014, 0x04030201, 0x00000005] =
    .got (.command (.writePacket 0xD9 0x55 20 [1, 2, 3, 4, 5])) 4

/-- 30_encoding.md R157: a set reserved bit makes a command illegal; the result is `(ILLEGAL, 0)` and nothing but the port changes.
The table lists each opcode of format C that has reserved bits, with them; the second part is WRITEPACKET's. That an illegal WRITEPACKET takes
all the words R151 counts from the port is the model's choice (log entry 9: R157 says nothing of it). -/
def Obligations.ReservedBitsAreIllegal : Prop :=
  ∀ s : State, s.host = .ready →
    (∀ row ∈ ([(0x02, 0x00FFFFFF), (0x10, 0x00FFFFFF), (0x11, 0x00FFFFFF), (0x12, 0x00FFFFFF), (0x13, 0x00FFFFFF),
        (0x14, 0x00FFFFFF), (0x15, 0x00FFFFFF), (0x20, 0x00FFFF00), (0x21, 0x00FFFFFF), (0x22, 0x00FFFFFF),
        (0x30, 0x00FF0000), (0x31, 0x00FF0000), (0x32, 0x00FFFFFE), (0x33, 0x00FFFF00), (0x34, 0x00FFFF00),
        (0x40, 0x00FFFFFF), (0x41, 0x00FFFFFF)] : List (Byte × Word)),
      ∀ (w : Word) (rest : List Word), s.arrived = w :: rest → opcOf w = row.1 → w &&& row.2 ≠ 0 →
        s.hostStep = .next { s with port := s.port.drop 1, results := ⟨.illegal, 0, none⟩ :: s.results }) ∧
    (∀ (w0 w1 : Word) (pay rest : List Word), s.arrived = w0 :: w1 :: (pay ++ rest) → opcOf w0 = 0x51 →
      pay.length = ((field w0 0 8).toNat + 3) / 4 →
      (field w1 16 16 ≠ 0 ∨
        ∃ k, (field w0 0 8).toNat ≤ k ∧ k < 4 * pay.length ∧ field (pay.getD (k / 4) 0) (8 * (k % 4)) 8 ≠ 0) →
      s.hostStep =
        .next { s with port := s.port.drop (2 + pay.length), results := ⟨.illegal, 0, none⟩ :: s.results })

/-- 30_encoding.md R159: an unassigned opcode returns `(ILLEGAL, 0)` and changes no state; its one word leaves the port. -/
def Obligations.UnassignedOpcodesAreIllegal : Prop :=
  ∀ (s : State) (w : Word) (rest : List Word), s.host = .ready → s.arrived = w :: rest →
    opcOf w ∉ ([0x01, 0x02, 0x10, 0x11, 0x12, 0x13, 0x14, 0x15, 0x20, 0x21, 0x22, 0x30, 0x31, 0x32, 0x33, 0x34, 0x40, 0x41,
      0x50, 0x51, 0x60, 0x61] : List Byte) →
    s.hostStep = .next { s with port := s.port.drop 1, results := ⟨.illegal, 0, none⟩ :: s.results }

/-- 30_encoding.md R158: payload byte `i` of an encoded WRITEPACKET is the byte `i mod 4` of word `2 + i div 4`, and the bytes of the
last word past `LEN` are 0. -/
def Obligations.PayloadIsPackedLittleEndian : Prop :=
  ∀ (gen feed : Byte) (delay : Half) (payload : List Byte) (i : Nat), i < 4 * ((payload.length + 3) / 4) →
    ∃ w, (encode (.writePacket gen feed delay payload))[2 + i / 4]? = some w ∧
      field w (8 * (i % 4)) 8 = payload.getD i 0

/-! ## The step -/

/-- 60_exceptions.md R511: when the host is ready, the words at the port begin a well-formed command and no event is due, the step is the
command's meaning, at the state whose port has lost the command's words. -/
def Obligations.StepRunsTheDecodedCommand : Prop :=
  ∀ (s : State) (i : Instr) (rest : List Word), s.host = .ready → i.wellFormed = true → s.arrived = encode i ++ rest →
    s.pinDue = false → s.rxCmpDue = false → s.txCmpDue = false → s.msbDue = false → s.msPendDue = false →
    step s = exec i { s with port := s.port.drop (encode i).length }

/-- 60_exceptions.md R505: time does not advance while a step is due. When none is, the step only moves time, to no later than the next
instant of the agenda, and no step is due at any instant it passes over (log entry 7: that it goes straight there). -/
def Obligations.TimePassesOnlyWhenNothingIsDue : Prop :=
  ∀ s t : State, step s = .next t →
    (s.dueSteps ≠ [] → t.now = s.now) ∧
    (s.dueSteps = [] → s.now < t.now ∧ (∀ a ∈ s.agenda, s.now < a → t.now ≤ a) ∧
      (∀ n, s.now < n → n < t.now → State.dueSteps { s with now := n } = []) ∧
      t = { s with now := t.now, bus := { s.bus with before := s.lineLevel } })

/-- 60_exceptions.md R505: steps due at one instant are taken one at a time, in any order. Every choice takes a due step, every due step is
taken under some choice, and the machine's own choice is one of them (log entry 5: it is a free value). 30_encoding.md R161, 60_exceptions.md
R503: the trigger of each event, and the handler its step calls, at `now`. A level change is due from its instant on (log entry 26), and a
ready host when its next command is at the port. What `takeEvent` does for a level change is said by EdgesAreDiscardedWhileDisabled, for `MSB`
by BoundaryIsLatchedWhileDisabled and ServiceCountsAMillisecond, and for `MSPEND` by ServiceCountsAMillisecond. -/
def Obligations.DueStepsAreTakenInAnyOrder : Prop :=
  (∀ (pick : Nat → Nat) (s : State), s.dueSteps ≠ [] →
    ∃ d ∈ s.dueSteps, ∃ k, stepWith pick s = State.takeDue { s with free := k } d) ∧
  (∀ (s : State) (d : Due), d ∈ s.dueSteps →
    ∃ (pick : Nat → Nat) (k : Nat), stepWith pick s = State.takeDue { s with free := k } d) ∧
  (∀ s : State, ∃ pick : Nat → Nat, step s = stepWith pick s) ∧
  (∀ s : State,
    (Due.pin ∈ s.dueSteps ↔ ∃ c rest, s.bus.changes = c :: rest ∧ c.tick ≤ s.now) ∧
    (Due.rxCmp ∈ s.dueSteps ↔
      s.mode = .on ∧ s.irq.rxEn = true ∧ (s.rx.state ≠ .idle ∨ s.pend.valid = true) ∧ s.now = s.rx.target) ∧
    (Due.txCmp ∈ s.dueSteps ↔ s.mode = .on ∧ (∃ j, s.tx.state = .semi j) ∧ s.now = s.tx.target) ∧
    (Due.msb ∈ s.dueSteps ↔ s.mode = .on ∧ s.now = s.seq.nextMs) ∧
    (Due.msPend ∈ s.dueSteps ↔ s.mode = .on ∧ s.irq.msIe = true ∧ s.irq.msPend = true) ∧
    (s.host = .ready → (Due.host ∈ s.dueSteps ↔ ∃ d n, s.fetch = .got d n)) ∧
    s.takeDue .rxCmp = .next (s.rxCmp s.now) ∧ s.takeDue .txCmp = .next (s.txCmp s.now) ∧
    s.takeDue .pin = .next (s.takeEvent .pin) ∧ s.takeDue .msb = .next (s.takeEvent .msb) ∧
    s.takeDue .msPend = .next (s.takeEvent .msPend) ∧ s.takeDue .host = s.hostStep)

/-- 60_exceptions.md R513, R515: a run is refused only by SETSCOPE, by ADC_RESULTS, and by BEGIN while `MODE = ON`, each under its own
name. -/
def Obligations.OnlyTheRefusedCommandsRefuse : Prop :=
  ∀ (s : State) (r : Refusal), step s = .refused r →
    s.host = .ready ∧ ∃ (i : Instr) (n : Nat), s.fetch = .got (.command i) n ∧
      ((∃ x, i = .setScope x ∧ r = .scopeBuffer) ∨ (∃ x, i = .adcResults x ∧ r = .adcResults) ∨
        (∃ pol baud, i = .beginCmd pol baud ∧ s.mode = .on ∧ r = .secondBegin))

/-- 20_memory.md R103 and 44_ring_ops.md R398: no handler moves `rx_tail`, and no handler touches the host's side, the configuration, the
mode, the timing or the time (60_exceptions.md R507, R508). -/
def Obligations.HandlersLeaveTheHostSideAlone : Prop :=
  ∀ (s : State) (d : Due),
    (s.takeEvent d).rxRing.tail = s.rxRing.tail ∧ (s.takeEvent d).txRing.head = s.txRing.head ∧
    (s.takeEvent d).host = s.host ∧ (s.takeEvent d).port = s.port ∧ (s.takeEvent d).results = s.results ∧
    (s.takeEvent d).conf = s.conf ∧ (s.takeEvent d).cfg = s.cfg ∧ (s.takeEvent d).mode = s.mode ∧
    (s.takeEvent d).timing = s.timing ∧ (s.takeEvent d).pol = s.pol ∧ (s.takeEvent d).now = s.now ∧
    (s.takeEvent d).free = s.free

/-- 60_exceptions.md R507: `MODE` is entered only by BEGIN and left only by END. -/
def Obligations.ModeChangesOnlyByBeginAndEnd : Prop :=
  ∀ s t : State, step s = .next t → t.mode ≠ s.mode →
    s.host = .ready ∧ ∃ (i : Instr) (n : Nat), s.fetch = .got (.command i) n ∧
      ((s.mode = .off ∧ t.mode = .on ∧ ∃ pol baud, i = .beginCmd pol baud) ∨
        (s.mode = .on ∧ t.mode = .off ∧ i = .endCmd))

/-- 10_state.md R43 to R45, columns "written by": the timing registers and the polarity change only by a BEGIN, from `MODE = OFF`; `ECHO`,
`ALLOW`, `ERRMASK` and `DLY_TO` only by their setters; `DELAY` only by SETDELAY, by WRITE and by WRITEPACKET, which writes its operand and
then, by its WRITEs, 0; the parameters never (log entry 1). -/
def Obligations.ConfigurationChangesOnlyByItsWriters : Prop :=
  ∀ s t : State, step s = .next t → t.cfg = s.cfg ∧
    ((t.timing ≠ s.timing ∨ t.pol ≠ s.pol) →
      s.mode = .off ∧ s.host = .ready ∧ ∃ pol baud n, s.fetch = .got (.command (.beginCmd pol baud)) n) ∧
    (t.conf.echo ≠ s.conf.echo → s.host = .ready ∧ ∃ n, s.fetch = .got (.command (.setEcho t.conf.echo)) n) ∧
    (t.conf.allow ≠ s.conf.allow → s.host = .ready ∧ ∃ n, s.fetch = .got (.command (.setAllow t.conf.allow)) n) ∧
    (t.conf.errMask ≠ s.conf.errMask → s.host = .ready ∧ ∃ n, s.fetch = .got (.command (.setErrorMask t.conf.errMask)) n) ∧
    (t.conf.dlyTo ≠ s.conf.dlyTo → s.host = .ready ∧ ∃ n, s.fetch = .got (.command (.setDelayTimeout t.conf.dlyTo)) n) ∧
    (t.conf.delay ≠ s.conf.delay →
      (s.host = .ready ∧ ∃ (i : Instr) (n : Nat), s.fetch = .got (.command i) n ∧
        (i = .setDelay t.conf.delay ∨ (∃ b, i = .write b ∧ t.conf.delay = 0) ∨
          ∃ gen feed payload, i = .writePacket gen feed t.conf.delay payload)) ∨
      (((∃ b, s.host = .write b) ∨ ∃ w, s.host = .writePacket w) ∧ t.conf.delay = 0))

/-! ## Invariants and reset -/

/-- 10_state.md R65: the values the spec states at power-on. -/
def Obligations.PowerOnState : Prop :=
  ∀ p : Params,
    (State.powerOn p).mode = .off ∧
    (State.powerOn p).conf = { echo := true, allow := 0, errMask := 0xFF, delay := 0, dlyTo := 2500 } ∧
    (State.powerOn p).irq = { rxEn := false, msIe := false, msPend := false } ∧
    (State.powerOn p).rx.state = .idle ∧ (State.powerOn p).tx.state = .idle ∧
    (State.powerOn p).pend.valid = false ∧ (State.powerOn p).tx.out = true

/-- The invariant of 10_state.md R63 holds at power-on with legal parameters, and at the reset state (log entries 1 and 2 name the
values that R65 leaves unspecified). -/
def Obligations.InvariantHoldsAtPowerOn : Prop :=
  (∀ p : Params, p.legal → (State.powerOn p).Inv ∧ (State.powerOn p).Timely) ∧ State.reset.Inv ∧ State.reset.Timely

/-- 10_state.md R63: every step, in any order of the due steps, keeps the invariant. -/
def Obligations.EveryStepKeepsTheInvariant : Prop :=
  ∀ (pick : Nat → Nat) (s t : State), s.Inv → stepWith pick s = .next t → t.Inv

/-- 60_exceptions.md R506: every step, in any order of the due steps, keeps every armed target and the next boundary at or after `now`, so
no event is ever due at an instant already past. -/
def Obligations.NoEventIsEverLate : Prop :=
  ∀ (pick : Nat → Nat) (s t : State), s.Inv → s.Timely → stepWith pick s = .next t → t.Timely

/-- 10_state.md R63, items 1 to 7 (item 5 while `MODE = ON`, log entry 16), in every state that a run with legal parameters reaches. -/
def Obligations.ReachableStatesSatisfyTheListedInvariants : Prop :=
  ∀ (p : Params) (s : State), p.legal → State.Reachable p s →
    (s.rxRing.head < p.rxN + 1 ∧ s.rxRing.tail < p.rxN + 1 ∧ s.txRing.head < p.txN + 1 ∧ s.txRing.tail < p.txN + 1) ∧
    (s.tx.state = .idle → s.txCount = 0) ∧
    (s.rx.state ≠ .idle → s.irq.msIe = false ∧ s.irq.rxEn = true) ∧
    (∀ j, s.tx.state = .semi j → s.irq.rxEn = false ∧ s.irq.msIe = false ∧ s.rx.state = .idle) ∧
    (s.mode = .on → (s.tx.state = .idle ∨ s.tx.state = .wait) → s.rx.state = .idle →
      s.irq.rxEn = true ∧ s.irq.msIe = true) ∧
    s.pend.err.getLsbD 7 = false ∧
    ((s.tx.state = .idle ∨ s.tx.state = .wait) → s.tx.out = true)

/-! ## BEGIN, END, the setters and the uptime reads -/

/-- 40_calibrator_control.md R201 to R205 and 10_state.md R66: a BEGIN that can derive its timing sets every register R66 lists, keeps the
configuration registers and returns `(OK, 0)`. -/
def Obligations.BeginStartsTheBlock : Prop :=
  ∀ (s : State) (pol : Bool) (baud : BitVec 23) (T S : Nat), s.mode = .off → baud.toNat ≠ 0 →
    T = (s.cfg.fClk + baud.toNat / 2) / baud.toNat → S = T / 2 → 2 ≤ T → T + S ≤ 65535 →
    ∃ t, exec (.beginCmd pol baud) s = .next t ∧
      t.mode = .on ∧ t.pol = pol ∧
      t.timing.T.toNat = T ∧ t.timing.S.toNat = S ∧ t.timing.SUPP.toNat = S + (T >>> 3) ∧
      t.timing.SCHED.toNat = T + S ∧ t.timing.TT.toNat = T ∧ t.timing.TS.toNat = S ∧
      t.irq = { rxEn := true, msIe := true, msPend := false } ∧
      t.rx.state = .idle ∧ t.rx.lastEdge = none ∧ t.pend.valid = false ∧ t.tx.state = .idle ∧ t.tx.out = true ∧
      t.rxRing.head = 0 ∧ t.rxRing.tail = 0 ∧ t.txRing.head = 0 ∧ t.txRing.tail = 0 ∧
      t.rxRing.slots.length = s.cfg.rxN + 1 ∧ t.txRing.slots.length = s.cfg.txN + 1 ∧
      t.seq = { msSinceStart := 0, uptimeMs := 0, uptimeSub := 0, uptimeSec := 0, nextMs := s.now + s.cfg.msPhase } ∧
      t.conf = s.conf ∧ t.cfg = s.cfg ∧ t.now = s.now ∧ t.bus = s.bus ∧ t.port = s.port ∧ t.host = .ready ∧
      t.results = ⟨.ok, 0, none⟩ :: s.results

/-- 40_calibrator_control.md R204: BEGIN fails with `(FAIL, 0)` and no state change when `baud = 0`, `T < 2` or `T + S > 65535`. -/
def Obligations.BeginFailsWithoutALegalTiming : Prop :=
  ∀ (s : State) (pol : Bool) (baud : BitVec 23) (T : Nat), s.mode = .off →
    T = (s.cfg.fClk + baud.toNat / 2) / baud.toNat → (baud.toNat = 0 ∨ T < 2 ∨ 65535 < T + T / 2) →
    exec (.beginCmd pol baud) s = .next { s with host := .ready, results := ⟨.fail, 0, none⟩ :: s.results }

/-- 40_calibrator_control.md R206 and 30_encoding.md R172: a BEGIN while `MODE = ON`, and SETSCOPE and ADC_RESULTS with any operand in any
mode, are refused. -/
def Obligations.RefusedCommandsAreRefused : Prop :=
  (∀ (s : State) (pol : Bool) (baud : BitVec 23), s.mode = .on → exec (.beginCmd pol baud) s = .refused .secondBegin) ∧
  (∀ (s : State) (x : BitVec 24), exec (.setScope x) s = .refused .scopeBuffer) ∧
  (∀ (s : State) (x : BitVec 24), exec (.adcResults x) s = .refused .adcResults)

/-- 40_calibrator_control.md R207: END, and all it leaves unchanged (log entry 24). 70_reset_and_hazards.md R553: after it no event is due at
any instant, and no edge is captured. -/
def Obligations.EndTearsDownTheBlock : Prop :=
  ∀ s : State, s.mode = .on → ∃ t,
    exec .endCmd s = .next t ∧
    t = { s with
      mode := .off
      irq := { rxEn := false, msIe := false, msPend := false }
      txRing := { s.txRing with tail := s.txRing.head }
      tx := { s.tx with state := .idle, out := true }
      rx := { s.rx with state := .idle }
      pend := { s.pend with valid := false }
      host := .ready
      results := ⟨.ok, 0, none⟩ :: s.results } ∧
    ∀ now : Tick,
      State.rxCmpDue { t with now := now } = false ∧ State.txCmpDue { t with now := now } = false ∧
      State.msbDue { t with now := now } = false ∧ State.msPendDue { t with now := now } = false ∧
      State.edge { t with now := now } now = { t with now := now }

/-- 40_calibrator_control.md R209 to R214: each setter is performed in either mode and writes only its own register. -/
def Obligations.SettersWriteTheirRegister : Prop :=
  ∀ (s : State) (ms : Half) (v : Byte) (en : Bool),
    exec (.setDelay ms) s = .next { s with
      conf := { s.conf with delay := ms }, host := .ready, results := ⟨.ok, 0, none⟩ :: s.results } ∧
    exec (.setDelayTimeout ms) s = .next { s with
      conf := { s.conf with dlyTo := ms }, host := .ready, results := ⟨.ok, 0, none⟩ :: s.results } ∧
    exec (.setEcho en) s = .next { s with
      conf := { s.conf with echo := en }, host := .ready, results := ⟨.ok, 0, none⟩ :: s.results } ∧
    exec (.setAllow v) s = .next { s with
      conf := { s.conf with allow := v }, host := .ready, results := ⟨.ok, 0, none⟩ :: s.results } ∧
    exec (.setErrorMask v) s = .next { s with
      conf := { s.conf with errMask := v }, host := .ready, results := ⟨.ok, 0, none⟩ :: s.results }

/-- 30_encoding.md R154: while `MODE = OFF` every command but BEGIN, the five setters and the refused codes returns `(NOT_BEGUN, 0)` and
changes no state. -/
def Obligations.CommandsNeedTheModeOn : Prop :=
  ∀ (s : State) (i : Instr), s.mode = .off →
    (∀ pol baud, i ≠ .beginCmd pol baud) → (∀ ms, i ≠ .setDelay ms) → (∀ ms, i ≠ .setDelayTimeout ms) →
    (∀ en, i ≠ .setEcho en) → (∀ v, i ≠ .setAllow v) → (∀ v, i ≠ .setErrorMask v) →
    (∀ x, i ≠ .setScope x) → (∀ x, i ≠ .adcResults x) →
    exec i s = .next { s with host := .ready, results := ⟨.notBegun, 0, none⟩ :: s.results }

/-! ## The rings -/

/-- 20_memory.md R110, R112: a commit on a ring that is not full adds the slot after the unread ones; on a full ring the new byte is
dropped and the newest unread slot, no other, gets `0x08`. -/
def Obligations.RxCommitAddsOrFlagsTheNewestSlot : Prop :=
  ∀ (s : State) (x : RxSlot), 1 ≤ s.cfg.rxN → s.rxRing.wf (s.cfg.rxN + 1) →
    (s.rxUnread.length < s.cfg.rxN → (s.rxCommit x).rxUnread = s.rxUnread ++ [x]) ∧
    (∀ older newest, s.rxUnread.length = s.cfg.rxN → s.rxUnread = older ++ [newest] →
      (s.rxCommit x).rxUnread = older ++ [{ newest with err := newest.err ||| 0x08 }]) ∧
    s.rxUnread.length ≤ s.cfg.rxN ∧ (s.rxCommit x).rxRing.wf (s.cfg.rxN + 1)

/-- 20_memory.md R113 to R116: the TX ring is a queue that never drops: an enqueue on a ring that is not full adds a slot at the end,
a dequeue on a ring that is not empty takes the oldest. -/
def Obligations.TxRingIsAQueue : Prop :=
  ∀ (s : State) (x : TxSlot), 1 ≤ s.cfg.txN → s.txRing.wf (s.cfg.txN + 1) →
    (s.txFull = false → (s.txEnqueue x).txQueued = s.txQueued ++ [x]) ∧
    (s.txRing.isEmpty = false → s.txQueued = s.txFront :: s.txDequeue.txQueued) ∧
    (s.txFull = true ↔ s.txQueued.length = s.cfg.txN) ∧ (s.txRing.isEmpty = true ↔ s.txQueued = [])

/-- 44_ring_ops.md R390, 20_memory.md R111, 40_calibrator_control.md R215, R216: AVAILABLE returns the unread count and the uptime reads their
counter; they change nothing. (Log entry 29: for a count of 2^32 or more, of which the spec states no value, AVAILABLE completes with a free
value.) -/
def Obligations.CountersAreReadWithoutEffect : Prop :=
  ∀ s : State, s.mode = .on →
    exec .uptimeSec s = .next { s with
      host := .ready, results := ⟨.ok, s.seq.uptimeSec, none⟩ :: s.results } ∧
    exec .uptimeMillisec s = .next { s with
      host := .ready, results := ⟨.ok, s.seq.uptimeMs, none⟩ :: s.results } ∧
    ∃ v : Word, exec .available s = .next { s with host := .ready, results := ⟨.ok, v, none⟩ :: s.results } ∧
      ((s.rxRing.head + (s.cfg.rxN + 1) - s.rxRing.tail) % (s.cfg.rxN + 1) < 2 ^ 32 →
        v.toNat = (s.rxRing.head + (s.cfg.rxN + 1) - s.rxRing.tail) % (s.cfg.rxN + 1))

/-- 44_ring_ops.md R391, R393, R394: on a ring that is not empty READ returns the head-of-line byte and consumes its slot, READ_ERROR
returns the masked error byte and READ_DELTA the delta, and these two consume nothing. -/
def Obligations.ReadsReturnTheHeadOfLineSlot : Prop :=
  ∀ (s : State) (x : RxSlot), s.mode = .on → s.rxRing.head ≠ s.rxRing.tail →
    s.rxRing.slots[s.rxRing.tail]? = some x →
    exec .read s = .next { s with
      rxRing := { s.rxRing with tail := (s.rxRing.tail + 1) % (s.cfg.rxN + 1) }
      host := .ready
      results := ⟨.ok, x.byte.setWidth 32, none⟩ :: s.results } ∧
    exec .readError s = .next { s with
      host := .ready, results := ⟨.ok, (x.err &&& s.conf.errMask).setWidth 32, none⟩ :: s.results } ∧
    exec .readDelta s = .next { s with
      host := .ready, results := ⟨.ok, x.delta.setWidth 32, none⟩ :: s.results }

/-- 44_ring_ops.md R392: the three reads of an empty ring return `(EMPTY, 0xFFFF)` and change no state. -/
def Obligations.ReadsOfAnEmptyRing : Prop :=
  ∀ (s : State) (i : Instr), s.mode = .on → s.rxRing.head = s.rxRing.tail →
    (i = .read ∨ i = .readError ∨ i = .readDelta) →
    exec i s = .next { s with host := .ready, results := ⟨.empty, 0xFFFF, none⟩ :: s.results }

/-- 44_ring_ops.md R395: PACKETAVAILABLE returns 1 exactly when an unread slot has the raw `SIGNAL_EOP` bit, else 0, and changes nothing. -/
def Obligations.PacketAvailableScansForEop : Prop :=
  ∀ s : State, s.mode = .on →
    ∃ v : Word, exec .packetAvailable s = .next { s with host := .ready, results := ⟨.ok, v, none⟩ :: s.results } ∧
      (v = 0 ∨ v = 1) ∧
      (v = 1 ↔ ∃ k, k < (s.rxRing.head + (s.cfg.rxN + 1) - s.rxRing.tail) % (s.cfg.rxN + 1) ∧
        (s.rxRing.slots.getD ((s.rxRing.tail + k) % (s.cfg.rxN + 1)) ⟨0, 0, 0⟩).err.getLsbD 7 = true)

/-- 44_ring_ops.md R396, 20_memory.md R117: FLUSHINPUT empties the RX ring by its index, changes no slot and leaves the staged byte. -/
def Obligations.FlushInputEmptiesTheRing : Prop :=
  ∀ s : State, s.mode = .on →
    exec .flushInput s = .next { s with
      rxRing := { s.rxRing with tail := s.rxRing.head }
      host := .ready
      results := ⟨.ok, 0, none⟩ :: s.results }

/-! ## WRITE, WRITEREADY, FLUSHOUTPUT -/

/-- 42_tx_engine.md R300: a WRITE in `IDLE` stages the byte with the delay `max(DELAY, 2)` and consumes `DELAY`. -/
def Obligations.WriteStagesAByteWhenIdle : Prop :=
  ∀ (s : State) (b : Byte), s.mode = .on → s.tx.state = .idle →
    exec (.write b) s = .next { s with
      tx := { s.tx with byte := b, effDelay := BitVec.ofNat 16 (max s.conf.delay.toNat 2), wait := 0, state := .wait }
      conf := { s.conf with delay := 0 }
      host := .ready
      results := ⟨.ok, 0, none⟩ :: s.results }

/-- 42_tx_engine.md R301, 20_memory.md R115: a WRITE while the engine is busy and the ring has room queues the byte with `DELAY` and
consumes `DELAY`. -/
def Obligations.WriteQueuesAByteWhenBusy : Prop :=
  ∀ (s : State) (b : Byte), s.mode = .on → s.tx.state ≠ .idle →
    (s.txRing.head + 1) % (s.cfg.txN + 1) ≠ s.txRing.tail →
    exec (.write b) s = .next { s with
      txRing := { s.txRing with
        slots := s.txRing.slots.set s.txRing.head ⟨b, s.conf.delay⟩
        head := (s.txRing.head + 1) % (s.cfg.txN + 1) }
      conf := { s.conf with delay := 0 }
      host := .ready
      results := ⟨.ok, 0, none⟩ :: s.results }

/-- 42_tx_engine.md R301, 60_exceptions.md R512: a WRITE while the engine is busy and the ring full holds; it has a step again exactly when
the engine is idle or the ring has room, and that step is the WRITE (log entry 10: taking the command is a step of its own). -/
def Obligations.WriteHoldsUntilThereIsRoom : Prop :=
  ∀ (s : State) (b : Byte), s.mode = .on → s.tx.state ≠ .idle →
    (s.txRing.head + 1) % (s.cfg.txN + 1) = s.txRing.tail →
    exec (.write b) s = .next { s with host := .write b } ∧
    (∀ u : State, u.host = .write b → u.mode = .on →
      (Due.host ∈ u.dueSteps ↔ u.tx.state = .idle ∨ (u.txRing.head + 1) % (u.cfg.txN + 1) ≠ u.txRing.tail) ∧
      u.hostStep = exec (.write b) u)

/-- 42_tx_engine.md R303: WRITEREADY returns 1 exactly when a WRITE issued now would not hold, else 0, and changes nothing. -/
def Obligations.WriteReadyTellsWhetherAWriteHolds : Prop :=
  ∀ (s : State) (b : Byte), s.mode = .on →
    ∃ v : Word, exec .writeReady s = .next { s with host := .ready, results := ⟨.ok, v, none⟩ :: s.results } ∧
      (v = 0 ∨ v = 1) ∧
      (v = 1 ↔ s.tx.state = .idle ∨ (s.txRing.head + 1) % (s.cfg.txN + 1) ≠ s.txRing.tail) ∧
      (v = 1 ↔ ∃ t, exec (.write b) s = .next t ∧ t.host = .ready)

/-- 42_tx_engine.md R304, 60_exceptions.md R512: FLUSHOUTPUT returns at once in `IDLE`, else it holds until `IDLE`; it discards nothing. That
taking a FLUSHOUTPUT which must hold is a step, which moves it into the host's progress, is the model's choice (log entry 10). -/
def Obligations.FlushOutputWaitsForIdle : Prop :=
  ∀ s : State, s.mode = .on →
    (s.tx.state = .idle →
      exec .flushOutput s = .next { s with host := .ready, results := ⟨.ok, 0, none⟩ :: s.results }) ∧
    (s.tx.state ≠ .idle → exec .flushOutput s = .next { s with host := .flushOutput }) ∧
    (s.host = .flushOutput → (Due.host ∈ s.dueSteps ↔ s.tx.state = .idle) ∧ s.hostStep = exec .flushOutput s)

/-! ## The RX engine -/

/-- 00_scope.md R17, R18, 10_state.md R45, 41_rx_engine.md R251: the level of the pin is the raw level XOR `POL`, with `bus loopback` the
wired-AND with `Out` (30_encoding.md R164). A change of the raw level raises an edge at `now` exactly when the level falls; a rising edge is
never captured. While `MODE = OFF` or `RX_EN = 0` the edge is discarded and not latched: a level change changes the bus inputs only. (Log
entry 28: several changes at one tick are taken one by one.) -/
def Obligations.EdgesAreDiscardedWhileDisabled : Prop :=
  (∀ s : State, s.lineLevel =
    if s.bus.loopback = true then s.tx.out && (s.bus.other ^^ s.pol) else s.bus.other ^^ s.pol) ∧
  (∀ (s u : State) (c : PinChange) (rest : List PinChange), s.bus.changes = c :: rest →
    u = { s with bus := { s.bus with other := c.raw, changes := rest } } →
    (s.lineLevel = true ∧ u.lineLevel = false → s.takeEvent .pin = u.edge s.now) ∧
    (s.lineLevel = false ∨ u.lineLevel = true → s.takeEvent .pin = u)) ∧
  (∀ (s : State), (s.mode = .off ∨ s.irq.rxEn = false) →
    (∀ t, s.edge t = s) ∧ s.takeEvent .pin = { s with bus := (s.takeEvent .pin).bus })

/-- 41_rx_engine.md R252, R253: an edge less than `SUPP` ticks after the last genuine edge changes no register; any other, and the first after
a BEGIN (`last_edge = NONE`), is genuine and moves `last_edge` to its instant. -/
def Obligations.EarlyEdgesAreSuppressed : Prop :=
  ∀ (s : State) (t : Nat), s.mode = .on → s.irq.rxEn = true →
    (s.rx.lastEdge = none → s.suppressed t = false ∧ (s.edge t).rx.lastEdge = some t) ∧
    (∀ u e : Nat, s.rx.lastEdge = some u →
      e = (match s.cfg.suppressDiff with | .exactTicks => t - u | .mod16 => (t - u) % 65536) →
      (e < s.timing.SUPP.toNat → s.edge t = s) ∧
      (s.timing.SUPP.toNat ≤ e → s.suppressed t = false ∧ (s.edge t).rx.lastEdge = some t))

/-- 41_rx_engine.md R255: a genuine edge in `IDLE` is a start bit: a staged byte is finalized without EOP, the millisecond timer is
disabled, the delta is taken and the first target armed. -/
def Obligations.StartBitBeginsAByte : Prop :=
  ∀ (s : State) (t : Tick), s.mode = .on → s.irq.rxEn = true → s.suppressed t = false → s.rx.state = .idle →
    s.edge t = { s with
      rxRing := if s.pend.valid then
          rxCommitRing (s.cfg.rxN + 1) ⟨s.pend.byte, s.pend.err, s.pend.delta⟩ s.rxRing
        else s.rxRing
      pend := { s.pend with valid := false }
      irq := { s.irq with msIe := false }
      seq := { s.seq with msSinceStart := 0 }
      rx := {
        state := .data 0
        target := t + s.timing.SCHED.toNat
        shift := 0
        par := false
        curDelta := s.seq.msSinceStart
        lastEdge := some t } }

/-- 41_rx_engine.md R256, R259: in a data or parity bit a genuine edge decides a 0 and a compare decides a 1; either moves the target by `T`
and the state to the next bit. A 1 flips the parity and, in data bit `i`, sets bit `i` of the byte. -/
def Obligations.EdgeDecidesZeroAndCompareDecidesOne : Prop :=
  ∀ (s : State) (t : Tick), s.mode = .on → s.irq.rxEn = true → s.suppressed t = false →
    (∀ i : Fin 8, s.rx.state = .data i →
      (s.edge t = { s with rx := { s.rx with
        lastEdge := some t
        target := s.rx.target + s.timing.T.toNat
        state := if h : i.val < 7 then .data ⟨i.val + 1, by omega⟩ else .parity } }) ∧
      (s.rxCmp t = { s with rx := { s.rx with
        shift := s.rx.shift ||| BitVec.ofNat 8 (2 ^ i.val)
        par := !s.rx.par
        target := s.rx.target + s.timing.T.toNat
        state := if h : i.val < 7 then .data ⟨i.val + 1, by omega⟩ else .parity } })) ∧
    (s.rx.state = .parity →
      (s.edge t = { s with rx := { s.rx with
        lastEdge := some t, target := s.rx.target + s.timing.T.toNat, state := .stop } }) ∧
      (s.rxCmp t = { s with rx := { s.rx with
        par := !s.rx.par, target := s.rx.target + s.timing.T.toNat, state := .stop } }))

/-- 41_rx_engine.md R258, R260, R262: the compare at the stop bit stages the byte with its parity flag, arms the EOP compare
`(1 + ALLOW)·T` ticks later and enables the millisecond timer; a byte already in the cell is committed first, without EOP. -/
def Obligations.StopBitStagesTheByte : Prop :=
  ∀ (s : State) (t : Tick), s.rx.state = .stop →
    s.rxCmp t = { s with
      rxRing := if s.pend.valid then
          rxCommitRing (s.cfg.rxN + 1) ⟨s.pend.byte, s.pend.err, s.pend.delta⟩ s.rxRing
        else s.rxRing
      pend := ⟨true, s.rx.shift, if s.rx.par then 0x04 else 0x00, s.rx.curDelta⟩
      irq := { s.irq with msIe := true }
      rx := { s.rx with state := .idle, target := t + (1 + s.conf.allow.toNat) * s.timing.T.toNat } }

/-- 41_rx_engine.md R257: a genuine edge in the stop slot finalizes the byte without EOP and begins a new byte at once. -/
def Obligations.StopSlotEdgeBeginsTheNextByte : Prop :=
  ∀ (s : State) (t : Tick), s.mode = .on → s.irq.rxEn = true → s.suppressed t = false → s.rx.state = .stop →
    (s.edge t).rxRing =
      rxCommitRing (s.cfg.rxN + 1) ⟨s.rx.shift, if s.rx.par then 0x04 else 0x00, s.rx.curDelta⟩
        (if s.pend.valid then
          rxCommitRing (s.cfg.rxN + 1) ⟨s.pend.byte, s.pend.err, s.pend.delta⟩ s.rxRing
        else s.rxRing) ∧
    (s.edge t).pend.valid = false ∧ (s.edge t).irq = { s.irq with msIe := false } ∧
    (s.edge t).rx = {
      state := .data 0
      target := t + s.timing.SCHED.toNat
      shift := 0
      par := false
      curDelta := s.seq.msSinceStart
      lastEdge := some t } ∧
    (s.edge t).seq = { s.seq with msSinceStart := 0 } ∧ (s.edge t).tx = s.tx ∧ (s.edge t).txRing = s.txRing

/-- 41_rx_engine.md R261, R263: silence until the EOP instant commits the staged byte with `SIGNAL_EOP`, and disarms the RX compare. -/
def Obligations.SilenceCommitsWithEop : Prop :=
  ∀ (s : State) (t : Tick), s.rx.state = .idle →
    s.rxCmp t = { s with
      rxRing := rxCommitRing (s.cfg.rxN + 1) ⟨s.pend.byte, s.pend.err ||| 0x80, s.pend.delta⟩ s.rxRing
      pend := { s.pend with valid := false } } ∧
    (s.rxCmp t).rxArmed = false

/-- One bit of a received frame on the RX engine: a 0 is an edge at `t`, a 1 is the compare at the armed target. -/
def Sys2Proof.Machine.State.receiveBit (s : State) (t : Tick) (bit : Bool) : State :=
  if bit then s.rxCmp s.rx.target else s.edge t

/-- The bits after the start bit of a frame whose start edge was at `t0`: bit `k` has its edge, if it is 0, at `t0 + k·T`. -/
def Sys2Proof.Machine.State.receiveBits (t0 : Tick) : Nat → List Bool → State → State
  | _, [], s => s
  | k, bit :: bits, s => receiveBits t0 (k + 1) bits (s.receiveBit (t0 + k * s.timing.T.toNat) bit)

/-- 41_rx_engine.md R265: a clean frame. From `IDLE`, for every byte, every parity bit and every legal timing: before bit `k` is decided the target
is `t0 + k·T + S`; the frame's byte is staged, with `0x04` iff its parity bit breaks even parity; the EOP target is
`t0 + 10·T + S + (1 + ALLOW)·T`. With `SUPPRESS_DIFF = MOD16` an edge a multiple of 2^16 ticks after the last one is suppressed (R253,
70_reset_and_hazards.md R567), so there the frame's nine bit times fit 16 bits. -/
def Obligations.CleanFrameStagesItsByte : Prop :=
  ∀ (s : State) (t0 : Tick) (b : Byte) (par : Bool), s.mode = .on → s.irq.rxEn = true → s.timing.derived →
    (s.cfg.suppressDiff = .exactTicks ∨ 9 * s.timing.T.toNat < 65536) → s.rx.state = .idle → s.suppressed t0 = false →
    (∀ k, 1 ≤ k → k ≤ 10 →
      (State.receiveBits t0 1 (((frameBits b par true).drop 1).take (k - 1)) (s.edge t0)).rx.target =
        t0 + k * s.timing.T.toNat + s.timing.S.toNat) ∧
    (State.receiveBits t0 1 ((frameBits b par true).drop 1) (s.edge t0)).rx.state = .idle ∧
    (State.receiveBits t0 1 ((frameBits b par true).drop 1) (s.edge t0)).pend =
      ⟨true, b, if par = evenParity b then 0x00 else 0x04, s.seq.msSinceStart⟩ ∧
    (State.receiveBits t0 1 ((frameBits b par true).drop 1) (s.edge t0)).rx.target =
      t0 + 10 * s.timing.T.toNat + s.timing.S.toNat + (1 + s.conf.allow.toNat) * s.timing.T.toNat ∧
    (State.receiveBits t0 1 ((frameBits b par true).drop 1) (s.edge t0)).irq.msIe = true

/-! ## The TX engine -/

/-- 42_tx_engine.md R310: promotion, called when a byte waits and its delay or its timeout has elapsed: the received packet ends with EOP, RX and
the millisecond timer are disabled, and the start bit is armed `TS` ticks later. -/
def Obligations.PromotionStartsATransmission : Prop :=
  ∀ (s : State) (t : Tick),
    s.promote t = { s with
      irq := { s.irq with rxEn := false, msIe := false }
      rxRing := if s.pend.valid then
          rxCommitRing (s.cfg.rxN + 1) ⟨s.pend.byte, s.pend.err ||| 0x80, s.pend.delta⟩ s.rxRing
        else s.rxRing
      pend := { s.pend with valid := false }
      seq := { s.seq with msSinceStart := 0 }
      tx := { s.tx with
        delta := s.seq.msSinceStart, target := t + s.timing.TS.toNat, state := .semi 0 } }

/-- 42_tx_engine.md R311 to R315, R319: the TX compare at boundary 0 begins the start bit; at boundary `j`, 1 to 21, it samples semibit
`j - 1` and drives semibit `j`. -/
def Obligations.TxCompareSamplesAndDrives : Prop :=
  ∀ (s : State) (t : Tick) (j : Fin 23), s.tx.state = .semi j →
    (j.val = 0 → s.txCmp t = { s with tx := { s.tx with
      t0 := t, err := 0, par := false, out := false, target := t + s.timing.TS.toNat, state := .semi 1 } }) ∧
    (∀ h : j.val + 1 < 23, 1 ≤ j.val →
      let m := j.val - 1
      let code : Byte :=
        if m % 2 = 0 then (if m = 0 then 0x01 else if m ≤ 18 then 0x02 else 0x20)
        else if s.cfg.checkSecondHalf then 0x20 else 0x00
      let par := if j.val % 2 = 0 ∧ 2 ≤ j.val ∧ j.val ≤ 16 then s.tx.par ^^ s.tx.byte.getLsbD (j.val / 2 - 1) else s.tx.par
      s.txCmp t = { s with tx := { s.tx with
        err := if s.bus.before = s.tx.out then s.tx.err else s.tx.err ||| code
        par := par
        out := if j.val % 2 = 1 then true else if j.val ≤ 16 then s.tx.byte.getLsbD (j.val / 2 - 1)
          else if j.val = 18 then par else true
        target := s.tx.t0 + ((j.val + 1) / 2) * s.timing.TT.toNat + ((j.val + 1) % 2) * s.timing.TS.toNat
        state := .semi ⟨j.val + 1, h⟩ } })

/-- `n` TX compares in a row, each at the armed target, the input level before each being `levels`' (any levels). -/
def Sys2Proof.Machine.State.txCompares (levels : Nat → Bool) : Nat → State → State
  | 0, s => s
  | n + 1, s =>
    let u := State.txCompares levels n s
    State.txCmp { u with bus := { u.bus with before := levels n } } u.tx.target

/-- 42_tx_engine.md R314, R315, R320: the waveform of a byte. From boundary 0 at `t0`, whatever is read back, after boundary `j` the engine drives
frame bit `j div 2` in a first half and the rest level in a second half, and the next boundary is armed at
`t0 + ((j+1) div 2)·TT + ((j+1) mod 2)·TS`. -/
def Obligations.ByteIsSentAsItsFrame : Prop :=
  ∀ (s : State) (t0 : Tick) (levels : Nat → Bool) (j : Nat) (hj : j + 1 < 23), s.tx.state = .semi 0 → s.tx.target = t0 →
    (State.txCompares levels (j + 1) s).tx.state = .semi ⟨j + 1, hj⟩ ∧
    (State.txCompares levels (j + 1) s).tx.out =
      (if j % 2 = 1 then true else (frameBits s.tx.byte (evenParity s.tx.byte) true).getD (j / 2) true) ∧
    (State.txCompares levels (j + 1) s).tx.target =
      t0 + ((j + 1) / 2) * s.timing.TT.toNat + ((j + 1) % 2) * s.timing.TS.toNat ∧
    (State.txCompares levels (j + 1) s).tx.byte = s.tx.byte ∧
    ((∀ m, m < j → levels (m + 1) =
        (if m % 2 = 1 then true else (frameBits s.tx.byte (evenParity s.tx.byte) true).getD (m / 2) true)) →
      (State.txCompares levels (j + 1) s).tx.err = 0)

/-- 42_tx_engine.md R317, R318, R321, 41_rx_engine.md R262: a read-back error of the byte, flagged before or by the last sample, empties the
TX ring and leaves the engine idle at boundary 22, with the receiver enabled and the EOP compare armed for a staged byte. With `ECHO = 1`
the byte is staged with its error flags, and a byte already in the cell is committed without EOP. Nothing else changes. -/
def Obligations.CollisionDrainsTheQueue : Prop :=
  ∀ (s : State) (t : Tick) (err : Byte), s.tx.state = .semi 22 →
    err = (if s.bus.before = s.tx.out then s.tx.err
      else s.tx.err ||| (if s.cfg.checkSecondHalf then 0x20 else 0x00)) → err ≠ 0 →
    (s.conf.echo = true → s.txCmp t = { s with
      tx := { s.tx with err := err, state := .idle }
      txRing := { s.txRing with tail := s.txRing.head }
      irq := { s.irq with rxEn := true, msIe := true }
      rxRing := if s.pend.valid then
          rxCommitRing (s.cfg.rxN + 1) ⟨s.pend.byte, s.pend.err, s.pend.delta⟩ s.rxRing
        else s.rxRing
      pend := ⟨true, s.tx.byte, err, s.tx.delta⟩
      rx := { s.rx with state := .idle, target := t + (1 + s.conf.allow.toNat) * s.timing.T.toNat } }) ∧
    (s.conf.echo = false → s.txCmp t = { s with
      tx := { s.tx with err := err, state := .idle }
      txRing := { s.txRing with tail := s.txRing.head }
      irq := { s.irq with rxEn := true, msIe := true }
      rx := { s.rx with
        state := .idle
        target := if s.pend.valid then t + (1 + s.conf.allow.toNat) * s.timing.T.toNat else s.rx.target } })

/-- 42_tx_engine.md R316, R318: at boundary 22 of a byte with no error, the next queued byte begins at once when its delay is 0, waits for
`max(d, 2)` ms when it has a delay, and the engine goes idle when none is queued; in the last two cases the bus is released, and a byte
that is staged then has its EOP compare armed. R317, 41_rx_engine.md R262: with `ECHO = 1` the byte sent is staged with no error flag, and a
byte already in the cell is committed without EOP; with `ECHO = 0` the cell and the RX ring stay. -/
def Obligations.NextByteFollows : Prop :=
  ∀ (s : State) (t : Tick), s.tx.state = .semi 22 → s.bus.before = s.tx.out → s.tx.err = 0 →
    (s.txRing.head = s.txRing.tail → (s.txCmp t).tx.state = .idle ∧ (s.txCmp t).txRing = s.txRing) ∧
    (∀ x : TxSlot, s.txRing.head ≠ s.txRing.tail → s.txRing.slots[s.txRing.tail]? = some x →
      (s.txCmp t).txRing = { s.txRing with tail := (s.txRing.tail + 1) % (s.cfg.txN + 1) } ∧
      (s.txCmp t).tx.byte = x.byte ∧
      (x.delay = 0 → (s.txCmp t).tx.state = .semi 1 ∧ (s.txCmp t).tx.out = false ∧ (s.txCmp t).tx.t0 = t ∧
        (s.txCmp t).tx.err = 0 ∧ (s.txCmp t).tx.par = false ∧
        (s.txCmp t).tx.delta = s.seq.msSinceStart ∧ (s.txCmp t).seq = { s.seq with msSinceStart := 0 } ∧
        (s.txCmp t).tx.target = t + s.timing.TS.toNat ∧ (s.txCmp t).irq = s.irq ∧ (s.txCmp t).rx = s.rx) ∧
      (x.delay ≠ 0 → (s.txCmp t).tx.state = .wait ∧ (s.txCmp t).tx.wait = 0 ∧
        (s.txCmp t).tx.effDelay = BitVec.ofNat 16 (max x.delay.toNat 2))) ∧
    ((s.txCmp t).tx.state = .idle ∨ (s.txCmp t).tx.state = .wait →
      (s.txCmp t).irq = { s.irq with rxEn := true, msIe := true } ∧ (s.txCmp t).rx.state = .idle ∧
      ((s.txCmp t).pend.valid = true → (s.txCmp t).rx.target = t + (1 + s.conf.allow.toNat) * s.timing.T.toNat)) ∧
    (s.conf.echo = true → (s.txCmp t).pend = ⟨true, s.tx.byte, 0x00, s.tx.delta⟩ ∧
      (s.txCmp t).rxRing = if s.pend.valid then
          rxCommitRing (s.cfg.rxN + 1) ⟨s.pend.byte, s.pend.err, s.pend.delta⟩ s.rxRing
        else s.rxRing) ∧
    (s.conf.echo = false → (s.txCmp t).pend = s.pend ∧ (s.txCmp t).rxRing = s.rxRing)

/-! ## The sequencer -/

/-- 43_sequencer.md R360: a boundary while `MS_IE = 0` is latched, or lost when one is latched already; uptime counts it only when
`UPTIME_GATED = false`. Nothing else changes but the instant of the next boundary. -/
def Obligations.BoundaryIsLatchedWhileDisabled : Prop :=
  ∀ s : State, s.irq.msIe = false →
    s.takeEvent .msb = { s with
      irq := { s.irq with msPend := true }
      seq := { (if s.cfg.uptimeGated then s.seq else s.uptime.seq) with nextMs := s.seq.nextMs + s.cfg.msPeriod } } ∧
    (s.takeEvent .msb).seq.msSinceStart = s.seq.msSinceStart ∧
    (s.takeEvent .msb).seq.uptimeMs = (if s.cfg.uptimeGated then s.seq.uptimeMs else s.seq.uptimeMs + 1)

/-- 43_sequencer.md R360 to R363, R365: the handlers of a boundary while `MS_IE = 1` and of a latched one are one service (`MsService`, R362) at
`now`: of the state whose next boundary has moved on and whose uptime has counted when `UPTIME_GATED = false`, and of the state whose
`MS_PEND` is 0. With a byte waiting whose delay or timeout this millisecond completes, the service promotes it: its start bit is armed `TS`
ticks later and `ms_since_start` restarts. Else `ms_since_start` counts the millisecond and the transmission state stays. Uptime counts the
boundary once in either setting of `UPTIME_GATED`, but for a latched boundary with `UPTIME_GATED = false`, which was counted at its instant. -/
def Obligations.ServiceCountsAMillisecond : Prop :=
  ∀ (s c : State) (due : Prop),
    c = { s with
      seq := { (if s.cfg.uptimeGated then s.seq else s.uptime.seq) with nextMs := s.seq.nextMs + s.cfg.msPeriod } } →
    (due ↔ s.tx.state = .wait ∧
      (s.tx.effDelay ≤ s.seq.msSinceStart + 1 ∨ s.conf.dlyTo.toNat ≤ min (s.tx.wait.toNat + 1) 65535)) →
    (s.irq.msIe = true →
      s.takeEvent .msb = c.msService s.now ∧
      (s.takeEvent .msb).seq.uptimeMs = s.seq.uptimeMs + 1 ∧
      (s.takeEvent .msb).seq.nextMs = s.seq.nextMs + s.cfg.msPeriod ∧
      (s.takeEvent .msb).irq.msPend = s.irq.msPend ∧
      (due → (s.takeEvent .msb).tx.state = .semi 0 ∧ (s.takeEvent .msb).tx.target = s.now + s.timing.TS.toNat ∧
        (s.takeEvent .msb).seq.msSinceStart = 0) ∧
      (¬due → (s.takeEvent .msb).tx.state = s.tx.state ∧ (s.takeEvent .msb).seq.msSinceStart = s.seq.msSinceStart + 1)) ∧
    s.takeEvent .msPend = State.msService { s with irq := { s.irq with msPend := false } } s.now ∧
    (s.takeEvent .msPend).irq.msPend = false ∧
    (s.takeEvent .msPend).seq.nextMs = s.seq.nextMs ∧
    (s.takeEvent .msPend).seq.uptimeMs = (if s.cfg.uptimeGated then s.seq.uptimeMs + 1 else s.seq.uptimeMs) ∧
    (due → (s.takeEvent .msPend).tx.state = .semi 0 ∧ (s.takeEvent .msPend).tx.target = s.now + s.timing.TS.toNat ∧
      (s.takeEvent .msPend).seq.msSinceStart = 0) ∧
    (¬due →
      (s.takeEvent .msPend).tx.state = s.tx.state ∧ (s.takeEvent .msPend).seq.msSinceStart = s.seq.msSinceStart + 1)

/-- 43_sequencer.md R363: `Uptime()` counts a millisecond, and every 1000th a second. -/
def Obligations.UptimeCountsSeconds : Prop :=
  ∀ s : State,
    s.uptime.seq.uptimeMs = s.seq.uptimeMs + 1 ∧
    (s.seq.uptimeSub = 999 → s.uptime.seq.uptimeSub = 0 ∧ s.uptime.seq.uptimeSec = s.seq.uptimeSec + 1) ∧
    (s.seq.uptimeSub ≠ 999 →
      s.uptime.seq.uptimeSub = s.seq.uptimeSub + 1 ∧ s.uptime.seq.uptimeSec = s.seq.uptimeSec) ∧
    s.uptime = { s with seq := { s.seq with
      uptimeMs := s.uptime.seq.uptimeMs, uptimeSub := s.uptime.seq.uptimeSub, uptimeSec := s.uptime.seq.uptimeSec } }

/-- 43_sequencer.md R362 to R365: a service counts the millisecond, the uptime when `UPTIME_GATED = true`, and the wait of a waiting byte, which
saturates. Then it promotes the waiting byte (42_tx_engine.md R310) exactly when the delay has elapsed since the last start bit or the timeout
since the byte began to wait; else, and when no byte waits, the counting is all it does. -/
def Obligations.WaitingByteIsPromotedWhenDue : Prop :=
  ∀ (s c : State) (t : Tick),
    c = { s with
      seq := { (if s.cfg.uptimeGated then s.uptime.seq else s.seq) with msSinceStart := s.seq.msSinceStart + 1 }
      tx := if s.tx.state = .wait then { s.tx with wait := BitVec.ofNat 16 (min (s.tx.wait.toNat + 1) 65535) } else s.tx } →
    (s.tx.state = .wait → s.tx.effDelay ≤ c.seq.msSinceStart ∨ s.conf.dlyTo ≤ c.tx.wait →
      s.msService t = c.promote t ∧ (s.msService t).tx.state = .semi 0 ∧
      (s.msService t).tx.target = t + s.timing.TS.toNat ∧ (s.msService t).tx.delta = s.seq.msSinceStart + 1 ∧
      (s.msService t).irq = { s.irq with rxEn := false, msIe := false } ∧
      (s.msService t).seq.msSinceStart = 0 ∧ (s.msService t).pend = { s.pend with valid := false } ∧
      (s.msService t).rxRing = if s.pend.valid then
          rxCommitRing (s.cfg.rxN + 1) ⟨s.pend.byte, s.pend.err ||| 0x80, s.pend.delta⟩ s.rxRing
        else s.rxRing) ∧
    (¬(s.tx.state = .wait ∧ (s.tx.effDelay ≤ c.seq.msSinceStart ∨ s.conf.dlyTo ≤ c.tx.wait)) → s.msService t = c)

/-! ## The packet framer -/

/-- 45_packet_framer.md R443: the accumulator vectors, from the feeds `0x00` and `0x55`. -/
def Obligations.AccumulatorVectors : Prop :=
  (∀ row ∈ ([([], 0x00, 0x55, 0x00), ([0x00], 0x00, 0xDB, 0x00), ([0x01], 0xD0, 0x0B, 0x01), ([0x40], 0xB5, 0x6E, 0x40),
      ([0x5A], 0x72, 0xA9, 0x5A), ([0xFF], 0xDE, 0x05, 0xFF), ([0x40, 0x00], 0x34, 0x4F, 0x40),
      ([0x40, 0x00, 0x80], 0xE4, 0xC5, 0xC0), ([0x00, 0x00, 0x12], 0x8B, 0xAA, 0x12),
      ([0x40, 0x10, 0x01, 0x81], 0xE6, 0xB5, 0xD2)] : List (List Byte × Byte × Byte × Byte)),
    accumulate .crc 0xD9 0x00 row.1 = row.2.1 ∧ accumulate .crc 0xD9 0x55 row.1 = row.2.2.1 ∧
    accumulate .checksum 0xD9 0x00 row.1 = row.2.2.2)

/-- 45_packet_framer.md R436: READPACKET with `MAXLEN = 0` returns `(ILLEGAL, 0)` and changes no state. -/
def Obligations.ReadPacketNeedsRoom : Prop :=
  ∀ (s : State) (gen feed : Byte), s.mode = .on →
    exec (.readPacket gen feed 0) s = .next { s with host := .ready, results := ⟨.illegal, 0, none⟩ :: s.results }

/-- 45_packet_framer.md R433 to R435, R437, 60_exceptions.md R512: READPACKET as it is taken. On an empty ring it holds, with its working registers
set: nothing but the host agent changes, and the host has a step again exactly when a slot is unread. Else it pops the oldest slot, and
returns when that slot has the raw EOP bit or when `LENGTH_PREFIX` declares a length of 1 or less there, at `LEN_POS = 0`. (Log entry 11: the
working registers are set in the same step. Log entry 18: the declared length is an integer.) -/
def Obligations.ReadPacketTakesASlotOrHolds : Prop :=
  ∀ (s : State) (gen feed maxlen : Byte), s.mode = .on → maxlen ≠ 0 → s.rxRing.wf (s.cfg.rxN + 1) →
    (s.rxRing.head = s.rxRing.tail →
      exec (.readPacket gen feed maxlen) s = .next { s with
        host := .readPacket {
          maxlen := maxlen, gen := gen, n := 0, acc := feed, delta := 0, decl := none, buf := [], err := [] } }) ∧
    (∀ (u : State) (r : ReadRegs), u.host = .readPacket r → u.rxRing.wf (u.cfg.rxN + 1) →
      (Due.host ∈ u.dueSteps ↔ u.rxRing.head ≠ u.rxRing.tail)) ∧
    (∀ (x : RxSlot) (decl : Option Int), s.rxRing.head ≠ s.rxRing.tail → s.rxRing.slots[s.rxRing.tail]? = some x →
      decl = (match s.cfg.lengthPrefix with
        | some (pos, adj) => if pos = 0 then some ((x.byte.toNat : Int) + adj) else none
        | none => none) →
      (x.err.getLsbD 7 = true ∨ (∃ d, decl = some d ∧ d ≤ 1) →
        exec (.readPacket gen feed maxlen) s = .next { s with
          rxRing := { s.rxRing with tail := (s.rxRing.tail + 1) % (s.cfg.rxN + 1) }
          host := .ready
          results := ⟨.ok, 1, some {
            delta := x.delta
            buf := [x.byte]
            errbuf := [(x.err &&& s.conf.errMask) ||| (if gen ≠ 0 ∧ feed ≠ x.byte then 0x10 else 0x00)] }⟩ ::
              s.results }) ∧
      (x.err.getLsbD 7 = false → (∀ d, decl = some d → 1 < d) →
        exec (.readPacket gen feed maxlen) s = .next { s with
          rxRing := { s.rxRing with tail := (s.rxRing.tail + 1) % (s.cfg.rxN + 1) }
          host := .readPacket {
            maxlen := maxlen
            gen := gen
            n := 1
            acc := accumulate s.cfg.framerMode gen feed [x.byte]
            delta := x.delta
            decl := decl
            buf := [x.byte]
            err := [x.err &&& s.conf.errMask] } }))

/-- 45_packet_framer.md R433 to R435: READPACKET with no length prefix over a ring that holds a whole packet. It consumes the slots up to the
first one with the raw EOP bit and returns `(OK, n)`, the first byte's delta, the first `maxlen` bytes, and their masked error bytes with
the excess ones ORed into the last; `0x10` is set there exactly when a generator is given and the accumulation of the bytes before the last
differs from it. Nothing else changes. That this takes one step for each slot, the first being the step that takes the command and the last
the one that returns, is the model's choice (log entry 11). -/
def Obligations.ReadPacketReturnsThePacket : Prop :=
  ∀ (s : State) (gen feed maxlen : Byte) (xs rest : List RxSlot) (last : RxSlot) (n m : Nat) (errs : List Byte) (crc : Byte),
    s.mode = .on → maxlen ≠ 0 → s.cfg.lengthPrefix = none → s.rxRing.wf (s.cfg.rxN + 1) →
    s.rxUnread = xs ++ last :: rest → (∀ x ∈ xs, x.err.getLsbD 7 = false) → last.err.getLsbD 7 = true →
    n = xs.length + 1 → m = min n maxlen.toNat → errs = (xs ++ [last]).map (fun x => x.err &&& s.conf.errMask) →
    crc = (if gen ≠ 0 ∧ accumulate s.cfg.framerMode gen feed (xs.map RxSlot.byte) ≠ last.byte then 0x10 else 0x00) →
    ∃ t, execThen xs.length (.readPacket gen feed maxlen) s = .next t ∧ t.rxUnread = rest ∧
      t = { s with
        rxRing := { s.rxRing with tail := t.rxRing.tail }
        host := .ready
        results := ⟨.ok, BitVec.ofNat 32 n, some {
          delta := ((xs ++ [last]).headD last).delta
          buf := ((xs ++ [last]).map RxSlot.byte).take maxlen.toNat
          errbuf := errs.take (m - 1) ++ [(errs.drop (m - 1)).foldl (· ||| ·) 0 ||| crc] }⟩ :: s.results }

/-- 45_packet_framer.md R433 to R435: one iteration of a READPACKET under way, on the slot it pops, with or without `LENGTH_PREFIX = (LEN_POS,
LEN_ADJ)`. The byte and its masked flags are stored, or past `maxlen` the flags are ORed into the last storable place, and the length is
declared at `LEN_POS`. With the raw EOP bit, or when the byte's number reaches the declared length, it returns the packet, with `0x10` when a
generator is given and the accumulation of the bytes before differs from the byte; else it goes on. (Log entry 18: the declared length is an
integer, possibly negative, and the comparison does not wrap.) -/
def Obligations.ReadPacketEndsAtTheDeclaredLength : Prop :=
  ∀ (s : State) (r : ReadRegs) (x : RxSlot) (decl : Option Int) (delta : Half) (buf err : List Byte), s.host = .readPacket r →
    s.rxRing.wf (s.cfg.rxN + 1) → s.rxRing.head ≠ s.rxRing.tail → s.rxRing.slots[s.rxRing.tail]? = some x →
    decl = (match s.cfg.lengthPrefix with
      | some (pos, adj) => if r.n = pos then some ((x.byte.toNat : Int) + adj) else r.decl
      | none => r.decl) →
    delta = (if r.n = 0 then x.delta else r.delta) →
    buf = (if r.n < r.maxlen.toNat then r.buf ++ [x.byte] else r.buf) →
    err = (if r.n < r.maxlen.toNat then r.err ++ [x.err &&& s.conf.errMask]
      else r.err.modify (r.maxlen.toNat - 1) (· ||| (x.err &&& s.conf.errMask))) →
    (x.err.getLsbD 7 = true ∨ (∃ d, decl = some d ∧ d ≤ (r.n : Int) + 1) →
      s.hostStep = .next { s with
        rxRing := { s.rxRing with tail := (s.rxRing.tail + 1) % (s.cfg.rxN + 1) }
        host := .ready
        results := ⟨.ok, BitVec.ofNat 32 (r.n + 1), some {
          delta := delta
          buf := buf
          errbuf := if r.gen ≠ 0 ∧ r.acc ≠ x.byte then err.modify (min r.n (r.maxlen.toNat - 1)) (· ||| 0x10) else err }⟩ ::
            s.results }) ∧
    (x.err.getLsbD 7 = false → (∀ d, decl = some d → (r.n : Int) + 1 < d) →
      s.hostStep = .next { s with
        rxRing := { s.rxRing with tail := (s.rxRing.tail + 1) % (s.cfg.rxN + 1) }
        host := .readPacket { r with
          n := r.n + 1
          acc := accumulate s.cfg.framerMode r.gen r.acc [x.byte]
          delta := delta
          decl := decl
          buf := buf
          err := err } })

/-- 45_packet_framer.md R440, R441, 42_tx_engine.md R300, R301, 60_exceptions.md R512: WRITEPACKET's step 0 writes `DELAY`, whatever the engine does;
with no byte to write it returns `(OK, 0)` there, else it goes on with its WRITEs. Under way it has a step exactly when the engine is idle or the
TX ring has room. That step is one WRITE, of the next payload byte or after the payload of the accumulator as the trailer: on an idle engine the
byte is staged with `max(DELAY, 2)`, on a busy one it is queued with `DELAY`, and `DELAY` is 0 after it. A payload byte is accumulated and
counted, and the last WRITE returns `(OK, number of bytes)`. Nothing else changes. That step 0 is the step that takes the command, sets the
working registers and, with no byte to write, returns, and that the last WRITE's step returns, is the model's choice (log entry 11). -/
def Obligations.WritePacketSetsTheDelayOnce : Prop :=
  (∀ (s : State) (gen feed : Byte) (delay : Half) (payload : List Byte), s.mode = .on →
    (payload = [] → gen = 0 →
      exec (.writePacket gen feed delay payload) s = .next { s with
        conf := { s.conf with delay := delay }, host := .ready, results := ⟨.ok, 0, none⟩ :: s.results }) ∧
    ((payload ≠ [] ∨ gen ≠ 0) →
      exec (.writePacket gen feed delay payload) s = .next { s with
        conf := { s.conf with delay := delay }
        host := .writePacket { payload := payload, gen := gen, i := 0, acc := feed } })) ∧
  (∀ (u : State) (w : WriteRegs), u.host = .writePacket w →
    (Due.host ∈ u.dueSteps ↔ u.tx.state = .idle ∨ (u.txRing.head + 1) % (u.cfg.txN + 1) ≠ u.txRing.tail)) ∧
  (∀ (u wrote : State) (w : WriteRegs) (b : Byte), u.host = .writePacket w → w.payload.length < 256 →
    (w.payload[w.i.toNat]? = some b ∨ (w.i.toNat = w.payload.length ∧ w.gen ≠ 0 ∧ b = w.acc)) →
    (u.tx.state = .idle ∨ (u.txRing.head + 1) % (u.cfg.txN + 1) ≠ u.txRing.tail) →
    wrote = (if u.tx.state = .idle then { u with
        tx := { u.tx with byte := b, effDelay := BitVec.ofNat 16 (max u.conf.delay.toNat 2), wait := 0, state := .wait }
        conf := { u.conf with delay := 0 } }
      else { u with
        txRing := { u.txRing with
          slots := u.txRing.slots.set u.txRing.head ⟨b, u.conf.delay⟩
          head := (u.txRing.head + 1) % (u.cfg.txN + 1) }
        conf := { u.conf with delay := 0 } }) →
    (w.i.toNat + 1 < w.payload.length ∨ (w.i.toNat + 1 = w.payload.length ∧ w.gen ≠ 0) →
      u.hostStep = .next { wrote with
        host := .writePacket { w with i := w.i + 1, acc := accumulate u.cfg.framerMode w.gen w.acc [b] } }) ∧
    ((w.i.toNat + 1 = w.payload.length ∧ w.gen = 0) ∨ w.i.toNat = w.payload.length →
      u.hostStep = .next { wrote with
        host := .ready
        results := ⟨.ok, BitVec.ofNat 32 (w.payload.length + if w.gen = 0 then 0 else 1), none⟩ :: u.results }))

/-- 45_packet_framer.md R440, R441, 42_tx_engine.md R300 to R302: WRITEPACKET with room for the packet writes the payload and, when a generator is
given, the accumulation of the payload as the trailer, with no hold. On an idle engine the first byte waits `max(delay, 2)` ms and the others
are queued back to back; on a busy engine all of them are queued after the bytes already there, the first with `delay` and the others back to
back. `DELAY` is 0, and the result is `(OK, number of bytes)`. Nothing else changes. That step 0 is followed by one step for each WRITE, the last
of which returns, is the model's choice (log entry 11). -/
def Obligations.WritePacketQueuesPayloadAndTrailer : Prop :=
  ∀ (s : State) (gen feed : Byte) (delay : Half) (payload bytes others : List Byte) (first : Byte),
    s.mode = .on → payload.length < 256 → s.txRing.wf (s.cfg.txN + 1) →
    bytes = payload ++ (if gen = 0 then [] else [accumulate s.cfg.framerMode gen feed payload]) →
    bytes = first :: others →
    (s.tx.state = .idle → s.txRing.head = s.txRing.tail → others.length ≤ s.cfg.txN →
      ∃ t, execThen bytes.length (.writePacket gen feed delay payload) s = .next t ∧
        t.txQueued = others.map (fun b => ⟨b, 0⟩) ∧
        t = { s with
          tx := { s.tx with
            byte := first, effDelay := BitVec.ofNat 16 (max delay.toNat 2), wait := 0, state := .wait }
          txRing := t.txRing
          conf := { s.conf with delay := 0 }
          host := .ready
          results := ⟨.ok, BitVec.ofNat 32 bytes.length, none⟩ :: s.results }) ∧
    (s.tx.state ≠ .idle → s.txQueued.length + bytes.length ≤ s.cfg.txN →
      ∃ t, execThen bytes.length (.writePacket gen feed delay payload) s = .next t ∧
        t.txQueued = s.txQueued ++ ⟨first, delay⟩ :: others.map (fun b => ⟨b, 0⟩) ∧
        t = { s with
          txRing := t.txRing
          conf := { s.conf with delay := 0 }
          host := .ready
          results := ⟨.ok, BitVec.ofNat 32 bytes.length, none⟩ :: s.results })
end

