-- ==== Sys2Proof/Laws/State.lean ====
section
/-! SUPPORT. One lemma per field per named update of the state, true by rfl, and the record form of the operations
that branch. -/

namespace Sys2Proof.Machine

section
variable (s : State) (st : Status) (v : Word)

@[simp] theorem State.answer_cfg : (s.answer st v).cfg = s.cfg := rfl
@[simp] theorem State.answer_now : (s.answer st v).now = s.now := rfl
@[simp] theorem State.answer_mode : (s.answer st v).mode = s.mode := rfl
@[simp] theorem State.answer_timing : (s.answer st v).timing = s.timing := rfl
@[simp] theorem State.answer_pol : (s.answer st v).pol = s.pol := rfl
@[simp] theorem State.answer_conf : (s.answer st v).conf = s.conf := rfl
@[simp] theorem State.answer_irq : (s.answer st v).irq = s.irq := rfl
@[simp] theorem State.answer_rx : (s.answer st v).rx = s.rx := rfl
@[simp] theorem State.answer_pend : (s.answer st v).pend = s.pend := rfl
@[simp] theorem State.answer_tx : (s.answer st v).tx = s.tx := rfl
@[simp] theorem State.answer_seq : (s.answer st v).seq = s.seq := rfl
@[simp] theorem State.answer_rxRing : (s.answer st v).rxRing = s.rxRing := rfl
@[simp] theorem State.answer_txRing : (s.answer st v).txRing = s.txRing := rfl
@[simp] theorem State.answer_host : (s.answer st v).host = .ready := rfl
@[simp] theorem State.answer_port : (s.answer st v).port = s.port := rfl
@[simp] theorem State.answer_results : (s.answer st v).results = ⟨st, v, none⟩ :: s.results := rfl
@[simp] theorem State.answer_bus : (s.answer st v).bus = s.bus := rfl
@[simp] theorem State.answer_free : (s.answer st v).free = s.free := rfl

end

section
variable (s : State) (v : Word) (p : Packet)

@[simp] theorem State.answerPacket_cfg : (s.answerPacket v p).cfg = s.cfg := rfl
@[simp] theorem State.answerPacket_now : (s.answerPacket v p).now = s.now := rfl
@[simp] theorem State.answerPacket_mode : (s.answerPacket v p).mode = s.mode := rfl
@[simp] theorem State.answerPacket_timing : (s.answerPacket v p).timing = s.timing := rfl
@[simp] theorem State.answerPacket_pol : (s.answerPacket v p).pol = s.pol := rfl
@[simp] theorem State.answerPacket_conf : (s.answerPacket v p).conf = s.conf := rfl
@[simp] theorem State.answerPacket_irq : (s.answerPacket v p).irq = s.irq := rfl
@[simp] theorem State.answerPacket_rx : (s.answerPacket v p).rx = s.rx := rfl
@[simp] theorem State.answerPacket_pend : (s.answerPacket v p).pend = s.pend := rfl
@[simp] theorem State.answerPacket_tx : (s.answerPacket v p).tx = s.tx := rfl
@[simp] theorem State.answerPacket_seq : (s.answerPacket v p).seq = s.seq := rfl
@[simp] theorem State.answerPacket_rxRing : (s.answerPacket v p).rxRing = s.rxRing := rfl
@[simp] theorem State.answerPacket_txRing : (s.answerPacket v p).txRing = s.txRing := rfl
@[simp] theorem State.answerPacket_host : (s.answerPacket v p).host = .ready := rfl
@[simp] theorem State.answerPacket_port : (s.answerPacket v p).port = s.port := rfl
@[simp] theorem State.answerPacket_results : (s.answerPacket v p).results = ⟨.ok, v, some p⟩ :: s.results := rfl
@[simp] theorem State.answerPacket_bus : (s.answerPacket v p).bus = s.bus := rfl
@[simp] theorem State.answerPacket_free : (s.answerPacket v p).free = s.free := rfl

end

section
variable (s : State) (x : RxSlot)

@[simp] theorem State.rxCommit_cfg : (s.rxCommit x).cfg = s.cfg := rfl
@[simp] theorem State.rxCommit_now : (s.rxCommit x).now = s.now := rfl
@[simp] theorem State.rxCommit_mode : (s.rxCommit x).mode = s.mode := rfl
@[simp] theorem State.rxCommit_timing : (s.rxCommit x).timing = s.timing := rfl
@[simp] theorem State.rxCommit_pol : (s.rxCommit x).pol = s.pol := rfl
@[simp] theorem State.rxCommit_conf : (s.rxCommit x).conf = s.conf := rfl
@[simp] theorem State.rxCommit_irq : (s.rxCommit x).irq = s.irq := rfl
@[simp] theorem State.rxCommit_rx : (s.rxCommit x).rx = s.rx := rfl
@[simp] theorem State.rxCommit_pend : (s.rxCommit x).pend = s.pend := rfl
@[simp] theorem State.rxCommit_tx : (s.rxCommit x).tx = s.tx := rfl
@[simp] theorem State.rxCommit_seq : (s.rxCommit x).seq = s.seq := rfl
@[simp] theorem State.rxCommit_rxRing : (s.rxCommit x).rxRing = rxCommitRing s.cfg.rxC x s.rxRing := rfl
@[simp] theorem State.rxCommit_txRing : (s.rxCommit x).txRing = s.txRing := rfl
@[simp] theorem State.rxCommit_host : (s.rxCommit x).host = s.host := rfl
@[simp] theorem State.rxCommit_port : (s.rxCommit x).port = s.port := rfl
@[simp] theorem State.rxCommit_results : (s.rxCommit x).results = s.results := rfl
@[simp] theorem State.rxCommit_bus : (s.rxCommit x).bus = s.bus := rfl
@[simp] theorem State.rxCommit_free : (s.rxCommit x).free = s.free := rfl

end

section
variable (s : State)

@[simp] theorem State.rxPop_cfg : (s.rxPop).cfg = s.cfg := rfl
@[simp] theorem State.rxPop_now : (s.rxPop).now = s.now := rfl
@[simp] theorem State.rxPop_mode : (s.rxPop).mode = s.mode := rfl
@[simp] theorem State.rxPop_timing : (s.rxPop).timing = s.timing := rfl
@[simp] theorem State.rxPop_pol : (s.rxPop).pol = s.pol := rfl
@[simp] theorem State.rxPop_conf : (s.rxPop).conf = s.conf := rfl
@[simp] theorem State.rxPop_irq : (s.rxPop).irq = s.irq := rfl
@[simp] theorem State.rxPop_rx : (s.rxPop).rx = s.rx := rfl
@[simp] theorem State.rxPop_pend : (s.rxPop).pend = s.pend := rfl
@[simp] theorem State.rxPop_tx : (s.rxPop).tx = s.tx := rfl
@[simp] theorem State.rxPop_seq : (s.rxPop).seq = s.seq := rfl
@[simp] theorem State.rxPop_rxRing : (s.rxPop).rxRing = s.rxRing.consume s.cfg.rxC := rfl
@[simp] theorem State.rxPop_txRing : (s.rxPop).txRing = s.txRing := rfl
@[simp] theorem State.rxPop_host : (s.rxPop).host = s.host := rfl
@[simp] theorem State.rxPop_port : (s.rxPop).port = s.port := rfl
@[simp] theorem State.rxPop_results : (s.rxPop).results = s.results := rfl
@[simp] theorem State.rxPop_bus : (s.rxPop).bus = s.bus := rfl
@[simp] theorem State.rxPop_free : (s.rxPop).free = s.free := rfl

end

section
variable (s : State)

@[simp] theorem State.rxFlush_cfg : (s.rxFlush).cfg = s.cfg := rfl
@[simp] theorem State.rxFlush_now : (s.rxFlush).now = s.now := rfl
@[simp] theorem State.rxFlush_mode : (s.rxFlush).mode = s.mode := rfl
@[simp] theorem State.rxFlush_timing : (s.rxFlush).timing = s.timing := rfl
@[simp] theorem State.rxFlush_pol : (s.rxFlush).pol = s.pol := rfl
@[simp] theorem State.rxFlush_conf : (s.rxFlush).conf = s.conf := rfl
@[simp] theorem State.rxFlush_irq : (s.rxFlush).irq = s.irq := rfl
@[simp] theorem State.rxFlush_rx : (s.rxFlush).rx = s.rx := rfl
@[simp] theorem State.rxFlush_pend : (s.rxFlush).pend = s.pend := rfl
@[simp] theorem State.rxFlush_tx : (s.rxFlush).tx = s.tx := rfl
@[simp] theorem State.rxFlush_seq : (s.rxFlush).seq = s.seq := rfl
@[simp] theorem State.rxFlush_rxRing : (s.rxFlush).rxRing = s.rxRing.flush := rfl
@[simp] theorem State.rxFlush_txRing : (s.rxFlush).txRing = s.txRing := rfl
@[simp] theorem State.rxFlush_host : (s.rxFlush).host = s.host := rfl
@[simp] theorem State.rxFlush_port : (s.rxFlush).port = s.port := rfl
@[simp] theorem State.rxFlush_results : (s.rxFlush).results = s.results := rfl
@[simp] theorem State.rxFlush_bus : (s.rxFlush).bus = s.bus := rfl
@[simp] theorem State.rxFlush_free : (s.rxFlush).free = s.free := rfl

end

section
variable (s : State) (x : TxSlot)

@[simp] theorem State.txEnqueue_cfg : (s.txEnqueue x).cfg = s.cfg := rfl
@[simp] theorem State.txEnqueue_now : (s.txEnqueue x).now = s.now := rfl
@[simp] theorem State.txEnqueue_mode : (s.txEnqueue x).mode = s.mode := rfl
@[simp] theorem State.txEnqueue_timing : (s.txEnqueue x).timing = s.timing := rfl
@[simp] theorem State.txEnqueue_pol : (s.txEnqueue x).pol = s.pol := rfl
@[simp] theorem State.txEnqueue_conf : (s.txEnqueue x).conf = s.conf := rfl
@[simp] theorem State.txEnqueue_irq : (s.txEnqueue x).irq = s.irq := rfl
@[simp] theorem State.txEnqueue_rx : (s.txEnqueue x).rx = s.rx := rfl
@[simp] theorem State.txEnqueue_pend : (s.txEnqueue x).pend = s.pend := rfl
@[simp] theorem State.txEnqueue_tx : (s.txEnqueue x).tx = s.tx := rfl
@[simp] theorem State.txEnqueue_seq : (s.txEnqueue x).seq = s.seq := rfl
@[simp] theorem State.txEnqueue_rxRing : (s.txEnqueue x).rxRing = s.rxRing := rfl
@[simp] theorem State.txEnqueue_txRing : (s.txEnqueue x).txRing = s.txRing.push s.cfg.txC x := rfl
@[simp] theorem State.txEnqueue_host : (s.txEnqueue x).host = s.host := rfl
@[simp] theorem State.txEnqueue_port : (s.txEnqueue x).port = s.port := rfl
@[simp] theorem State.txEnqueue_results : (s.txEnqueue x).results = s.results := rfl
@[simp] theorem State.txEnqueue_bus : (s.txEnqueue x).bus = s.bus := rfl
@[simp] theorem State.txEnqueue_free : (s.txEnqueue x).free = s.free := rfl

end

section
variable (s : State)

@[simp] theorem State.txDequeue_cfg : (s.txDequeue).cfg = s.cfg := rfl
@[simp] theorem State.txDequeue_now : (s.txDequeue).now = s.now := rfl
@[simp] theorem State.txDequeue_mode : (s.txDequeue).mode = s.mode := rfl
@[simp] theorem State.txDequeue_timing : (s.txDequeue).timing = s.timing := rfl
@[simp] theorem State.txDequeue_pol : (s.txDequeue).pol = s.pol := rfl
@[simp] theorem State.txDequeue_conf : (s.txDequeue).conf = s.conf := rfl
@[simp] theorem State.txDequeue_irq : (s.txDequeue).irq = s.irq := rfl
@[simp] theorem State.txDequeue_rx : (s.txDequeue).rx = s.rx := rfl
@[simp] theorem State.txDequeue_pend : (s.txDequeue).pend = s.pend := rfl
@[simp] theorem State.txDequeue_tx : (s.txDequeue).tx = s.tx := rfl
@[simp] theorem State.txDequeue_seq : (s.txDequeue).seq = s.seq := rfl
@[simp] theorem State.txDequeue_rxRing : (s.txDequeue).rxRing = s.rxRing := rfl
@[simp] theorem State.txDequeue_txRing : (s.txDequeue).txRing = s.txRing.consume s.cfg.txC := rfl
@[simp] theorem State.txDequeue_host : (s.txDequeue).host = s.host := rfl
@[simp] theorem State.txDequeue_port : (s.txDequeue).port = s.port := rfl
@[simp] theorem State.txDequeue_results : (s.txDequeue).results = s.results := rfl
@[simp] theorem State.txDequeue_bus : (s.txDequeue).bus = s.bus := rfl
@[simp] theorem State.txDequeue_free : (s.txDequeue).free = s.free := rfl

end

section
variable (s : State)

@[simp] theorem State.txFlush_cfg : (s.txFlush).cfg = s.cfg := rfl
@[simp] theorem State.txFlush_now : (s.txFlush).now = s.now := rfl
@[simp] theorem State.txFlush_mode : (s.txFlush).mode = s.mode := rfl
@[simp] theorem State.txFlush_timing : (s.txFlush).timing = s.timing := rfl
@[simp] theorem State.txFlush_pol : (s.txFlush).pol = s.pol := rfl
@[simp] theorem State.txFlush_conf : (s.txFlush).conf = s.conf := rfl
@[simp] theorem State.txFlush_irq : (s.txFlush).irq = s.irq := rfl
@[simp] theorem State.txFlush_rx : (s.txFlush).rx = s.rx := rfl
@[simp] theorem State.txFlush_pend : (s.txFlush).pend = s.pend := rfl
@[simp] theorem State.txFlush_tx : (s.txFlush).tx = s.tx := rfl
@[simp] theorem State.txFlush_seq : (s.txFlush).seq = s.seq := rfl
@[simp] theorem State.txFlush_rxRing : (s.txFlush).rxRing = s.rxRing := rfl
@[simp] theorem State.txFlush_txRing : (s.txFlush).txRing = s.txRing.flush := rfl
@[simp] theorem State.txFlush_host : (s.txFlush).host = s.host := rfl
@[simp] theorem State.txFlush_port : (s.txFlush).port = s.port := rfl
@[simp] theorem State.txFlush_results : (s.txFlush).results = s.results := rfl
@[simp] theorem State.txFlush_bus : (s.txFlush).bus = s.bus := rfl
@[simp] theorem State.txFlush_free : (s.txFlush).free = s.free := rfl

end

section
variable (s : State) (n : Nat)

@[simp] theorem State.takeWords_cfg : (s.takeWords n).cfg = s.cfg := rfl
@[simp] theorem State.takeWords_now : (s.takeWords n).now = s.now := rfl
@[simp] theorem State.takeWords_mode : (s.takeWords n).mode = s.mode := rfl
@[simp] theorem State.takeWords_timing : (s.takeWords n).timing = s.timing := rfl
@[simp] theorem State.takeWords_pol : (s.takeWords n).pol = s.pol := rfl
@[simp] theorem State.takeWords_conf : (s.takeWords n).conf = s.conf := rfl
@[simp] theorem State.takeWords_irq : (s.takeWords n).irq = s.irq := rfl
@[simp] theorem State.takeWords_rx : (s.takeWords n).rx = s.rx := rfl
@[simp] theorem State.takeWords_pend : (s.takeWords n).pend = s.pend := rfl
@[simp] theorem State.takeWords_tx : (s.takeWords n).tx = s.tx := rfl
@[simp] theorem State.takeWords_seq : (s.takeWords n).seq = s.seq := rfl
@[simp] theorem State.takeWords_rxRing : (s.takeWords n).rxRing = s.rxRing := rfl
@[simp] theorem State.takeWords_txRing : (s.takeWords n).txRing = s.txRing := rfl
@[simp] theorem State.takeWords_host : (s.takeWords n).host = s.host := rfl
@[simp] theorem State.takeWords_port : (s.takeWords n).port = s.port.drop n := rfl
@[simp] theorem State.takeWords_results : (s.takeWords n).results = s.results := rfl
@[simp] theorem State.takeWords_bus : (s.takeWords n).bus = s.bus := rfl
@[simp] theorem State.takeWords_free : (s.takeWords n).free = s.free := rfl

end

section
variable (s : State) (eop : Bool)

@[simp] theorem State.finalize_cfg : (s.finalize eop).cfg = s.cfg := rfl
@[simp] theorem State.finalize_now : (s.finalize eop).now = s.now := rfl
@[simp] theorem State.finalize_mode : (s.finalize eop).mode = s.mode := rfl
@[simp] theorem State.finalize_timing : (s.finalize eop).timing = s.timing := rfl
@[simp] theorem State.finalize_pol : (s.finalize eop).pol = s.pol := rfl
@[simp] theorem State.finalize_conf : (s.finalize eop).conf = s.conf := rfl
@[simp] theorem State.finalize_irq : (s.finalize eop).irq = s.irq := rfl
@[simp] theorem State.finalize_rx : (s.finalize eop).rx = s.rx := rfl
@[simp] theorem State.finalize_pend : (s.finalize eop).pend = { s.pend with valid := false } := rfl
@[simp] theorem State.finalize_tx : (s.finalize eop).tx = s.tx := rfl
@[simp] theorem State.finalize_seq : (s.finalize eop).seq = s.seq := rfl
@[simp] theorem State.finalize_rxRing : (s.finalize eop).rxRing = rxCommitRing s.cfg.rxC ⟨s.pend.byte, s.pend.err ||| eopFlag eop, s.pend.delta⟩ s.rxRing := rfl
@[simp] theorem State.finalize_txRing : (s.finalize eop).txRing = s.txRing := rfl
@[simp] theorem State.finalize_host : (s.finalize eop).host = s.host := rfl
@[simp] theorem State.finalize_port : (s.finalize eop).port = s.port := rfl
@[simp] theorem State.finalize_results : (s.finalize eop).results = s.results := rfl
@[simp] theorem State.finalize_bus : (s.finalize eop).bus = s.bus := rfl
@[simp] theorem State.finalize_free : (s.finalize eop).free = s.free := rfl

end


/-- Everything `finalizePending` can do: it changes the RX ring and the cell's valid bit only. -/
theorem State.finalizePending_eq (s : State) (eop : Bool) :
    s.finalizePending eop =
      { s with
        rxRing := if s.pend.valid then
            rxCommitRing s.cfg.rxC ⟨s.pend.byte, s.pend.err ||| eopFlag eop, s.pend.delta⟩ s.rxRing
          else s.rxRing
        pend := { s.pend with valid := false } } := by
  unfold State.finalizePending
  cases h : s.pend.valid
  · cases s with
    | mk _ _ _ _ _ _ _ _ pend => cases pend; simp_all
  · rfl

/-- Everything `stage` can do: the cell takes the byte, and the RX ring the byte the cell held. -/
theorem State.stage_eq (s : State) (b e : Byte) (d : Half) :
    s.stage b e d =
      { s with
        rxRing := if s.pend.valid then
            rxCommitRing s.cfg.rxC ⟨s.pend.byte, s.pend.err ||| eopFlag false, s.pend.delta⟩ s.rxRing
          else s.rxRing
        pend := ⟨true, b, e, d⟩ } := by
  unfold State.stage
  rw [State.finalizePending_eq]

end Sys2Proof.Machine
end

