-- ==== Sys2Proof/Laws/Rings.lean ====
section
/-! SUPPORT. The ring primitives: each keeps the ring's form, and what each does to the unread slots in order. -/

namespace Sys2Proof.Machine

section
variable {α : Type} {c : Nat} {r : Ring α}

theorem Ring.wf.pos (h : r.wf c) : 0 < c := Nat.lt_of_le_of_lt (Nat.zero_le _) h.2.1

theorem Ring.count_lt (h : r.wf c) : r.count c < c := Nat.mod_lt _ h.pos

/-- The count, without the modulus. -/
theorem Ring.count_cases (h : r.wf c) :
    r.count c = if r.tail ≤ r.head then r.head - r.tail else r.head + c - r.tail := by
  obtain ⟨-, hh, ht⟩ := h
  unfold Ring.count
  split
  · rw [show r.head + c - r.tail = r.head - r.tail + c by omega, Nat.add_mod_right, Nat.mod_eq_of_lt (by omega)]
  · rw [Nat.mod_eq_of_lt (by omega)]

theorem Ring.mod_succ {i : Nat} (h : i < c) : (i + 1) % c = if i + 1 = c then 0 else i + 1 := by
  split
  · simp_all
  · exact Nat.mod_eq_of_lt (by omega)

theorem Ring.mod_add {i j : Nat} (hi : i < c) (hj : j ≤ c) : (i + j) % c = if i + j < c then i + j else i + j - c := by
  split
  · exact Nat.mod_eq_of_lt ‹_›
  · rw [Nat.mod_eq_sub_mod (by omega), Nat.mod_eq_of_lt (by omega)]

/-- A ring is full iff it holds `c - 1` slots (20_memory.md R112). -/
theorem Ring.full_iff (h : r.wf c) : r.full c = true ↔ r.count c + 1 = c := by
  rw [Ring.count_cases h]
  obtain ⟨-, hh, ht⟩ := h
  simp only [Ring.full, Ring.mod_succ hh, beq_iff_eq]
  repeat' split
  all_goals omega

theorem Ring.isEmpty_iff (h : r.wf c) : r.isEmpty = true ↔ r.count c = 0 := by
  rw [Ring.count_cases h]
  obtain ⟨-, hh, ht⟩ := h
  simp only [Ring.isEmpty, beq_iff_eq]
  split <;> omega

theorem Ring.push_wf (h : r.wf c) (x : α) : (r.push c x).wf c :=
  ⟨by simpa [Ring.push] using h.1, Nat.mod_lt _ h.pos, h.2.2⟩

theorem Ring.consume_wf (h : r.wf c) : (r.consume c).wf c := ⟨h.1, h.2.1, Nat.mod_lt _ h.pos⟩

theorem Ring.flush_wf (h : r.wf c) : r.flush.wf c := ⟨h.1, h.2.1, h.2.1⟩

theorem Ring.modifyNewest_wf (h : r.wf c) (f : α → α) : (r.modifyNewest c f).wf c :=
  ⟨by simpa [Ring.modifyNewest] using h.1, h.2⟩

/-- The index of the unread slot number `k` differs from `head` and from the indices of the others. -/
theorem Ring.index_eq (h : r.wf c) {k : Nat} (hk : k ≤ r.count c) :
    (r.tail + k) % c = r.head ↔ k = r.count c := by
  have hc := Ring.count_cases h
  obtain ⟨-, hh, ht⟩ := h
  rw [hc] at hk ⊢
  have hk' : k ≤ c := by split at hk <;> omega
  rw [Ring.mod_add ht hk']
  repeat' split at hk
  all_goals (repeat' split) <;> omega

theorem Ring.count_push (h : r.wf c) (hf : r.full c = false) (x : α) : (r.push c x).count c = r.count c + 1 := by
  have hn : ¬ (r.count c + 1 = c) := fun e => by simp [(Ring.full_iff h).2 e] at hf
  rw [Ring.count_cases h] at hn
  rw [Ring.count_cases (Ring.push_wf h x), Ring.count_cases h]
  obtain ⟨-, hh, ht⟩ := h
  simp only [Ring.push, Ring.mod_succ hh]
  repeat' split at hn
  all_goals (repeat' split) <;> omega

theorem Ring.count_consume (h : r.wf c) (he : r.isEmpty = false) : (r.consume c).count c + 1 = r.count c := by
  have hn : ¬ (r.count c = 0) := fun e => by simp [(Ring.isEmpty_iff h).2 e] at he
  rw [Ring.count_cases h] at hn
  rw [Ring.count_cases (Ring.consume_wf h), Ring.count_cases h]
  obtain ⟨-, hh, ht⟩ := h
  simp only [Ring.consume, Ring.mod_succ ht]
  repeat' split at hn
  all_goals (repeat' split) <;> omega

theorem Ring.count_flush (h : r.wf c) : r.flush.count c = 0 := by
  rw [Ring.count_cases (Ring.flush_wf h)]
  simp [Ring.flush]

theorem Ring.unread_length (d : α) : (r.unread d c).length = r.count c := by simp [Ring.unread]

/-- A push on a ring that is not full puts the slot after the unread ones. -/
theorem Ring.unread_push (h : r.wf c) (hf : r.full c = false) (d x : α) :
    (r.push c x).unread d c = r.unread d c ++ [x] := by
  have hlast : (r.tail + r.count c) % c = r.head := (Ring.index_eq h (Nat.le_refl _)).2 rfl
  unfold Ring.unread
  rw [Ring.count_push h hf, List.range_succ, List.map_append]
  congr 1
  · refine List.map_congr_left fun k hk => ?_
    have hk := List.mem_range.1 hk
    have : (r.tail + k) % c ≠ r.head := fun e => by
      have := (Ring.index_eq h (Nat.le_of_lt hk)).1 e
      omega
    simp [Ring.push, Ring.slotAt, List.getD, List.getElem?_set_ne (Ne.symm this)]
  · have : r.head < r.slots.length := h.1 ▸ h.2.1
    simp [Ring.push, Ring.slotAt, hlast, this]

/-- Consuming removes the oldest unread slot. -/
theorem Ring.unread_consume (h : r.wf c) (he : r.isEmpty = false) (d : α) :
    r.unread d c = r.slotAt d r.tail :: (r.consume c).unread d c := by
  have hc := Ring.count_consume h he
  unfold Ring.unread
  rw [← hc, List.range_succ_eq_map, List.map_cons, List.map_map]
  congr 1
  · simp [Nat.mod_eq_of_lt h.2.2]
  · refine List.map_congr_left fun k hk => ?_
    have hk := List.mem_range.1 hk
    have hlt := Ring.count_lt h
    have ht := h.2.2
    have e : (r.tail + (k + 1)) % c = ((r.tail + 1) % c + k) % c := by
      rw [Nat.mod_add_mod]
      congr 1
      omega
    simp [Ring.consume, Ring.slotAt, e]

theorem Ring.unread_flush (h : r.wf c) (d : α) : r.flush.unread d c = [] := by
  simp [Ring.unread, Ring.count_flush h]

/-- Changing the newest slot of a ring that holds one changes the last unread slot only. -/
theorem Ring.unread_modifyNewest (h : r.wf c) (he : r.count c ≠ 0) (d : α) (f : α → α) :
    (r.modifyNewest c f).unread d c = (r.unread d c).modify (r.count c - 1) f := by
  have hc : (r.modifyNewest c f).count c = r.count c := rfl
  have hlast : (r.tail + (r.count c - 1)) % c = (r.head + c - 1) % c := by
    have hcc := Ring.count_cases h
    have hlt := Ring.count_lt h
    obtain ⟨-, hh, ht⟩ := h
    rw [show r.head + c - 1 = r.head + (c - 1) by omega, Ring.mod_add hh (by omega), Ring.mod_add ht (by omega)]
    split at hcc <;> split <;> split <;> omega
  apply List.ext_getElem?
  intro k
  rw [List.getElem?_modify]
  simp only [Ring.unread, hc]
  by_cases hk : k < r.count c
  · simp only [List.getElem?_map, List.getElem?_range hk, Option.map_some, Ring.slotAt, Ring.modifyNewest,
      List.getD, List.getElem?_modify]
    have hin : (r.tail + k) % c < r.slots.length := by rw [h.1]; exact Nat.mod_lt _ h.pos
    have key : ((r.head + c - 1) % c = (r.tail + k) % c) ↔ r.count c - 1 = k := by
      rw [← hlast]
      have hlt := Ring.count_lt h
      obtain ⟨-, hh, ht⟩ := h
      rw [Ring.mod_add ht (by omega), Ring.mod_add ht (by omega)]
      split <;> split <;> omega
    by_cases e : r.count c - 1 = k
    · simp [key.2 e, e, hin]
    · have ne : ¬ (r.head + c - 1) % c = (r.tail + k) % c := fun h => e (key.1 h)
      simp [ne, e]
  · have : (List.range (r.count c))[k]? = none := by simp; omega
    simp [this]

end

/-- AVAILABLE's value is the count, where 32 bits hold it (44_ring_ops.md R390). -/
theorem availableValue_toNat {n : Nat} (h : n < 2 ^ 32) : (availableValue n).toNat = n := by
  rw [availableValue, if_pos h]
  exact Nat.mod_eq_of_lt h

theorem rxCommitRing_wf {c : Nat} {r : Ring RxSlot} (h : r.wf c) (x : RxSlot) : (rxCommitRing c x r).wf c := by
  unfold rxCommitRing
  split
  · exact Ring.modifyNewest_wf h _
  · exact Ring.push_wf h x

theorem rxCommitRing_tail (c : Nat) (r : Ring RxSlot) (x : RxSlot) : (rxCommitRing c x r).tail = r.tail := by
  unfold rxCommitRing
  split <;> rfl

end Sys2Proof.Machine
end

