-- ==== Sys2Proof/Laws/Engines.lean ====
section
/-! SUPPORT. What each handler of the RX engine, the TX engine and the sequencer does, said once as a record update or as its
cases, so that later proofs need not unfold it. -/

namespace Sys2Proof.Machine

/-- The RX ring after `if pend_valid = 1: Finalize(eop)` (41_rx_engine.md R263). -/
def State.finalizedRing (s : State) (eop : Bool) : Ring RxSlot :=
  if s.pend.valid then rxCommitRing s.cfg.rxC ⟨s.pend.byte, s.pend.err ||| eopFlag eop, s.pend.delta⟩ s.rxRing
  else s.rxRing

theorem State.finalizedRing_wf {s : State} (h : s.rxRing.wf s.cfg.rxC) (eop : Bool) :
    (s.finalizedRing eop).wf s.cfg.rxC := by
  unfold State.finalizedRing
  split
  · exact rxCommitRing_wf h _
  · exact h

theorem State.finalizedRing_tail (s : State) (eop : Bool) : (s.finalizedRing eop).tail = s.rxRing.tail := by
  unfold State.finalizedRing
  split
  · exact rxCommitRing_tail _ _ _
  · rfl

/-- `StartBit(t)` (41_rx_engine.md R255). -/
theorem State.startBit_eq (s : State) (t : Tick) :
    s.startBit t = { s with
      rxRing := s.finalizedRing false
      pend := { s.pend with valid := false }
      irq := { s.irq with msIe := false }
      seq := { s.seq with msSinceStart := 0 }
      rx := {
        state := .data 0
        target := t + s.timing.SCHED.toNat
        shift := 0
        par := false
        curDelta := s.seq.msSinceStart
        lastEdge := s.rx.lastEdge } } := by
  simp only [State.startBit, State.finalizePending_eq, State.finalizedRing]

/-- `StopBit(t)` (41_rx_engine.md R260). -/
theorem State.stopBit_eq (s : State) (t : Tick) :
    s.stopBit t = { s with
      rxRing := s.finalizedRing false
      pend := ⟨true, s.rx.shift, parityFlag s.rx.par, s.rx.curDelta⟩
      irq := { s.irq with msIe := true }
      rx := { s.rx with state := .idle, target := s.eopAt t } } := by
  simp only [State.stopBit, State.stage_eq, State.finalizedRing, State.eopAt]

/-- `StopSlotEdge(t)` (41_rx_engine.md R257): the staged byte, when there is one, and the byte in flight enter the ring. -/
theorem State.stopSlotEdge_eq (s : State) (t : Tick) :
    s.stopSlotEdge t = { s with
      rxRing := rxCommitRing s.cfg.rxC ⟨s.rx.shift, parityFlag s.rx.par ||| eopFlag false, s.rx.curDelta⟩
        (s.finalizedRing false)
      pend := ⟨false, s.rx.shift, parityFlag s.rx.par, s.rx.curDelta⟩
      irq := { s.irq with msIe := false }
      seq := { s.seq with msSinceStart := 0 }
      rx := {
        state := .data 0
        target := t + s.timing.SCHED.toNat
        shift := 0
        par := false
        curDelta := s.seq.msSinceStart
        lastEdge := s.rx.lastEdge } } := by
  simp only [State.stopSlotEdge, State.startBit, State.stage_eq, State.finalizePending_eq, State.finalize, State.rxCommit,
    State.finalizedRing, Bool.false_eq_true, if_false]

/-- `Promote(t)` (42_tx_engine.md R310). -/
theorem State.promote_eq (s : State) (t : Tick) :
    s.promote t = { s with
      rxRing := s.finalizedRing true
      pend := { s.pend with valid := false }
      irq := { s.irq with rxEn := false, msIe := false }
      seq := { s.seq with msSinceStart := 0 }
      tx := { s.tx with
        delta := s.seq.msSinceStart, target := t + s.timing.TS.toNat, state := .semi 0 } } := by
  simp only [State.promote, State.finalizePending_eq, State.finalizedRing]

/-- `Sample(j, t)` writes `tx_err` only (42_tx_engine.md R312). -/
theorem State.sample_eq (s : State) (j : Nat) :
    s.sample j = { s with tx := { s.tx with
      err := if s.inLevel ≠ s.tx.out then s.tx.err ||| errCode s.cfg.checkSecondHalf ((j - 1) / 2) ((j - 1) % 2)
        else s.tx.err } } := by
  simp only [State.sample]
  split <;> rfl

/-- The echo of a byte: the cell takes it when `ECHO = 1` (42_tx_engine.md R317). -/
theorem State.echoByte_eq (s : State) :
    s.echoByte = { s with
      rxRing := if s.conf.echo then s.finalizedRing false else s.rxRing
      pend := if s.conf.echo then ⟨true, s.tx.byte, s.tx.err, s.tx.delta⟩ else s.pend } := by
  simp only [State.echoByte, State.stage_eq, State.finalizedRing]
  cases h : s.conf.echo <;> rfl

/-- The defensive flush writes `tx_tail` only (42_tx_engine.md R317). -/
theorem State.flushOnError_eq (s : State) :
    s.flushOnError = { s with txRing := if s.tx.err ≠ 0 then s.txRing.flush else s.txRing } := by
  simp only [State.flushOnError]
  split <;> rfl

/-- The three continuations of `NextByte(t)` (42_tx_engine.md R316). -/
theorem State.nextByte_cases (s : State) (t : Tick) :
    (s.txRing.head = s.txRing.tail ∧ s.nextByte t = { s with
      tx := { s.tx with state := .idle }
      irq := { s.irq with rxEn := true, msIe := true }
      rx := { s.rx with state := .idle, target := if s.pend.valid then s.eopAt t else s.rx.target } }) ∨
    (s.txRing.head ≠ s.txRing.tail ∧ s.txFront.delay = 0 ∧ s.nextByte t = { s with
      txRing := s.txRing.consume s.cfg.txC
      seq := { s.seq with msSinceStart := 0 }
      tx := { s.tx with
        byte := s.txFront.byte, delta := s.seq.msSinceStart, t0 := t, err := 0, par := false, out := false
        target := t + s.timing.TS.toNat, state := .semi 1 } }) ∨
    (s.txRing.head ≠ s.txRing.tail ∧ s.txFront.delay ≠ 0 ∧ s.nextByte t = { s with
      txRing := s.txRing.consume s.cfg.txC
      tx := { s.tx with
        byte := s.txFront.byte, effDelay := effectiveDelay s.txFront.delay, wait := 0, state := .wait }
      irq := { s.irq with rxEn := true, msIe := true }
      rx := { s.rx with state := .idle, target := if s.pend.valid then s.eopAt t else s.rx.target } }) := by
  unfold State.nextByte
  by_cases he : s.txRing.head = s.txRing.tail
  · exact .inl ⟨he, by rw [if_pos (by simpa [Ring.isEmpty] using he)]; rfl⟩
  · rw [if_neg (by simpa [Ring.isEmpty] using he)]
    by_cases hd : s.txFront.delay = 0
    · exact .inr (.inl ⟨he, hd, by simp only [hd, if_true]; rfl⟩)
    · exact .inr (.inr ⟨he, hd, by simp only [hd, if_false]; rfl⟩)

/-- The registers after the counting steps of `MsService`: the millisecond, the uptime and the wait (43_sequencer.md R362 to
R364). -/
def State.counted (s : State) : State :=
  let s1 : State := { s with seq := { s.seq with msSinceStart := s.seq.msSinceStart + 1 } }
  (if s1.cfg.uptimeGated then s1.uptime else s1).waitCount

/-- What the counting steps write. -/
theorem State.counted_eq (s : State) :
    s.counted = { s with
      seq := { s.counted.seq with
        msSinceStart := s.seq.msSinceStart + 1
        nextMs := s.seq.nextMs
        uptimeMs := if s.cfg.uptimeGated then s.seq.uptimeMs + 1 else s.seq.uptimeMs }
      tx := { s.tx with
        wait := if s.tx.state = .wait then (if s.tx.wait = 65535 then 65535 else s.tx.wait + 1) else s.tx.wait } } := by
  simp only [State.counted, State.waitCount, State.uptime]
  cases s.cfg.uptimeGated <;> simp only [if_true, if_false, Bool.false_eq_true] <;> split <;> rfl

/-- `MsService(t)`: the counts, then a promotion when one is due (43_sequencer.md R362, R365). -/
theorem State.msService_eq (s : State) (t : Tick) :
    s.msService t = if s.counted.promoteDue then s.counted.promote t else s.counted := rfl

/-- A service finds a promotion due for a waiting byte whose delay or timeout has elapsed, this millisecond counted
(43_sequencer.md R365). -/
theorem State.counted_promoteDue (s : State) :
    s.counted.promoteDue = (s.tx.state == .wait &&
      (decide (s.tx.effDelay ≤ s.seq.msSinceStart + 1) ||
        decide (s.conf.dlyTo ≤ if s.tx.wait = 65535 then 65535 else s.tx.wait + 1))) := by
  rw [State.counted_eq]
  simp only [State.promoteDue]
  by_cases h : s.tx.state = .wait
  · simp [h]
  · rw [beq_eq_false_iff_ne.2 h, Bool.false_and, Bool.false_and]

/-- `MSB(t)` is a service, or latches the boundary, of the state whose next boundary has moved on and whose uptime has counted this one
when it is not gated (43_sequencer.md R360). -/
theorem State.msBoundary_eq (s : State) (t : Tick) :
    s.msBoundary t =
      (let c : State := { s with
        seq := { (if s.cfg.uptimeGated then s.seq else s.uptime.seq) with nextMs := s.seq.nextMs + s.cfg.msPeriod } }
      if s.irq.msIe then c.msService t else { c with irq := { s.irq with msPend := true } }) := by
  simp only [State.msBoundary, State.uptime]
  cases s.cfg.uptimeGated <;> rfl

end Sys2Proof.Machine
end

