-- ==== Sys2Proof/Laws/Framer.lean ====
section
/-! SUPPORT. What one step of a WRITE and of the two framer commands does, and the accumulator over a longer sequence. -/

namespace Sys2Proof.Machine

@[simp] theorem accumulate_nil (mode : FramerMode) (gen feed : Byte) : accumulate mode gen feed [] = feed := rfl

/-- One more byte is one more update. -/
theorem accumulate_concat (mode : FramerMode) (gen feed : Byte) (bytes : List Byte) (b : Byte) :
    accumulate mode gen feed (bytes ++ [b]) = accUpdate mode (accumulate mode gen feed bytes) b gen := by
  simp [accumulate]

/-- The first byte is one update of the feed. -/
theorem accumulate_cons (mode : FramerMode) (gen feed : Byte) (b : Byte) (bytes : List Byte) :
    accumulate mode gen feed (b :: bytes) = accumulate mode gen (accUpdate mode feed b gen) bytes := rfl

/-- The byte of a WRITE on an idle engine (42_tx_engine.md R300). -/
theorem State.writeByte_idle {s : State} (h : s.tx.state = .idle) (b : Byte) :
    s.writeByte b = { s with
      tx := { s.tx with byte := b, effDelay := effectiveDelay s.conf.delay, wait := 0, state := .wait }
      conf := { s.conf with delay := 0 } } := by
  simp only [State.writeByte, h]

/-- The byte of a WRITE on a busy engine (42_tx_engine.md R301). -/
theorem State.writeByte_busy {s : State} (h : s.tx.state ≠ .idle) (b : Byte) :
    s.writeByte b = { s with
      txRing := s.txRing.push s.cfg.txC ⟨b, s.conf.delay⟩
      conf := { s.conf with delay := 0 } } := by
  unfold State.writeByte
  split
  · contradiction
  · rfl
  · rfl

/-- A WRITE's byte leaves `DELAY` 0 and the engine busy. -/
theorem State.writeByte_after (s : State) (b : Byte) : (s.writeByte b).conf.delay = 0 ∧ (s.writeByte b).tx.state ≠ .idle := by
  by_cases h : s.tx.state = .idle
  · rw [State.writeByte_idle h]
    exact ⟨rfl, nofun⟩
  · rw [State.writeByte_busy h]
    exact ⟨rfl, h⟩

/-- The working registers after the byte of one iteration is stored and its length read (45_packet_framer.md R433, R434). -/
def ReadRegs.taken (r : ReadRegs) (s : State) (x : RxSlot) : ReadRegs :=
  (r.store s.conf.errMask x).declare s.cfg.lengthPrefix x.byte

/-- One iteration of READPACKET returns or goes on (45_packet_framer.md R433, R434). -/
theorem State.readIteration_cases (s : State) (r : ReadRegs) :
    ((r.taken s s.rxFront).terminal s.rxFront = true ∧
      s.readIteration r = s.rxPop.answerPacket (countValue (r.n + 1)) ((r.taken s s.rxFront).check s.rxFront.byte).packet) ∨
    ((r.taken s s.rxFront).terminal s.rxFront = false ∧
      s.readIteration r =
        { s.rxPop with host := .readPacket ((r.taken s s.rxFront).fold s.cfg.framerMode s.rxFront.byte) }) := by
  by_cases h : (r.taken s s.rxFront).terminal s.rxFront = true
  · exact .inl ⟨h, by unfold State.readIteration; exact if_pos h⟩
  · exact .inr ⟨by simpa using h, by unfold State.readIteration; exact if_neg h⟩

/-- One WRITE step of WRITEPACKET on a payload that format P can hold: a payload byte and more to do, the last payload byte with no trailer,
or the trailer (45_packet_framer.md R440, R441). -/
theorem State.packetWrite_cases (s : State) (w : WriteRegs) (hl : w.payload.length < 256) :
    (∃ b, w.payload[w.i.toNat]? = some b ∧
      ((w.i.toNat + 1 < w.payload.length ∨ w.gen ≠ 0) ∧ s.packetWrite w = { s.writeByte b with
          host := .writePacket { w with acc := accUpdate s.cfg.framerMode w.acc b w.gen, i := w.i + 1 } } ∨
        w.i.toNat + 1 = w.payload.length ∧ w.gen = 0 ∧ s.packetWrite w = (s.writeByte b).answer .ok w.value)) ∨
    (w.payload.length ≤ w.i.toNat ∧
      s.packetWrite w = (if w.gen = 0 then s else s.writeByte w.acc).answer .ok w.value) := by
  unfold State.packetWrite
  split
  · rename_i b hb
    obtain ⟨hi, -⟩ := List.getElem?_eq_some_iff.1 hb
    have hs : (w.i + 1).toNat = w.i.toNat + 1 := by
      rw [BitVec.toNat_add]
      exact Nat.mod_eq_of_lt (by simp; omega)
    refine .inl ⟨b, hb, ?_⟩
    simp only [State.writeContinue, hs]
    by_cases h : w.payload.length ≤ w.i.toNat + 1 ∧ w.gen = 0
    · exact .inr ⟨by omega, h.2, if_pos h⟩
    · exact .inl ⟨by by_cases hg : w.gen = 0 <;> simp_all, if_neg h⟩
  · rename_i hb
    exact .inr ⟨by simpa using hb, rfl⟩

/-- A host step is one step of `hostRun`. -/
theorem State.hostRun_succ {s t : State} (hd : s.hostDue = true) (h : s.hostStep = .next t) (n : Nat) :
    s.hostRun (n + 1) = t.hostRun n := by
  simp only [State.hostRun, hd, if_true, h]

/-- Where the host holds, `hostRun` stops. -/
theorem State.hostRun_hold {s : State} (hd : s.hostDue = false) (n : Nat) : s.hostRun n = .next s := by
  cases n with
  | zero => rfl
  | succ n => simp [State.hostRun, hd]

end Sys2Proof.Machine
end

