-- ==== Sys2Proof/Laws/HostSteps.lean ====
section
/-! SUPPORT. What a step of the machine and a step of the host agent can do, said once. -/

namespace Sys2Proof.Machine

theorem State.takeDue_host (s : State) : s.takeDue .host = s.hostStep := rfl

/-- A due event is taken by its handler; only a host step can refuse. -/
theorem State.takeDue_event (s : State) (d : Due) (h : d ≠ .host) : s.takeDue d = .next (s.takeEvent d) := by
  cases d <;> first | rfl | exact absurd rfl h

/-- One step: time advances when nothing is due, or one due step is taken, with the counter of free values possibly moved. -/
theorem stepWith_cases (pick : Nat → Nat) (s : State) :
    (s.dueSteps = [] ∧ stepWith pick s = .next s.advance) ∨
    (∃ d k, d ∈ s.dueSteps ∧ stepWith pick s = State.takeDue { s with free := k } d) := by
  unfold stepWith
  split
  · exact .inl ⟨by assumption, rfl⟩
  · rename_i d h
    exact .inr ⟨d, s.free, by simp [h], rfl⟩
  · rename_i d ds hh h
    refine .inr ⟨_, s.free + 1, ?_, rfl⟩
    rw [h]
    rw [List.getD_eq_getElem _ _ (by simpa using Nat.mod_lt _ (Nat.succ_pos ds.length))]
    exact List.getElem_mem _

/-- What every step of the host agent but BEGIN and END leaves: the block's engines but for a staged or queued byte, and the
RX ring but for its tail. -/
structure HostFrame (s t : State) : Prop where
  now : t.now = s.now
  cfg : t.cfg = s.cfg
  mode : t.mode = s.mode
  timing : t.timing = s.timing
  pol : t.pol = s.pol
  irq : t.irq = s.irq
  rx : t.rx = s.rx
  pend : t.pend = s.pend
  seq : t.seq = s.seq
  bus : t.bus = s.bus
  free : t.free = s.free
  rxWf : s.rxRing.wf s.cfg.rxC → t.rxRing.wf s.cfg.rxC
  tx : (t.tx = s.tx ∧ t.txRing = s.txRing) ∨
    (s.tx.state = .idle ∧ t.txRing = s.txRing ∧ t.tx.state = .wait ∧ t.tx.out = s.tx.out) ∨
    (s.tx.state ≠ .idle ∧ t.tx = s.tx ∧ ∃ x, t.txRing = s.txRing.push s.cfg.txC x)

theorem HostFrame.refl (s : State) : HostFrame s s := ⟨rfl, rfl, rfl, rfl, rfl, rfl, rfl, rfl, rfl, rfl, rfl, id, .inl ⟨rfl, rfl⟩⟩

theorem HostFrame.answer {s t : State} (h : HostFrame s t) (a b) : HostFrame s (t.answer a b) :=
  ⟨h.now, h.cfg, h.mode, h.timing, h.pol, h.irq, h.rx, h.pend, h.seq, h.bus, h.free, h.rxWf, h.tx⟩
theorem HostFrame.answerPacket {s t : State} (h : HostFrame s t) (a b) : HostFrame s (t.answerPacket a b) :=
  ⟨h.now, h.cfg, h.mode, h.timing, h.pol, h.irq, h.rx, h.pend, h.seq, h.bus, h.free, h.rxWf, h.tx⟩
theorem HostFrame.setHost {s t : State} (h : HostFrame s t) (p : HostPhase) : HostFrame s { t with host := p } :=
  ⟨h.now, h.cfg, h.mode, h.timing, h.pol, h.irq, h.rx, h.pend, h.seq, h.bus, h.free, h.rxWf, h.tx⟩

theorem HostFrame.conf {s : State} (c : Conf) : HostFrame s { s with conf := c } :=
  ⟨rfl, rfl, rfl, rfl, rfl, rfl, rfl, rfl, rfl, rfl, rfl, id, .inl ⟨rfl, rfl⟩⟩

theorem State.writeByte_frame (s : State) (b) : HostFrame s (s.writeByte b) := by
  unfold State.writeByte
  split
  · rename_i h
    exact ⟨rfl, rfl, rfl, rfl, rfl, rfl, rfl, rfl, rfl, rfl, rfl, id, .inr (.inl ⟨h, rfl, rfl, rfl⟩)⟩
  · rename_i h
    exact ⟨rfl, rfl, rfl, rfl, rfl, rfl, rfl, rfl, rfl, rfl, rfl, id, .inr (.inr ⟨by rw [h]; simp, rfl, _, rfl⟩)⟩
  · rename_i h
    exact ⟨rfl, rfl, rfl, rfl, rfl, rfl, rfl, rfl, rfl, rfl, rfl, id, .inr (.inr ⟨by rw [h]; simp, rfl, _, rfl⟩)⟩

theorem State.writeStep_frame (s : State) (b) : HostFrame s (s.writeStep b) := by
  unfold State.writeStep
  split
  · exact (State.writeByte_frame s b).answer _ _
  · exact (HostFrame.refl s).setHost _

theorem State.flushOutputStep_frame (s : State) : HostFrame s s.flushOutputStep := by
  unfold State.flushOutputStep
  split
  · exact (HostFrame.refl s).answer _ _
  · exact (HostFrame.refl s).setHost _

theorem State.rxPop_frame (s : State) : HostFrame s s.rxPop :=
  ⟨rfl, rfl, rfl, rfl, rfl, rfl, rfl, rfl, rfl, rfl, rfl, fun h => Ring.consume_wf h, .inl ⟨rfl, rfl⟩⟩

theorem State.readStep_frame (s : State) (r) : HostFrame s (s.readStep r) := by
  unfold State.readStep
  split
  · exact (HostFrame.refl s).setHost _
  · unfold State.readIteration
    simp only []
    split
    · exact (State.rxPop_frame s).answerPacket _ _
    · exact (State.rxPop_frame s).setHost _

theorem State.writeContinue_frame {s t : State} (h : HostFrame s t) (w) : HostFrame s (t.writeContinue w) := by
  unfold State.writeContinue
  split
  · exact h.answer _ _
  · exact h.setHost _

theorem State.packetWriteStep_frame (s : State) (w) : HostFrame s (s.packetWriteStep w) := by
  unfold State.packetWriteStep
  split
  · unfold State.packetWrite
    split
    · exact State.writeContinue_frame (State.writeByte_frame _ _) _
    · split
      · exact (HostFrame.refl s).answer _ _
      · exact (State.writeByte_frame _ _).answer _ _
  · exact (HostFrame.refl s).setHost _

theorem State.whenOn_frame {s t : State} {f : State → StepOutcome} (h : s.whenOn f = .next t)
    (hf : ∀ u, s.mode = .on → f s = .next u → HostFrame s u) : HostFrame s t := by
  unfold State.whenOn at h
  split at h
  · exact hf t (by assumption) h
  · cases h; exact (HostFrame.refl s).answer _ _

/-- A command that answers a next state is a BEGIN that succeeds, an END that is performed, or keeps the host frame. -/
theorem exec_cases {i : Instr} {s t : State} (h : exec i s = .next t) :
    (∃ pol baud tm, i = .beginCmd pol baud ∧ s.mode = .off ∧ calibrate s.cfg.fClk (baudOf baud) = some tm ∧ t = (s.begun tm pol).answer .ok 0) ∨
    (i = .endCmd ∧ s.mode = .on ∧ t = s.ended.answer .ok 0) ∨
    HostFrame s t := by
  cases i with
  | beginCmd pol baud =>
    simp only [exec, execBegin] at h
    split at h
    · cases h
    · split at h
      · cases h; exact .inr (.inr ((HostFrame.refl s).answer _ _))
      · cases h; exact .inl ⟨_, _, _, rfl, by assumption, by assumption, rfl⟩
  | endCmd =>
    simp only [exec, execEnd, State.whenOn] at h
    split at h
    · cases h; exact .inr (.inl ⟨rfl, by assumption, rfl⟩)
    · cases h; exact .inr (.inr ((HostFrame.refl s).answer _ _))
  | available =>
    simp only [exec, execAvailable] at h
    exact .inr (.inr (State.whenOn_frame h fun u _ hu => by cases hu; exact (HostFrame.refl s).answer _ _))
  | read =>
    simp only [exec, execRead] at h
    refine .inr (.inr (State.whenOn_frame h fun u _ hu => ?_)); simp only [State.unlessEmpty] at hu
    split at hu <;> cases hu
    · exact (HostFrame.refl s).answer _ _
    · exact (State.rxPop_frame s).answer _ _
  | readError =>
    simp only [exec, execReadError] at h
    refine .inr (.inr (State.whenOn_frame h fun u _ hu => ?_)); simp only [State.unlessEmpty] at hu
    split at hu <;> cases hu <;> exact (HostFrame.refl s).answer _ _
  | readDelta =>
    simp only [exec, execReadDelta] at h
    refine .inr (.inr (State.whenOn_frame h fun u _ hu => ?_)); simp only [State.unlessEmpty] at hu
    split at hu <;> cases hu <;> exact (HostFrame.refl s).answer _ _
  | packetAvailable =>
    simp only [exec, execPacketAvailable] at h
    exact .inr (.inr (State.whenOn_frame h fun u _ hu => by cases hu; exact (HostFrame.refl s).answer _ _))
  | flushInput =>
    simp only [exec, execFlushInput] at h
    refine .inr (.inr (State.whenOn_frame h fun u _ hu => ?_)); cases hu
    exact ⟨rfl, rfl, rfl, rfl, rfl, rfl, rfl, rfl, rfl, rfl, rfl, fun h => Ring.flush_wf h, .inl ⟨rfl, rfl⟩⟩
  | write b =>
    simp only [exec, execWrite] at h
    exact .inr (.inr (State.whenOn_frame h fun u _ hu => by cases hu; exact State.writeStep_frame _ _))
  | writeReady =>
    simp only [exec, execWriteReady] at h
    exact .inr (.inr (State.whenOn_frame h fun u _ hu => by cases hu; exact (HostFrame.refl s).answer _ _))
  | flushOutput =>
    simp only [exec, execFlushOutput] at h
    exact .inr (.inr (State.whenOn_frame h fun u _ hu => by cases hu; exact State.flushOutputStep_frame _))
  | setDelay ms => cases h; exact .inr (.inr ((HostFrame.conf _).answer _ _))
  | setDelayTimeout ms => cases h; exact .inr (.inr ((HostFrame.conf _).answer _ _))
  | setEcho en => cases h; exact .inr (.inr ((HostFrame.conf _).answer _ _))
  | setAllow bits => cases h; exact .inr (.inr ((HostFrame.conf _).answer _ _))
  | setErrorMask mask => cases h; exact .inr (.inr ((HostFrame.conf _).answer _ _))
  | uptimeSec =>
    simp only [exec, execUptimeSec] at h
    exact .inr (.inr (State.whenOn_frame h fun u _ hu => by cases hu; exact (HostFrame.refl s).answer _ _))
  | uptimeMillisec =>
    simp only [exec, execUptimeMillisec] at h
    exact .inr (.inr (State.whenOn_frame h fun u _ hu => by cases hu; exact (HostFrame.refl s).answer _ _))
  | readPacket gen feed maxlen =>
    simp only [exec, execReadPacket] at h
    refine .inr (.inr (State.whenOn_frame h fun u _ hu => ?_))
    split at hu <;> cases hu
    · exact (HostFrame.refl s).answer _ _
    · exact State.readStep_frame _ _
  | writePacket gen feed delay payload =>
    simp only [exec, execWritePacket] at h
    refine .inr (.inr (State.whenOn_frame h fun u _ hu => ?_)); cases hu
    exact State.writeContinue_frame (HostFrame.conf _) _
  | setScope x => cases h
  | adcResults x => cases h


theorem State.takeWords_frame (s : State) (n) : HostFrame s (s.takeWords n) :=
  ⟨rfl, rfl, rfl, rfl, rfl, rfl, rfl, rfl, rfl, rfl, rfl, id, .inl ⟨rfl, rfl⟩⟩

/-- The same for a step of the host agent. -/
theorem State.hostStep_cases {s t : State} (h : s.hostStep = .next t) :
    (∃ pol baud tm n, s.host = .ready ∧ s.fetch = .got (.command (.beginCmd pol baud)) n ∧ s.mode = .off ∧ calibrate s.cfg.fClk (baudOf baud) = some tm ∧ t = ((s.takeWords n).begun tm pol).answer .ok 0) ∨
    (∃ n, s.host = .ready ∧ s.fetch = .got (.command .endCmd) n ∧ s.mode = .on ∧ t = (s.takeWords n).ended.answer .ok 0) ∨
    HostFrame s t := by
  unfold State.hostStep at h
  split at h
  · rename_i hr
    split at h
    · rename_i d n hf
      cases d with
      | illegal w => cases h; exact .inr (.inr ((State.takeWords_frame s n).answer _ _))
      | command i =>
        rcases exec_cases (s := s.takeWords n) h with ⟨pol, baud, tm, rfl, hm, hc, ht⟩ | ⟨rfl, hm, ht⟩ | hh
        · exact .inl ⟨pol, baud, tm, n, hr, hf, hm, hc, ht⟩
        · exact .inr (.inl ⟨n, hr, hf, hm, ht⟩)
        · exact .inr (.inr ⟨hh.now, hh.cfg, hh.mode, hh.timing, hh.pol, hh.irq, hh.rx, hh.pend, hh.seq, hh.bus, hh.free, hh.rxWf, hh.tx⟩)
    · cases h; exact .inr (.inr (HostFrame.refl s))
  · cases h; exact .inr (.inr (State.writeStep_frame _ _))
  · cases h; exact .inr (.inr (State.flushOutputStep_frame _))
  · cases h; exact .inr (.inr (State.readStep_frame _ _))
  · cases h; exact .inr (.inr (State.packetWriteStep_frame _ _))

/-! ### The end of a run -/

/-- `n` steps more give an observed state only by taking steps, so it is reached and nothing at or before `tEnd` is left
(70_reset_and_hazards.md R580). -/
theorem State.observe_observed {p : Params} {pick : Nat → Nat} {tEnd : Tick} {t : State} :
    ∀ (n : Nat) (s : State), State.Reachable p s → s.observe pick tEnd n = some t → t.Observed p tEnd := by
  have stop : ∀ s : State, s.atEnd tEnd = true → State.Reachable p s → some s = some t → t.Observed p tEnd :=
    fun s he hr h => by cases h; exact ⟨hr, he⟩
  intro n
  induction n with
  | zero =>
    intro s hr h
    unfold State.observe at h
    split at h
    · exact stop s ‹_› hr h
    · cases h
  | succ n ih =>
    intro s hr h
    unfold State.observe at h
    split at h
    · exact stop s ‹_› hr h
    · split at h
      · split at h
        · exact ih _ (.next pick s _ hr ‹_›) h
        · cases h
        · cases h
      · cases h

/-- A quiescent state has nothing due and nothing under way (70_reset_and_hazards.md R580). -/
theorem State.quiescent_iff (s : State) (tEnd : Tick) :
    s.quiescent tEnd = true ↔ s.now ≤ tEnd ∧ s.dueSteps = [] ∧ tEnd < s.nextInstant ∧ s.host = .ready ∧ s.port = [] ∧
      s.tx.state = .idle ∧ s.rx.state = .idle ∧ s.pend.valid = false ∧ s.irq.msPend = false := by
  simp [State.quiescent, State.complete, State.atEnd, and_assoc]

end Sys2Proof.Machine
end

