-- ==== Sys2Proof/Laws/PerInstr.lean ====
section
/-! SUPPORT. Per-instruction laws: the first word of an encoding tells how many words it has (30_encoding.md R151). -/

namespace Sys2Proof.Laws

/-- The opcode of a format C word. -/
theorem opcOf_formatC (opc : Byte) (operand : BitVec 24) : opcOf (formatC opc operand) = opc := by
  have h : (opc ++ operand : BitVec 32).extractLsb' 24 8 = opc := by
    apply BitVec.eq_of_getLsbD_eq
    intro i hi
    simp only [BitVec.getLsbD_extractLsb', BitVec.getLsbD_append]
    simp [hi]
  exact h

/-- The first byte of a format C word whose operand ends in a byte field. -/
theorem field_formatC (opc : Byte) (hi : BitVec 16) (lo : Byte) : field (formatC opc (hi ++ lo)) 0 8 = lo := by
  have h : (opc ++ (hi ++ lo : BitVec 24) : BitVec 32).extractLsb' 0 8 = lo := by
    apply BitVec.eq_of_getLsbD_eq
    intro i hi
    simp only [BitVec.getLsbD_extractLsb', BitVec.getLsbD_append]
    simp [hi, show i < 24 by omega]
  exact h

/-- Payload bytes pack into `ceil(n / 4)` words (30_encoding.md R158). -/
theorem packBytes_length : ∀ bytes : List Byte, (packBytes bytes).length = (bytes.length + 3) / 4
  | [] => rfl
  | [a] => by simp [packBytes]
  | [a, b] => by simp [packBytes]
  | [a, b, c] => by simp [packBytes]
  | a :: b :: c :: d :: rest => by
    have h := packBytes_length rest
    have e : packBytes (a :: b :: c :: d :: rest) = (d ++ c ++ b ++ a) :: packBytes rest := by rw [packBytes]
    rw [e]
    simp only [List.length_cons, h]
    omega

/-- An encoding is not empty, and its first word tells its number of words (30_encoding.md R151). -/
def EncodedLength.Statement (i : Instr) : Prop :=
  i.wellFormed = true → ∃ w ws, encode i = w :: ws ∧ cmdWords w = ws.length + 1

/-- A single format C word with an opcode other than WRITEPACKET's has one word. -/
theorem cmdWords_formatC (opc : Byte) (operand : BitVec 24) (h : opc ≠ 0x51) : cmdWords (formatC opc operand) = 1 := by
  rw [cmdWords, opcOf_formatC, if_neg h]

theorem EncodedLength.beginCmd (pol : Bool) (baud : BitVec 23) : EncodedLength.Statement (.beginCmd pol baud) :=
  fun _ => ⟨_, _, rfl, cmdWords_formatC _ _ (by decide)⟩

theorem EncodedLength.endCmd : EncodedLength.Statement (.endCmd) :=
  fun _ => ⟨_, _, rfl, cmdWords_formatC _ _ (by decide)⟩

theorem EncodedLength.available : EncodedLength.Statement (.available) :=
  fun _ => ⟨_, _, rfl, cmdWords_formatC _ _ (by decide)⟩

theorem EncodedLength.read : EncodedLength.Statement (.read) :=
  fun _ => ⟨_, _, rfl, cmdWords_formatC _ _ (by decide)⟩

theorem EncodedLength.readError : EncodedLength.Statement (.readError) :=
  fun _ => ⟨_, _, rfl, cmdWords_formatC _ _ (by decide)⟩

theorem EncodedLength.readDelta : EncodedLength.Statement (.readDelta) :=
  fun _ => ⟨_, _, rfl, cmdWords_formatC _ _ (by decide)⟩

theorem EncodedLength.packetAvailable : EncodedLength.Statement (.packetAvailable) :=
  fun _ => ⟨_, _, rfl, cmdWords_formatC _ _ (by decide)⟩

theorem EncodedLength.flushInput : EncodedLength.Statement (.flushInput) :=
  fun _ => ⟨_, _, rfl, cmdWords_formatC _ _ (by decide)⟩

theorem EncodedLength.write (b : Byte) : EncodedLength.Statement (.write b) :=
  fun _ => ⟨_, _, rfl, cmdWords_formatC _ _ (by decide)⟩

theorem EncodedLength.writeReady : EncodedLength.Statement (.writeReady) :=
  fun _ => ⟨_, _, rfl, cmdWords_formatC _ _ (by decide)⟩

theorem EncodedLength.flushOutput : EncodedLength.Statement (.flushOutput) :=
  fun _ => ⟨_, _, rfl, cmdWords_formatC _ _ (by decide)⟩

theorem EncodedLength.setDelay (ms : Half) : EncodedLength.Statement (.setDelay ms) :=
  fun _ => ⟨_, _, rfl, cmdWords_formatC _ _ (by decide)⟩

theorem EncodedLength.setDelayTimeout (ms : Half) : EncodedLength.Statement (.setDelayTimeout ms) :=
  fun _ => ⟨_, _, rfl, cmdWords_formatC _ _ (by decide)⟩

theorem EncodedLength.setEcho (en : Bool) : EncodedLength.Statement (.setEcho en) :=
  fun _ => ⟨_, _, rfl, cmdWords_formatC _ _ (by decide)⟩

theorem EncodedLength.setAllow (bits : Byte) : EncodedLength.Statement (.setAllow bits) :=
  fun _ => ⟨_, _, rfl, cmdWords_formatC _ _ (by decide)⟩

theorem EncodedLength.setErrorMask (mask : Byte) : EncodedLength.Statement (.setErrorMask mask) :=
  fun _ => ⟨_, _, rfl, cmdWords_formatC _ _ (by decide)⟩

theorem EncodedLength.uptimeSec : EncodedLength.Statement (.uptimeSec) :=
  fun _ => ⟨_, _, rfl, cmdWords_formatC _ _ (by decide)⟩

theorem EncodedLength.uptimeMillisec : EncodedLength.Statement (.uptimeMillisec) :=
  fun _ => ⟨_, _, rfl, cmdWords_formatC _ _ (by decide)⟩

theorem EncodedLength.readPacket (gen : Byte) (feed : Byte) (maxlen : Byte) : EncodedLength.Statement (.readPacket gen feed maxlen) :=
  fun _ => ⟨_, _, rfl, cmdWords_formatC _ _ (by decide)⟩

theorem EncodedLength.setScope (operand : BitVec 24) : EncodedLength.Statement (.setScope operand) :=
  fun _ => ⟨_, _, rfl, cmdWords_formatC _ _ (by decide)⟩

theorem EncodedLength.adcResults (operand : BitVec 24) : EncodedLength.Statement (.adcResults operand) :=
  fun _ => ⟨_, _, rfl, cmdWords_formatC _ _ (by decide)⟩

theorem EncodedLength.writePacket (gen feed : Byte) (delay : Half) (payload : List Byte) :
    EncodedLength.Statement (.writePacket gen feed delay payload) := by
  intro h
  have h' : payload.length < 256 := by simpa [Instr.wellFormed] using h
  refine ⟨_, _, rfl, ?_⟩
  rw [cmdWords, opcOf_formatC, if_pos rfl, field_formatC, BitVec.toNat_ofNat, Nat.mod_eq_of_lt h', List.length_cons,
    packBytes_length]
  omega

end Sys2Proof.Laws
end

