-- ==== Sys2Proof/Tests/Slice0.lean ====
section
/-! SUPPORT. Tests. The expected values are the spec's: 95_test_vectors.md names the vector, 30_encoding.md the bits. The last part
shows, for every statement with hypotheses, a concrete state and operands that meet them. -/

namespace Sys2Proof.Tests

open Sys2Proof.Machine

/-! ### Well-formedness -/

theorem test_wellFormed_longest_payload : Instr.wellFormed (.writePacket 0xD9 0 0 (List.replicate 255 0)) = true := by decide +kernel
theorem test_illFormed_payload_too_long : Instr.wellFormed (.writePacket 0xD9 0 0 (List.replicate 256 0)) = false := by
  decide +kernel

/-! ### Decoding: the words written out from 30_encoding.md R150, R155, R156, R158, opcode bits first -/

theorem test_decode_begin : decode [0b00000001_0_00000000010010110000000] = .got (.command (.beginCmd false 9600)) 1 := by decide
theorem test_decode_begin_pol : decode [0b00000001_1_00000000010010110000000] = .got (.command (.beginCmd true 9600)) 1 := by decide
theorem test_decode_end : decode [0b00000010_000000000000000000000000] = .got (.command .endCmd) 1 := by decide
theorem test_decode_available : decode [0b00010000_000000000000000000000000] = .got (.command .available) 1 := by decide
theorem test_decode_read : decode [0b00010001_000000000000000000000000] = .got (.command .read) 1 := by decide
theorem test_decode_readError : decode [0b00010010_000000000000000000000000] = .got (.command .readError) 1 := by decide
theorem test_decode_readDelta : decode [0b00010011_000000000000000000000000] = .got (.command .readDelta) 1 := by decide
theorem test_decode_packetAvailable : decode [0b00010100_000000000000000000000000] = .got (.command .packetAvailable) 1 := by
  decide
theorem test_decode_flushInput : decode [0b00010101_000000000000000000000000] = .got (.command .flushInput) 1 := by decide
theorem test_decode_write : decode [0b00100000_0000000000000000_01011010] = .got (.command (.write 0x5A)) 1 := by decide
theorem test_decode_writeReady : decode [0b00100001_000000000000000000000000] = .got (.command .writeReady) 1 := by decide
theorem test_decode_flushOutput : decode [0b00100010_000000000000000000000000] = .got (.command .flushOutput) 1 := by decide
theorem test_decode_setDelay : decode [0b00110000_00000000_0000000000010100] = .got (.command (.setDelay 20)) 1 := by decide
theorem test_decode_setDelayTimeout : decode [0b00110001_00000000_0000100111000100] = .got (.command (.setDelayTimeout 2500)) 1 := by
  decide
theorem test_decode_setEcho : decode [0b00110010_00000000000000000000000_1] = .got (.command (.setEcho true)) 1 := by decide
theorem test_decode_setAllow : decode [0b00110011_0000000000000000_00001001] = .got (.command (.setAllow 9)) 1 := by decide
theorem test_decode_setErrorMask : decode [0b00110100_0000000000000000_01111111] = .got (.command (.setErrorMask 0x7F)) 1 := by
  decide
theorem test_decode_uptimeSec : decode [0b01000000_000000000000000000000000] = .got (.command .uptimeSec) 1 := by decide
theorem test_decode_uptimeMillisec : decode [0b01000001_000000000000000000000000] = .got (.command .uptimeMillisec) 1 := by decide
theorem test_decode_readPacket :
    decode [0b01010000_11011001_01010101_00001000] = .got (.command (.readPacket 0xD9 0x55 8)) 1 := by decide
theorem test_decode_writePacket :
    decode [0b01010001_11011001_01010101_00000101, 0b0000000000000000_0000000000010100,
      0b00000100_00000011_00000010_00000001, 0b00000000_00000000_00000000_00000101] =
    .got (.command (.writePacket 0xD9 0x55 20 [1, 2, 3, 4, 5])) 4 := by decide
theorem test_decode_setScope : decode [0b01100000_000000000000000000000001] = .got (.command (.setScope 1)) 1 := by decide
theorem test_decode_adcResults : decode [0b01100001_100000000000000000000000] = .got (.command (.adcResults 0x800000)) 1 := by
  decide

/-- V-DEC-3 to V-DEC-5, V-DEC-8, V-DEC-9. -/
theorem test_decode_illegal :
    decode [0x02000001] = .got (.illegal .reservedBits) 1 ∧ decode [0x20000100] = .got (.illegal .reservedBits) 1 ∧
    decode [0x32000002] = .got (.illegal .reservedBits) 1 ∧ decode [0x03000000] = .got (.illegal .unassignedOpc) 1 ∧
    decode [0xFF000000] = .got (.illegal .unassignedOpc) 1 := by decide

/-- V-DEC-14, V-DEC-15. -/
theorem test_decode_illegal_packet :
    decode [0x51D90002, 0x00010000, 0x00000040] = .got (.illegal .reservedDelayWord) 3 ∧
    decode [0x51D90002, 0x00000000, 0x00FF0040] = .got (.illegal .reservedPayload) 3 := by decide

/-- A WRITEPACKET whose last word has not come yet is incomplete (R151). -/
theorem test_decode_incomplete : decode [0x51D90002, 0x00000000] = .incomplete := by decide

/-- The examples of R162. -/
theorem test_assemble :
    assemble "write 0x5A" = some [0x2000005A] ∧ assemble "begin 9600" = some [0x01002580] ∧
    assemble "setDelay 20" = some [0x30000014] ∧
    assemble "writepacket 0, 0xD9, 0, 0x40, 0x00" = some [0x51D90002, 0x00000000, 0x00000040] := by decide +kernel

/-- The opcode table's numbering of a multi-word row. -/
theorem test_decodeTableWord :
    decodeTableWord 96 0x000000400000000051D90002 = some (.writePacket 0xD9 0 0 [0x40, 0x00]) ∧
    decodeTableWord 32 0x51D90005 = some (.writePacket 0xD9 0 0 [0, 0, 0, 0, 0]) := by decide

/-! ### One command or one event, on small states -/

/-- The next state, or the reset state where there is none. -/
def after (o : StepOutcome) : State :=
  match o with
  | .next t => t
  | .fault _ => State.reset
  | .refused _ => State.reset

/-- A command's result, at the head of the list. -/
def answers (o : StepOutcome) : Option Result := (after o).results.head?

/-- V-CAL-1: the timing of `begin 9600`. -/
def timing : Timing := ⟨833, 416, 520, 1249, 833, 416⟩

/-- A block after `begin 9600` at instant 0, with 0 in the registers BEGIN leaves unspecified. -/
def on : State :=
  { State.reset with
    mode := .on
    timing := timing
    irq := { rxEn := true, msIe := true, msPend := false }
    seq := { State.reset.seq with nextMs := 8000 } }

/-- The same with the words of a command at the port. -/
def asked (s : State) (ws : List Word) : State := { s with port := ws.map fun w => ⟨0, w⟩ }

/-- Program P2's packet `40 00 34` in the RX ring. -/
def received : State :=
  { on with
    rxRing := ⟨[⟨0x40, 0x00, 2⟩, ⟨0x00, 0x00, 0⟩, ⟨0x34, 0x80, 0⟩, ⟨0, 0, 0⟩, ⟨0, 0, 0⟩], 3, 0⟩ }

/-- A full RX ring: four slots, the indices wrapped. -/
def rxFull : State :=
  { on with rxRing := ⟨[⟨1, 0, 0⟩, ⟨2, 0, 0⟩, ⟨3, 0, 0⟩, ⟨4, 0, 0⟩, ⟨5, 0, 0⟩], 1, 2⟩ }

/-- A byte waits, and the TX ring is full. -/
def txFull : State :=
  { on with
    tx := { on.tx with state := .wait, byte := 1, effDelay := 2 }
    txRing := ⟨[⟨2, 0⟩, ⟨3, 0⟩, ⟨4, 0⟩, ⟨5, 7⟩, ⟨0, 0⟩], 4, 0⟩ }

/-- A byte waits, and the TX ring is empty. -/
def waiting : State := { on with tx := { on.tx with state := .wait, byte := 1, effDelay := 2 } }

/-- A byte is on the bus: its next boundary is `j`. -/
def sending (j : Fin 23) : State :=
  { on with
    irq := { rxEn := false, msIe := false, msPend := false }
    tx := { on.tx with state := .semi j, byte := 0x5A } }

/-- A byte is being received: its next bit is `r`'s. -/
def receiving (r : RxState) : State :=
  { on with irq := { on.irq with msIe := false }, rx := { on.rx with state := r, lastEdge := some 0, target := 1249 } }

/-- A byte is staged. -/
def staged : State := { on with pend := ⟨true, 0x5A, 0x04, 1⟩, rx := { on.rx with target := 19579 } }

theorem test_begin_timing : (after (exec (.beginCmd false 9600) State.reset)).timing = timing := by decide
theorem test_begin_too_slow : answers (exec (.beginCmd false 183) State.reset) = some ⟨.fail, 0, none⟩ := by decide
theorem test_end_flushes : (after (exec .endCmd txFull)).txRing.tail = 4 ∧ (after (exec .endCmd txFull)).tx.state = .idle := by decide
theorem test_available_wrapped : answers (exec .available rxFull) = some ⟨.ok, 4, none⟩ := by decide
theorem test_read_consumes :
    answers (exec .read received) = some ⟨.ok, 0x40, none⟩ ∧ (after (exec .read received)).rxRing.tail = 1 := by decide
theorem test_read_empty : answers (exec .read on) = some ⟨.empty, 0xFFFF, none⟩ := by decide
theorem test_readError_masks :
    answers (exec .readError { received with rxRing := { received.rxRing with tail := 2 }, conf := { on.conf with errMask := 0x7F } }) =
      some ⟨.ok, 0, none⟩ := by decide
theorem test_readDelta : answers (exec .readDelta received) = some ⟨.ok, 2, none⟩ := by decide
theorem test_packetAvailable : answers (exec .packetAvailable received) = some ⟨.ok, 1, none⟩ := by decide
theorem test_packetAvailable_none : answers (exec .packetAvailable rxFull) = some ⟨.ok, 0, none⟩ := by decide
theorem test_flushInput : (after (exec .flushInput received)).rxRing.tail = 3 := by decide
theorem test_write_idle_floor : (after (exec (.write 0) on)).tx.effDelay = 2 ∧ (after (exec (.write 0) on)).tx.state = .wait := by decide
theorem test_write_holds : (after (exec (.write 9) txFull)).host = .write 9 := by decide
theorem test_writeReady_full : answers (exec .writeReady txFull) = some ⟨.ok, 0, none⟩ := by decide
theorem test_flushOutput_holds : (after (exec .flushOutput txFull)).host = .flushOutput := by decide
theorem test_setDelay_off : (after (exec (.setDelay 20) State.reset)).conf.delay = 20 := by decide
theorem test_setDelayTimeout : (after (exec (.setDelayTimeout 3) State.reset)).conf.dlyTo = 3 := by decide
theorem test_setEcho : (after (exec (.setEcho false) State.reset)).conf.echo = false := by decide
theorem test_setAllow : (after (exec (.setAllow 9) State.reset)).conf.allow = 9 := by decide
theorem test_setErrorMask : (after (exec (.setErrorMask 0x7F) on)).conf.errMask = 0x7F := by decide
theorem test_uptimeSec_off : answers (exec .uptimeSec State.reset) = some ⟨.notBegun, 0, none⟩ := by decide
theorem test_uptimeMillisec :
    answers (exec .uptimeMillisec { on with seq := { on.seq with uptimeMs := 3 } }) = some ⟨.ok, 3, none⟩ := by decide
/-- Program P2: `readpacket 8, 0xD9, 0` on `40 00 34` gives `[40 00 34]`, `[00 00 80]`, delta 2. -/
theorem test_readPacket :
    answers (execThen 3 (.readPacket 0xD9 0 8) received) = some ⟨.ok, 3, some ⟨2, [0x40, 0x00, 0x34], [0x00, 0x00, 0x80]⟩⟩ := by
  decide +kernel
/-- V-PKT-2: `readpacket 2, 0xD9, 0` condenses the third byte into slot 1, and the check fails there. -/
theorem test_readPacket_condensed :
    answers (execThen 3 (.readPacket 0xD9 0 2) { received with rxRing := { received.rxRing with
      slots := [⟨0x40, 0x00, 1⟩, ⟨0x00, 0x00, 1⟩, ⟨0x35, 0x80, 1⟩, ⟨0, 0, 0⟩, ⟨0, 0, 0⟩] } }) =
      some ⟨.ok, 3, some ⟨1, [0x40, 0x00], [0x00, 0x90]⟩⟩ := by decide +kernel
/-- V-PKT-10: `40 00 34` is written. -/
theorem test_writePacket :
    answers (execThen 3 (.writePacket 0xD9 0 0 [0x40, 0x00]) on) = some ⟨.ok, 3, none⟩ ∧
    (after (execThen 3 (.writePacket 0xD9 0 0 [0x40, 0x00]) on)).txQueued = [⟨0x00, 0⟩, ⟨0x34, 0⟩] := by decide +kernel
/-- V-PKT-12: a WRITEPACKET of no byte writes `DELAY`. -/
theorem test_writePacket_empty : (after (exec (.writePacket 0 0 0 []) { on with conf := { on.conf with delay := 7 } })).conf.delay = 0 := by
  decide
/-- V-DEC-6, V-DEC-7, V-DEC-18. -/
theorem test_refused : exec (.setScope 0) on = .refused .scopeBuffer ∧ exec (.adcResults 0) on = .refused .adcResults ∧
    exec (.beginCmd false 9600) on = .refused .secondBegin := ⟨rfl, rfl, rfl⟩

/-- V-RX-1: the start edge at 10000 with `ms_since_start = 1`. -/
theorem test_edge_start :
    let t := State.edge { on with seq := { on.seq with msSinceStart := 1 } } 10000
    t.rx.target = 11249 ∧ t.rx.curDelta = 1 ∧ t.irq.msIe = false := by decide
/-- V-RX-3: 426 ticks after a genuine edge. -/
theorem test_edge_suppressed : (receiving (.data 1)).edge 426 = receiving (.data 1) := by decide
/-- V-RX-1: the stop bit's compare at 18746. -/
theorem test_stop_bit : ((receiving .stop).rxCmp 18746).rx.target = 19579 ∧ ((receiving .stop).rxCmp 18746).pend.valid = true := by decide
/-- A byte staged is committed with EOP. -/
theorem test_eop : (staged.rxCmp 19579).rxUnread = [⟨0x5A, 0x84, 1⟩] := by decide
/-- Program P5: the sample of semibit 3 reads 0, and the collision flag is set. -/
theorem test_collision_sample :
    (State.txCmp { sending 4 with bus := { on.bus with before := false } } 18082).tx.err = 0x20 := by decide
/-- Program P1: promotion at 16000 with `ms_since_start` reaching 2. -/
theorem test_promotion :
    let t := State.msBoundary { waiting with seq := { on.seq with msSinceStart := 1 } } 16000
    t.tx.state = .semi 0 ∧ t.tx.target = 16416 ∧ t.tx.delta = 2 ∧ t.seq.msSinceStart = 0 := by decide
/-- 42_tx_engine.md R314: the last boundary of a byte from `t0 = 16416` is at 25579 (program P1). -/
theorem test_last_boundary : State.boundary { sending 0 with tx := { (sending 0).tx with t0 := 16416 } } 22 = 25579 := by decide

/-- The fetch: at reset a placed word is run by the very next step. -/
theorem test_placed_word_runs : (after (step (State.reset.withFetchWord 32 0x30000014))).conf.delay = 20 := by decide

/-- 70_reset_and_hazards.md R580: the run of one setter at 5, observed at 6. -/
theorem test_run_end :
    let o := runProgram Params.vectors 833 416 false [.command 5 (.setDelay 20)] id 6 3
    (o.map fun s => (s.conf.delay, s.quiescent 6)) = some (20, true) ∧
    runProgram Params.vectors 833 416 false [.command 5 (.setScope 0)] id 6 3 = none := by decide +kernel
/-- R580: with an edge still due at `t_end` the state is not the observed one, and so not quiescent; it is when the edge comes later. -/
theorem test_not_quiescent_while_an_edge_is_due :
    State.quiescent 100 { on with now := 100, bus := { on.bus with changes := [⟨100, false⟩] } } = false ∧
    State.quiescent 100 { on with now := 100, bus := { on.bus with changes := [⟨101, false⟩] } } = true := by decide

/-! ### Witnesses: the hypotheses of each statement are met -/

theorem witness_DecodeOfEncodeIsTheCommand : Instr.wellFormed (.writePacket 0xFF 0 0xFFFF (List.replicate 255 0xFF)) = true := by
  decide +kernel
theorem witness_EncodeOfDecodeIsTheWords :
    decode [0x51D90001, 0x0000FFFF, 0x00000040, 7] = .got (.command (.writePacket 0xD9 0 0xFFFF [0x40])) 3 := by decide
theorem witness_ReservedBitsAreIllegal_word0 :
    (asked on [0x3200FFFE, 9]).host = .ready ∧ (asked on [0x3200FFFE, 9]).arrived = 0x3200FFFE :: [9] ∧
    opcOf 0x3200FFFE = 0x32 ∧ (0x3200FFFE : Word) &&& 0x00FFFFFE ≠ 0 := by decide
theorem witness_ReservedBitsAreIllegal_delay :
    (asked on [0x51000000, 0x80000000]).arrived = 0x51000000 :: 0x80000000 :: ([] ++ []) ∧ opcOf 0x51000000 = 0x51 ∧
    ([] : List Word).length = ((field 0x51000000 0 8).toNat + 3) / 4 ∧ field 0x80000000 16 16 ≠ 0 := by decide
theorem witness_ReservedBitsAreIllegal_payload :
    (asked on [0x51D90005, 0, 1, 0x01000000]).arrived = 0x51D90005 :: 0 :: ([1, 0x01000000] ++ []) ∧ opcOf 0x51D90005 = 0x51 ∧
    [(1 : Word), 0x01000000].length = ((field 0x51D90005 0 8).toNat + 3) / 4 ∧
    (field 0x51D90005 0 8).toNat ≤ 7 ∧ 7 < 4 * [(1 : Word), 0x01000000].length ∧
    field ([(1 : Word), 0x01000000].getD (7 / 4) 0) (8 * (7 % 4)) 8 ≠ 0 := by decide
theorem witness_UnassignedOpcodesAreIllegal :
    (asked on [0x62000000]).arrived = 0x62000000 :: [] ∧
    opcOf 0x62000000 ∉ ([0x01, 0x02, 0x10, 0x11, 0x12, 0x13, 0x14, 0x15, 0x20, 0x21, 0x22, 0x30, 0x31, 0x32, 0x33, 0x34, 0x40, 0x41,
      0x50, 0x51, 0x60, 0x61] : List Byte) := by decide
theorem witness_PayloadIsPackedLittleEndian : 7 < 4 * (([1, 2, 3, 4, 5] : List Byte).length + 3) / 4 := by decide
theorem witness_StepRunsTheDecodedCommand :
    (asked on [0x2000005A]).host = .ready ∧ Instr.wellFormed (.write 0x5A) = true ∧
    (asked on [0x2000005A]).arrived = encode (.write 0x5A) ++ [] ∧ (asked on [0x2000005A]).pinDue = false ∧
    (asked on [0x2000005A]).rxCmpDue = false ∧ (asked on [0x2000005A]).txCmpDue = false ∧
    (asked on [0x2000005A]).msbDue = false ∧ (asked on [0x2000005A]).msPendDue = false := by decide
theorem witness_TimePassesOnlyWhenNothingIsDue :
    (∃ t, step on = .next t ∧ on.dueSteps = [] ∧ 8000 ∈ on.agenda ∧ on.now < 8000 ∧ on.now < 1 ∧ 7999 < t.now) ∧
    (∃ t, step (asked on [0x2000005A]) = .next t ∧ (asked on [0x2000005A]).dueSteps ≠ []) :=
  ⟨⟨_, rfl, by decide⟩, ⟨_, rfl, by decide⟩⟩
theorem witness_DueStepsAreTakenInAnyOrder :
    State.dueSteps { asked on [0x2000005A] with now := 8000 } = [.msb, .host] ∧ (asked on [0x2000005A]).dueSteps = [.host] ∧
    State.dueSteps { receiving .stop with now := 1249 } = [.rxCmp] ∧ State.dueSteps { staged with now := 19579 } = [.rxCmp] ∧
    (sending 0).dueSteps = [.txCmp] ∧ State.dueSteps { on with irq := { on.irq with msPend := true } } = [.msPend] ∧
    State.dueSteps { on with bus := { on.bus with changes := [⟨0, false⟩] } } = [.pin] ∧
    State.dueSteps { on with bus := { on.bus with changes := [⟨1, false⟩] } } = [] := by decide
theorem witness_OnlyTheRefusedCommandsRefuse :
    step (asked on [0x60000000]) = .refused .scopeBuffer ∧ step (asked State.reset [0x61FFFFFF]) = .refused .adcResults ∧
    step (asked on [0x01002580]) = .refused .secondBegin := ⟨rfl, rfl, rfl⟩
theorem witness_ModeChangesOnlyByBeginAndEnd :
    (∃ t, step (asked State.reset [0x01002580]) = .next t ∧ t.mode ≠ (asked State.reset [0x01002580]).mode) ∧
    (∃ t, step (asked on [0x02000000]) = .next t ∧ t.mode ≠ (asked on [0x02000000]).mode) := ⟨⟨_, rfl, by decide⟩, ⟨_, rfl, by decide⟩⟩
theorem witness_ConfigurationChangesOnlyByItsWriters :
    (∃ t, step (asked State.reset [0x01802580]) = .next t ∧ t.timing ≠ State.reset.timing ∧ t.pol ≠ State.reset.pol) ∧
    (∃ t, step (asked on [0x32000000]) = .next t ∧ t.conf.echo ≠ on.conf.echo) ∧
    (∃ t, step (asked on [0x330000FF]) = .next t ∧ t.conf.allow ≠ on.conf.allow) ∧
    (∃ t, step (asked on [0x34000000]) = .next t ∧ t.conf.errMask ≠ on.conf.errMask) ∧
    (∃ t, step (asked on [0x31000000]) = .next t ∧ t.conf.dlyTo ≠ on.conf.dlyTo) :=
  ⟨⟨_, rfl, by decide, by decide⟩, ⟨_, rfl, by decide⟩, ⟨_, rfl, by decide⟩, ⟨_, rfl, by decide⟩, ⟨_, rfl, by decide⟩⟩
/-- `DELAY = 7`, and the host inside a command. -/
def delayed (h : HostPhase) : State := { on with conf := { on.conf with delay := 7 }, host := h }
theorem witness_ConfigurationChangesOnlyByItsWriters_delay :
    (∃ t, step (asked on [0x3000FFFF]) = .next t ∧ t.conf.delay ≠ on.conf.delay) ∧
    (∃ t, step (asked (delayed .ready) [0x2000005A]) = .next t ∧ t.conf.delay ≠ (delayed .ready).conf.delay) ∧
    (∃ t, step (asked on [0x51000000, 5]) = .next t ∧ t.conf.delay ≠ on.conf.delay) ∧
    (∃ t, step (delayed (.write 1)) = .next t ∧ t.conf.delay ≠ (delayed (.write 1)).conf.delay) ∧
    (∃ t, step (delayed (.writePacket ⟨[1], 0, 0, 0⟩)) = .next t ∧ t.conf.delay ≠ (delayed .ready).conf.delay) :=
  ⟨⟨_, rfl, by decide⟩, ⟨_, rfl, by decide⟩, ⟨_, rfl, by decide⟩, ⟨_, rfl, by decide⟩, ⟨_, rfl, by decide⟩⟩
theorem witness_InvariantHoldsAtPowerOn :
    Params.vectors.legal ∧
    Params.legal { Params.vectors with fClk := 1, rxN := 1, txN := 1, msPeriod := 1, msPhase := 1 } := by decide
theorem on_inv : on.Inv where
  cfgLegal := by decide
  rxWf := by decide
  txWf := by decide
  txIdleEmpty := by decide
  rxBusy := by decide
  txBusy := by decide
  bothFree := by decide
  pendNoEop := by decide
  outRest := by decide
  outEven := by decide
  txErrBits := by decide
  uptimeSub := by decide
  uptimeSum := by decide
theorem on_timely : on.Timely where
  derived := fun _ => ⟨by decide, by decide, by decide, by decide, rfl, rfl⟩
  rxTarget := by decide
  txTarget := by decide
  txBoundary := fun j _ h => by cases h
  nextMs := by decide
  lastEdge := fun u h => by cases h
theorem witness_EveryStepKeepsTheInvariant : on.Inv ∧ ∃ t, stepWith id on = .next t := ⟨on_inv, _, rfl⟩
theorem witness_NoEventIsEverLate : on.Inv ∧ on.Timely ∧ ∃ t, stepWith id on = .next t := ⟨on_inv, on_timely, _, rfl⟩
theorem witness_ReachableStatesSatisfyTheListedInvariants :
    Params.vectors.legal ∧ State.Reachable Params.vectors (State.powerOn Params.vectors) :=
  ⟨by decide, State.Reachable.start (State.powerOn Params.vectors).bus []⟩

/-- V-CAL-4 and V-CAL-9: the longest and the shortest bit. -/
theorem witness_BeginStartsTheBlock :
    State.reset.mode = .off ∧ (184 : BitVec 23).toNat ≠ 0 ∧ 43478 = (State.reset.cfg.fClk + (184 : BitVec 23).toNat / 2) / (184 : BitVec 23).toNat ∧
    21739 = 43478 / 2 ∧ 2 ≤ 43478 ∧ 43478 + 21739 ≤ 65535 ∧
    2 = (State.reset.cfg.fClk + (5000000 : BitVec 23).toNat / 2) / (5000000 : BitVec 23).toNat := by decide
/-- V-CAL-7, V-CAL-10 and V-CAL-5. -/
theorem witness_BeginFailsWithoutALegalTiming :
    State.reset.mode = .off ∧ (0 : BitVec 23).toNat = 0 ∧
    1 = (State.reset.cfg.fClk + (6000000 : BitVec 23).toNat / 2) / (6000000 : BitVec 23).toNat ∧ 1 < 2 ∧
    43716 = (State.reset.cfg.fClk + (183 : BitVec 23).toNat / 2) / (183 : BitVec 23).toNat ∧ 65535 < 43716 + 43716 / 2 := by decide
theorem witness_RefusedCommandsAreRefused : on.mode = .on := rfl
theorem witness_EndTearsDownTheBlock : on.mode = .on := rfl
theorem witness_CountersAreReadWithoutEffect :
    rxFull.mode = .on ∧ (rxFull.rxRing.head + (rxFull.cfg.rxN + 1) - rxFull.rxRing.tail) % (rxFull.cfg.rxN + 1) < 2 ^ 32 := by decide
theorem witness_FlushInputEmptiesTheRing : on.mode = .on := rfl
theorem witness_WriteReadyTellsWhetherAWriteHolds : on.mode = .on := rfl
theorem witness_ReadPacketNeedsRoom : on.mode = .on := rfl
theorem witness_WritePacketSetsTheDelayOnce :
    on.mode = .on ∧ ([] : List Byte) = [] ∧ (0 : Byte) = 0 ∧ (([1] : List Byte) ≠ [] ∨ (0 : Byte) ≠ 0) := by decide
/-- A WRITEPACKET of one or two payload bytes under way, `i` of them written. -/
def writing (s : State) (payload : List Byte) (gen i : Byte) : State := { s with host := .writePacket ⟨payload, gen, i, 0x55⟩ }
theorem witness_WritePacketSetsTheDelayOnce_writes :
    (writing waiting [1, 2] 0 0).host = .writePacket ⟨[1, 2], 0, 0, 0x55⟩ ∧ ([1, 2] : List Byte).length < 256 ∧
    ([1, 2] : List Byte)[(0 : Byte).toNat]? = some 1 ∧ (0 : Byte).toNat + 1 < ([1, 2] : List Byte).length ∧
    (writing waiting [1, 2] 0 0).tx.state ≠ .idle ∧
    ((writing waiting [1, 2] 0 0).txRing.head + 1) % ((writing waiting [1, 2] 0 0).cfg.txN + 1) ≠ (writing waiting [1, 2] 0 0).txRing.tail ∧
    (writing on [7] 0 0).tx.state = .idle ∧ ([7] : List Byte)[(0 : Byte).toNat]? = some 7 ∧
    (0 : Byte).toNat + 1 = ([7] : List Byte).length ∧ (0xD9 : Byte) ≠ 0 ∧
    (writing waiting [7] 0xD9 1).host = .writePacket ⟨[7], 0xD9, 1, 0x55⟩ ∧ (1 : Byte).toNat = ([7] : List Byte).length ∧
    (writing waiting [] 0xD9 0).host = .writePacket ⟨[], 0xD9, 0, 0x55⟩ ∧ (0 : Byte).toNat = ([] : List Byte).length := by decide
/-- 60_exceptions.md R512: WRITEPACKET holds while the engine is busy and the ring is full; the trailer's WRITE on a busy engine returns
(45_packet_framer.md R440, R441). -/
theorem test_writePacket_busy :
    (writing txFull [9] 0 0).dueSteps = [] ∧ (after (writing waiting [7] 0xD9 1).hostStep).txQueued = [⟨0x55, 0⟩] ∧
    answers (writing waiting [7] 0xD9 1).hostStep = some ⟨.ok, 2, none⟩ := by decide
theorem witness_CommandsNeedTheModeOn :
    State.reset.mode = .off ∧ (∀ pol baud, Instr.read ≠ .beginCmd pol baud) ∧ (∀ ms, Instr.read ≠ .setDelay ms) ∧
    (∀ ms, Instr.read ≠ .setDelayTimeout ms) ∧ (∀ en, Instr.read ≠ .setEcho en) ∧ (∀ v, Instr.read ≠ .setAllow v) ∧
    (∀ v, Instr.read ≠ .setErrorMask v) ∧ (∀ x, Instr.read ≠ .setScope x) ∧ (∀ x, Instr.read ≠ .adcResults x) := by
  refine ⟨rfl, ?_, ?_, ?_, ?_, ?_, ?_, ?_, ?_⟩ <;> intros <;> simp

theorem witness_RxCommitAddsOrFlagsTheNewestSlot :
    1 ≤ rxFull.cfg.rxN ∧ rxFull.rxRing.wf (rxFull.cfg.rxN + 1) ∧ rxFull.rxUnread.length = rxFull.cfg.rxN ∧
    rxFull.rxUnread = [⟨3, 0, 0⟩, ⟨4, 0, 0⟩, ⟨5, 0, 0⟩] ++ [⟨1, 0, 0⟩] ∧ received.rxRing.wf (received.cfg.rxN + 1) ∧
    received.rxUnread.length < received.cfg.rxN := by decide
theorem witness_TxRingIsAQueue :
    1 ≤ txFull.cfg.txN ∧ txFull.txRing.wf (txFull.cfg.txN + 1) ∧ txFull.txFull = true ∧ txFull.txRing.isEmpty = false ∧
    waiting.txRing.wf (waiting.cfg.txN + 1) ∧ waiting.txFull = false ∧ waiting.txRing.isEmpty = true := by decide
theorem witness_ReadsReturnTheHeadOfLineSlot :
    received.mode = .on ∧ received.rxRing.head ≠ received.rxRing.tail ∧
    received.rxRing.slots[received.rxRing.tail]? = some ⟨0x40, 0x00, 2⟩ := by decide
theorem witness_ReadsOfAnEmptyRing : on.mode = .on ∧ on.rxRing.head = on.rxRing.tail := by decide
theorem witness_PacketAvailableScansForEop :
    received.mode = .on ∧ 2 < (received.rxRing.head + (received.cfg.rxN + 1) - received.rxRing.tail) % (received.cfg.rxN + 1) ∧
    (received.rxRing.slots.getD ((received.rxRing.tail + 2) % (received.cfg.rxN + 1)) ⟨0, 0, 0⟩).err.getLsbD 7 = true := by decide
theorem witness_WriteStagesAByteWhenIdle : on.mode = .on ∧ on.tx.state = .idle := by decide
theorem witness_WriteQueuesAByteWhenBusy :
    waiting.mode = .on ∧ waiting.tx.state ≠ .idle ∧ (waiting.txRing.head + 1) % (waiting.cfg.txN + 1) ≠ waiting.txRing.tail := by decide
theorem witness_WriteHoldsUntilThereIsRoom :
    txFull.mode = .on ∧ txFull.tx.state ≠ .idle ∧ (txFull.txRing.head + 1) % (txFull.cfg.txN + 1) = txFull.txRing.tail ∧
    State.host { txFull with host := .write 9 } = .write 9 := by decide
theorem witness_FlushOutputWaitsForIdle :
    on.mode = .on ∧ on.tx.state = .idle ∧ txFull.mode = .on ∧ txFull.tx.state ≠ .idle ∧
    State.host { txFull with host := .flushOutput } = .flushOutput := by decide

theorem witness_EdgesAreDiscardedWhileDisabled :
    State.reset.mode = .off ∧ (sending 4).mode = .on ∧ (sending 4).irq.rxEn = false ∧ on.lineLevel = true ∧
    State.lineLevel { on with bus := { on.bus with other := false, changes := [] } } = false ∧
    State.lineLevel { on with bus := { on.bus with loopback := true, other := true }, tx := { on.tx with out := false } } = false ∧
    State.lineLevel { on with pol := true } = false ∧
    (State.takeEvent { on with bus := { on.bus with changes := [⟨0, false⟩] } } .pin).rx.state = .data 0 ∧
    (State.takeEvent { on with bus := { on.bus with other := false, changes := [⟨0, true⟩] } } .pin).rx.state = .idle := by decide
theorem witness_EarlyEdgesAreSuppressed :
    on.mode = .on ∧ on.irq.rxEn = true ∧ on.rx.lastEdge = none ∧
    (receiving (.data 1)).mode = .on ∧ (receiving (.data 1)).irq.rxEn = true ∧ (receiving (.data 1)).rx.lastEdge = some 0 ∧
    (receiving (.data 1)).cfg.suppressDiff = .exactTicks ∧ 519 - 0 < (receiving (.data 1)).timing.SUPP.toNat ∧
    (receiving (.data 1)).timing.SUPP.toNat ≤ 520 - 0 := by decide
theorem witness_StartBitBeginsAByte :
    on.mode = .on ∧ on.irq.rxEn = true ∧ on.suppressed 0 = false ∧ on.rx.state = .idle ∧ staged.pend.valid = true ∧
    staged.suppressed 10000 = false ∧ staged.rx.state = .idle := by decide
theorem witness_EdgeDecidesZeroAndCompareDecidesOne :
    (receiving (.data 7)).mode = .on ∧ (receiving (.data 7)).irq.rxEn = true ∧ (receiving (.data 7)).suppressed 833 = false ∧
    (receiving (.data 7)).rx.state = .data 7 ∧ (receiving (.data 0)).rx.state = .data 0 ∧ (receiving .parity).suppressed 833 = false ∧
    (receiving .parity).rx.state = .parity := by decide
theorem witness_StopBitStagesTheByte : (receiving .stop).rx.state = .stop := rfl
theorem witness_StopSlotEdgeBeginsTheNextByte :
    (receiving .stop).mode = .on ∧ (receiving .stop).irq.rxEn = true ∧ (receiving .stop).suppressed 833 = false ∧
    (receiving .stop).rx.state = .stop := by decide
theorem witness_SilenceCommitsWithEop : staged.rx.state = .idle := rfl
theorem witness_CleanFrameStagesItsByte :
    on.mode = .on ∧ on.irq.rxEn = true ∧ on.timing.derived ∧ on.cfg.suppressDiff = .exactTicks ∧ 9 * on.timing.T.toNat < 65536 ∧
    on.rx.state = .idle ∧ on.suppressed 10000 = false :=
  ⟨rfl, rfl, ⟨by decide, by decide, by decide, by decide, rfl, rfl⟩, by decide⟩

theorem witness_TxCompareSamplesAndDrives : (sending 0).tx.state = .semi 0 ∧ (sending 21).tx.state = .semi 21 := by decide
theorem witness_ByteIsSentAsItsFrame : (sending 0).tx.state = .semi 0 ∧ (sending 0).tx.target = 0 ∧ 0 + 1 < 23 ∧ 21 + 1 < 23 := by decide
/-- A byte flagged at its last boundary, with or without echo, and a byte staged before it. -/
def collided (echo : Bool) (err : Byte) (before : Bool) : State :=
  { sending 22 with
    conf := { on.conf with echo := echo }
    bus := { on.bus with before := before }
    pend := ⟨true, 0x33, 0, 4⟩
    tx := { (sending 22).tx with err := err } }
theorem witness_CollisionDrainsTheQueue :
    (collided true 0x02 true).tx.state = .semi 22 ∧ (collided true 0x02 true).conf.echo = true ∧ (collided false 0 false).conf.echo = false ∧
    0x02 = (if (collided true 0x02 true).bus.before = (collided true 0x02 true).tx.out then (collided true 0x02 true).tx.err
      else (collided true 0x02 true).tx.err ||| (if (collided true 0x02 true).cfg.checkSecondHalf then 0x20 else 0x00)) ∧
    0x20 = (if (collided false 0 false).bus.before = (collided false 0 false).tx.out then (collided false 0 false).tx.err
      else (collided false 0 false).tx.err ||| (if (collided false 0 false).cfg.checkSecondHalf then 0x20 else 0x00)) ∧
    (collided false 0 false).tx.state = .semi 22 ∧ (0x02 : Byte) ≠ 0 ∧ (0x20 : Byte) ≠ 0 := by decide
/-- The state at a byte's last boundary, with no echo, and the TX ring with one byte of the given delay. -/
def last (delay : Half) : State :=
  { sending 22 with
    conf := { on.conf with echo := false }
    txRing := ⟨[⟨7, delay⟩, ⟨0, 0⟩, ⟨0, 0⟩, ⟨0, 0⟩, ⟨0, 0⟩], 1, 0⟩ }
theorem witness_NextByteFollows :
    (last 0).tx.state = .semi 22 ∧ (last 0).bus.before = (last 0).tx.out ∧ (last 0).tx.err = 0 ∧
    (last 0).txRing.head ≠ (last 0).txRing.tail ∧ (last 0).txRing.slots[(last 0).txRing.tail]? = some ⟨7, 0⟩ ∧
    (last 5).tx.state = .semi 22 ∧ (last 5).txRing.slots[(last 5).txRing.tail]? = some ⟨7, 5⟩ ∧
    (sending 22).txRing.head = (sending 22).txRing.tail ∧ (last 0).conf.echo = false ∧
    (collided true 0 true).tx.state = .semi 22 ∧ (collided true 0 true).bus.before = (collided true 0 true).tx.out ∧
    (collided true 0 true).tx.err = 0 ∧ (collided true 0 true).conf.echo = true := by decide

theorem witness_BoundaryIsLatchedWhileDisabled : (sending 4).irq.msIe = false := rfl
/-- A byte has waited `wait` services with the timeout `dlyTo`, `ms` serviced milliseconds after the last start bit. -/
def waited (ms wait dlyTo : Half) : State :=
  { waiting with
    seq := { on.seq with msSinceStart := ms }
    tx := { waiting.tx with wait := wait }
    conf := { on.conf with dlyTo := dlyTo } }
/-- A boundary finds a byte due by its delay, by its timeout at the limit of the wait, not due, and no byte waiting. -/
theorem witness_ServiceCountsAMillisecond :
    (waited 1 0 9).irq.msIe = true ∧ (waited 1 0 9).tx.state = .wait ∧
    (waited 1 0 9).tx.effDelay ≤ (waited 1 0 9).seq.msSinceStart + 1 ∧
    (waited 65535 65535 65535).tx.state = .wait ∧
    (waited 65535 65535 65535).conf.dlyTo.toNat ≤ min ((waited 65535 65535 65535).tx.wait.toNat + 1) 65535 ∧
    ¬((waited 0 0 9).tx.effDelay ≤ (waited 0 0 9).seq.msSinceStart + 1 ∨
      (waited 0 0 9).conf.dlyTo.toNat ≤ min ((waited 0 0 9).tx.wait.toNat + 1) 65535) ∧
    on.irq.msIe = true ∧ on.tx.state ≠ .wait := by decide
/-- A latched boundary promotes as well (43_sequencer.md R361, R365). -/
theorem test_msPend_promotes :
    ((waited 1 0 9).takeEvent .msPend).tx.state = .semi 0 ∧ ((waited 0 0 9).takeEvent .msPend).tx.state = .wait := by decide
theorem witness_UptimeCountsSeconds :
    on.seq.uptimeSub ≠ 999 ∧ State.seq { on with seq := { on.seq with uptimeSub := 999 } } = { on.seq with uptimeSub := 999 } := by decide
/-- The counted state of `s`, when uptime is gated and a byte waits. -/
def countedOnce (s : State) : State :=
  { s with
    seq := { s.uptime.seq with msSinceStart := s.seq.msSinceStart + 1 }
    tx := { s.tx with wait := BitVec.ofNat 16 (min (s.tx.wait.toNat + 1) 65535) } }
theorem witness_WaitingByteIsPromotedWhenDue :
    waiting.tx.state = .wait ∧ waiting.cfg.uptimeGated = true ∧
    ¬(waiting.tx.effDelay ≤ (countedOnce waiting).seq.msSinceStart ∨ waiting.conf.dlyTo ≤ (countedOnce waiting).tx.wait) ∧
    waiting.tx.effDelay ≤ (countedOnce { waiting with seq := { on.seq with msSinceStart := 1 } }).seq.msSinceStart ∧
    (1 : Half) ≤ (countedOnce { waiting with conf := { on.conf with dlyTo := 1 } }).tx.wait ∧
    countedOnce waiting = { waiting with
      seq := { (if waiting.cfg.uptimeGated then waiting.uptime.seq else waiting.seq) with msSinceStart := waiting.seq.msSinceStart + 1 }
      tx := if waiting.tx.state = .wait then
          { waiting.tx with wait := BitVec.ofNat 16 (min (waiting.tx.wait.toNat + 1) 65535) }
        else waiting.tx } ∧
    on.tx.state ≠ .wait := by decide

/-- The ring of `received`, with `LENGTH_PREFIX = (0, adj)`: the first byte declares 0x40 + adj bytes. -/
def declared (adj : Int) : State := { received with cfg := { received.cfg with lengthPrefix := some (0, adj) } }
/-- A ring with one slot, with EOP. -/
def closed : State := { on with rxRing := ⟨[⟨7, 0x80, 1⟩, ⟨0, 0, 0⟩, ⟨0, 0, 0⟩, ⟨0, 0, 0⟩, ⟨0, 0, 0⟩], 1, 0⟩ }
theorem witness_ReadPacketTakesASlotOrHolds :
    on.mode = .on ∧ (8 : Byte) ≠ 0 ∧ on.rxRing.wf (on.cfg.rxN + 1) ∧ on.cfg.lengthPrefix = none ∧ on.rxRing.head = on.rxRing.tail ∧
    received.rxRing.wf (received.cfg.rxN + 1) ∧ received.rxRing.head ≠ received.rxRing.tail ∧
    received.rxRing.slots[received.rxRing.tail]? = some ⟨0x40, 0x00, 2⟩ ∧ (0x00 : Byte).getLsbD 7 = false ∧
    closed.rxRing.wf (closed.cfg.rxN + 1) ∧ closed.rxRing.head ≠ closed.rxRing.tail ∧
    closed.rxRing.slots[closed.rxRing.tail]? = some ⟨7, 0x80, 1⟩ ∧ (0x80 : Byte).getLsbD 7 = true := by decide
theorem witness_ReadPacketTakesASlotOrHolds_declared :
    (declared (-0x3F)).cfg.lengthPrefix = some (0, -0x3F) ∧ some (((0x40 : Byte).toNat : Int) + (-0x3F)) = some 1 ∧ (1 : Int) ≤ 1 ∧
    (declared (-0x3E)).cfg.lengthPrefix = some (0, -0x3E) ∧ some (((0x40 : Byte).toNat : Int) + (-0x3E)) = some 2 ∧ (1 : Int) < 2 := by decide
/-- The working registers after `n` bytes, the declared length being `d`. -/
def registers (n : Nat) (d : Option Int) : ReadRegs := { ReadRegs.start 0xD9 0 8 with n := n, decl := d }
theorem witness_ReadPacketReturnsThePacket :
    received.mode = .on ∧ (2 : Byte) ≠ 0 ∧ received.cfg.lengthPrefix = none ∧ received.rxRing.wf (received.cfg.rxN + 1) ∧
    received.rxUnread = [⟨0x40, 0x00, 2⟩, ⟨0x00, 0x00, 0⟩] ++ ⟨0x34, 0x80, 0⟩ :: [] ∧
    (∀ x ∈ ([⟨0x40, 0x00, 2⟩, ⟨0x00, 0x00, 0⟩] : List RxSlot), x.err.getLsbD 7 = false) ∧ (0x80 : Byte).getLsbD 7 = true := by
  decide
/-- `LENGTH_PREFIX = (1, 0)`: the byte at index 1 declares 0x40 bytes, or with `LEN_ADJ = −0x40` none. -/
def prefixed (adj : Int) (n : Nat) (d : Option Int) : State :=
  { received with cfg := { received.cfg with lengthPrefix := some (1, adj) }, host := .readPacket (registers n d) }
theorem witness_ReadPacketEndsAtTheDeclaredLength :
    (prefixed 0 1 none).host = .readPacket (registers 1 none) ∧ (prefixed 0 1 none).rxRing.wf ((prefixed 0 1 none).cfg.rxN + 1) ∧
    (prefixed 0 1 none).rxRing.head ≠ (prefixed 0 1 none).rxRing.tail ∧
    (prefixed 0 1 none).rxRing.slots[(prefixed 0 1 none).rxRing.tail]? = some ⟨0x40, 0x00, 2⟩ ∧ (0x00 : Byte).getLsbD 7 = false ∧
    (prefixed 0 1 none).cfg.lengthPrefix = some (1, 0) ∧
    some (0x40 : Int) = (if (registers 1 none).n = 1 then some (((0x40 : Byte).toNat : Int) + 0) else (registers 1 none).decl) ∧
    (((registers 1 none).n : Int) + 1 < 0x40) ∧
    some (2 : Int) = (if (registers 1 none).n = 1 then some (((0x40 : Byte).toNat : Int) + (-0x3E)) else (registers 1 none).decl) ∧
    ((2 : Int) ≤ ((registers 1 none).n : Int) + 1) ∧ (prefixed (-0x3E) 1 none).cfg.lengthPrefix = some (1, -0x3E) ∧
    (registers 1 none).n < (registers 1 none).maxlen.toNat ∧ ¬(registers 8 none).n < (registers 8 none).maxlen.toNat ∧
    (prefixed 0 8 none).host = .readPacket (registers 8 none) := by decide
/-- A slot with EOP, with and without a length prefix. -/
theorem witness_ReadPacketEndsAtTheDeclaredLength_eop :
    State.host { closed with host := .readPacket (registers 0 none) } = .readPacket (registers 0 none) ∧
    closed.rxRing.wf (closed.cfg.rxN + 1) ∧ closed.rxRing.head ≠ closed.rxRing.tail ∧
    closed.rxRing.slots[closed.rxRing.tail]? = some ⟨7, 0x80, 1⟩ ∧ (0x80 : Byte).getLsbD 7 = true ∧ closed.cfg.lengthPrefix = none := by
  decide
theorem witness_WritePacketQueuesPayloadAndTrailer :
    on.mode = .on ∧ ([0x40, 0x00] : List Byte).length < 256 ∧ on.tx.state = .idle ∧ on.txRing.wf (on.cfg.txN + 1) ∧
    on.txRing.head = on.txRing.tail ∧ ([0x40, 0x00, 0x34] : List Byte) = [0x40, 0x00] ++ [accumulate on.cfg.framerMode 0xD9 0 [0x40, 0x00]] ∧
    ([0x00, 0x34] : List Byte).length ≤ on.cfg.txN ∧
    ([1, 2, 3, 4] ++ [accumulate on.cfg.framerMode 0xD9 0 [1, 2, 3, 4]] : List Byte).length = on.cfg.txN + 1 := by decide +kernel
/-- A byte waits and another is queued behind it: a packet of three bytes fills the ring. -/
def queued : State := { waiting with txRing := ⟨[⟨2, 7⟩, ⟨0, 0⟩, ⟨0, 0⟩, ⟨0, 0⟩, ⟨0, 0⟩], 1, 0⟩ }
theorem witness_WritePacketQueuesPayloadAndTrailer_busy :
    queued.mode = .on ∧ queued.tx.state ≠ .idle ∧ queued.txRing.wf (queued.cfg.txN + 1) ∧
    queued.txQueued.length + ([0x40, 0x00, 0x34] : List Byte).length = queued.cfg.txN ∧
    ([0x40, 0x00, 0x34] : List Byte) = [0x40, 0x00] ++ [accumulate queued.cfg.framerMode 0xD9 0 [0x40, 0x00]] := by decide +kernel

end Sys2Proof.Tests
end

section
/-! SUPPORT. The invariant of 10_state.md R63: each engine handler, each host step and the passing of time keeps it; it holds
at power-on, and so in every reachable state. -/

namespace Sys2Proof.Machine

variable {s t : State}

/-! ### The flag bits the invariant speaks of -/

/-- A parity flag never carries `SIGNAL_EOP` (10_state.md R60). -/
theorem parityFlag_and_signalEop (par : Bool) : parityFlag par &&& signalEop = 0 := by
  cases par <;> decide

/-- Every read-back flag is one of the bits 10_state.md R50 allows in `tx_err`. -/
theorem errCode_and_mask (second : Bool) {bit half : Nat} : errCode second bit half &&& 0xDC = 0 := by
  unfold errCode
  repeat' split
  all_goals decide

/-- An error byte with only the bits of `tx_err` has no `SIGNAL_EOP`. -/
theorem and_signalEop_of_and_mask {e : Byte} (h : e &&& 0xDC = 0) : e &&& signalEop = 0 := by
  have hs : signalEop = 0xDC &&& signalEop := by decide
  rw [hs, ← BitVec.and_assoc, h]
  decide

/-- The second half of every bit is recessive (42_tx_engine.md R315). -/
theorem semibitLevel_odd (byte : Byte) (par : Bool) {j : Nat} (h : j % 2 = 1) : semibitLevel byte par j = true :=
  if_pos h

/-! ### The uptime counters -/

/-- A counted millisecond keeps the uptime counters in agreement (43_sequencer.md R363). -/
theorem State.uptime_agrees (hsub : s.seq.uptimeSub < 1000)
    (hsum : s.seq.uptimeMs = s.seq.uptimeSec * 1000 + s.seq.uptimeSub.setWidth 32) :
    s.uptime.seq.uptimeSub < 1000 ∧
      s.uptime.seq.uptimeMs = s.uptime.seq.uptimeSec * 1000 + s.uptime.seq.uptimeSub.setWidth 32 := by
  by_cases hw : s.seq.uptimeSub + 1 = 1000
  · simp only [State.uptime, hw, decide_true, if_true]
    have h999 : s.seq.uptimeSub = 999 := by bv_omega
    rw [h999] at hsum
    exact ⟨by decide, by bv_omega⟩
  · simp only [State.uptime, hw, decide_false, Bool.false_eq_true, if_false]
    exact ⟨by bv_omega, by bv_omega⟩

/-- The invariant does not look at the clocks of the sequencer, only at the uptime counters. -/
theorem State.Inv.setSeq (h : s.Inv) {q : Sequencer} (hsub : q.uptimeSub < 1000)
    (hsum : q.uptimeMs = q.uptimeSec * 1000 + q.uptimeSub.setWidth 32) : State.Inv { s with seq := q } :=
  { h with uptimeSub := hsub, uptimeSum := hsum }

theorem State.Inv.uptime (h : s.Inv) : s.uptime.Inv :=
  have ⟨hsub, hsum⟩ := State.uptime_agrees h.uptimeSub h.uptimeSum
  h.setSeq hsub hsum

/-! ### The RX engine -/

/-- While the receiver is enabled no byte is on the bus. -/
theorem State.Inv.tx_ne_semi (h : s.Inv) (hrx : s.irq.rxEn = true) (j : Fin 23) : s.tx.state ≠ .semi j := fun hj => by
  simp [(h.txBusy j hj).1] at hrx

/-- While the millisecond interrupt is enabled no byte is being received. -/
theorem State.Inv.rx_idle (h : s.Inv) (hms : s.irq.msIe = true) : s.rx.state = .idle := by
  by_contra hbusy
  simp [(h.rxBusy hbusy).1] at hms

theorem State.Inv.startBit (h : s.Inv) (hrx : s.irq.rxEn = true) (u : Tick) : (s.startBit u).Inv := by
  rw [State.startBit_eq]
  exact { h with
    rxWf := State.finalizedRing_wf h.rxWf _
    rxBusy := fun _ => ⟨rfl, hrx⟩
    txBusy := fun j hj => absurd hj (h.tx_ne_semi hrx j)
    bothFree := nofun }

theorem State.Inv.stopSlotEdge (h : s.Inv) (hrx : s.irq.rxEn = true) (u : Tick) : (s.stopSlotEdge u).Inv := by
  rw [State.stopSlotEdge_eq]
  exact { h with
    rxWf := rxCommitRing_wf (State.finalizedRing_wf h.rxWf _) _
    rxBusy := fun _ => ⟨rfl, hrx⟩
    txBusy := fun j hj => absurd hj (h.tx_ne_semi hrx j)
    bothFree := nofun
    pendNoEop := parityFlag_and_signalEop _ }

theorem State.Inv.stopBit (h : s.Inv) (hrx : s.irq.rxEn = true) (u : Tick) : (s.stopBit u).Inv := by
  rw [State.stopBit_eq]
  exact { h with
    rxWf := State.finalizedRing_wf h.rxWf _
    rxBusy := fun hbusy => absurd rfl hbusy
    txBusy := fun j hj => absurd hj (h.tx_ne_semi hrx j)
    bothFree := fun _ _ _ => ⟨hrx, rfl⟩
    pendNoEop := parityFlag_and_signalEop _ }

theorem State.Inv.finalize (h : s.Inv) (eop : Bool) : (s.finalize eop).Inv :=
  { h with rxWf := rxCommitRing_wf h.rxWf _ }

theorem RxState.nextBit_ne_idle {r : RxState} (h : r ≠ .idle) : r.nextBit ≠ .idle := by
  cases r with
  | idle => contradiction
  | data i => unfold RxState.nextBit; dsimp only; split <;> nofun
  | parity => nofun
  | stop => nofun

/-- A step from one bit of a byte to the next keeps the invariant, whatever it writes beside `rx_state`. -/
theorem State.Inv.setRx_busy (h : s.Inv) (hbusy : s.rx.state ≠ .idle) {r : RxEngine} (hr : r.state ≠ .idle) :
    State.Inv { s with rx := r } :=
  { h with
    rxBusy := fun _ => h.rxBusy hbusy
    txBusy := fun j hj => absurd hj (h.tx_ne_semi (h.rxBusy hbusy).2 j)
    bothFree := fun _ _ hidle => absurd hidle hr }

theorem State.Inv.zeroBit (h : s.Inv) (hbusy : s.rx.state ≠ .idle) : s.zeroBit.Inv :=
  h.setRx_busy hbusy (RxState.nextBit_ne_idle hbusy)

theorem State.Inv.oneBit (h : s.Inv) (hbusy : s.rx.state ≠ .idle) : s.oneBit.Inv :=
  h.setRx_busy hbusy (RxState.nextBit_ne_idle hbusy)

theorem State.Inv.dispatchEdge (h : s.Inv) (hrx : s.irq.rxEn = true) (u : Tick) : (s.dispatchEdge u).Inv := by
  unfold State.dispatchEdge
  split
  case h_1 => exact h.startBit hrx u
  case h_2 hs => exact h.zeroBit (by simp [hs])
  case h_3 hs => exact h.zeroBit (by simp [hs])
  case h_4 => exact h.stopSlotEdge hrx u

theorem State.Inv.edge (h : s.Inv) (u : Tick) : (s.edge u).Inv := by
  unfold State.edge State.handleEdge
  split
  case isTrue hrx =>
    split
    · exact h
    · exact State.Inv.dispatchEdge (s := { s with rx := { s.rx with lastEdge := some u } }) { h with } hrx.2 u
  case isFalse => exact h

theorem State.Inv.pinChange (h : s.Inv) : s.pinChange.Inv := by
  unfold State.pinChange
  split
  case h_1 => exact h
  case h_2 c rest _ =>
    have hmoved : State.Inv { s with bus := { s.bus with other := c.raw, changes := rest } } := { h with }
    dsimp only
    split
    · exact hmoved.edge _
    · exact hmoved

theorem State.Inv.rxCmp (h : s.Inv) (hrx : s.irq.rxEn = true) (u : Tick) : (s.rxCmp u).Inv := by
  unfold State.rxCmp
  split
  case h_1 hs => exact h.oneBit (by simp [hs])
  case h_2 hs => exact h.oneBit (by simp [hs])
  case h_3 => exact h.stopBit hrx u
  case h_4 => exact h.finalize true

/-! ### The TX engine -/

theorem State.Inv.sample (h : s.Inv) (j : Nat) : (s.sample j).Inv := by
  rw [State.sample_eq]
  refine { h with txErrBits := fun i hi hpos => ?_ }
  have hold := h.txErrBits i hi hpos
  dsimp only
  split
  · rw [BitVec.and_or_distrib_right, hold, errCode_and_mask]
    decide
  · exact hold

theorem State.Inv.beginByte (h : s.Inv) {j : Fin 23} (hj : s.tx.state = .semi j) (u : Tick) : (s.beginByte u).Inv :=
  { h with
    txIdleEmpty := nofun
    txBusy := fun _ _ => h.txBusy j hj
    bothFree := fun _ => nofun
    outRest := nofun
    outEven := fun i hi heven => by cases hi; cases heven
    txErrBits := fun _ _ _ => BitVec.zero_and }

theorem State.Inv.drive (h : s.Inv) {j : Fin 23} (hj : s.tx.state = .semi j) (hpos : 1 ≤ j.val) (hlt : j.val + 1 < 23) :
    (s.drive j.val hlt).Inv :=
  { h with
    txIdleEmpty := nofun
    txBusy := fun _ _ => h.txBusy j hj
    bothFree := fun _ => nofun
    outRest := nofun
    outEven := fun i hi heven => by
      cases hi
      exact semibitLevel_odd _ _ (by simp at heven; omega)
    txErrBits := fun _ _ _ => h.txErrBits j hj hpos }

theorem State.Inv.echoByte (h : s.Inv) (herr : s.tx.err &&& 0xDC = 0) : s.echoByte.Inv := by
  rw [State.echoByte_eq]
  refine { h with rxWf := ?_, pendNoEop := ?_ }
  · dsimp only
    split
    · exact State.finalizedRing_wf h.rxWf _
    · exact h.rxWf
  · dsimp only
    split
    · exact and_signalEop_of_and_mask herr
    · exact h.pendNoEop

theorem State.Inv.flushOnError (h : s.Inv) : s.flushOnError.Inv := by
  rw [State.flushOnError_eq]
  split
  · exact { h with txWf := Ring.flush_wf h.txWf, txIdleEmpty := fun _ => rfl }
  · exact h

theorem State.Inv.nextByte (h : s.Inv) {j : Fin 23} (hj : s.tx.state = .semi j) (hout : s.tx.out = true) (u : Tick) :
    (s.nextByte u).Inv := by
  rcases State.nextByte_cases s u with ⟨hempty, heq⟩ | ⟨-, -, heq⟩ | ⟨-, -, heq⟩ <;> rw [heq]
  · exact { h with
      txIdleEmpty := fun _ => hempty
      rxBusy := fun hbusy => absurd rfl hbusy
      txBusy := nofun
      bothFree := fun _ _ _ => ⟨rfl, rfl⟩
      outRest := fun _ => hout
      outEven := nofun
      txErrBits := nofun }
  · exact { h with
      txWf := Ring.consume_wf h.txWf
      txIdleEmpty := nofun
      txBusy := fun _ _ => h.txBusy j hj
      bothFree := fun _ => nofun
      outRest := nofun
      outEven := fun i hi heven => by cases hi; cases heven
      txErrBits := fun _ _ _ => BitVec.zero_and }
  · exact { h with
      txWf := Ring.consume_wf h.txWf
      txIdleEmpty := nofun
      rxBusy := fun hbusy => absurd rfl hbusy
      txBusy := nofun
      bothFree := fun _ _ _ => ⟨rfl, rfl⟩
      outRest := fun _ => hout
      outEven := nofun
      txErrBits := nofun }

theorem State.Inv.endByte (h : s.Inv) {j : Fin 23} (hj : s.tx.state = .semi j) (hpos : 1 ≤ j.val) (heven : j.val % 2 = 0)
    (u : Tick) : (s.endByte u).Inv := by
  have htx : s.echoByte.flushOnError.tx = s.tx := by rw [State.flushOnError_eq, State.echoByte_eq]
  exact (h.echoByte (h.txErrBits j hj hpos)).flushOnError.nextByte (htx ▸ hj) (htx ▸ h.outEven j hj heven) u

theorem State.sample_tx_state (s : State) (j : Nat) : (s.sample j).tx.state = s.tx.state := by rw [State.sample_eq]

theorem State.Inv.txCmp (h : s.Inv) (u : Tick) : (s.txCmp u).Inv := by
  unfold State.txCmp
  split
  case h_1 => exact h
  case h_2 => exact h
  case h_3 j hj =>
    split
    case isTrue => exact h.beginByte hj u
    case isFalse hpos =>
      have hsampled (k : Nat) : (s.sample k).tx.state = .semi j := (s.sample_tx_state k).trans hj
      split
      · exact (h.sample _).drive (hsampled _) (by omega) _
      · exact (h.sample _).endByte (hsampled _) (by omega) (by omega) u

/-! ### The sequencer -/

theorem State.Inv.waitCount (h : s.Inv) : s.waitCount.Inv := by
  unfold State.waitCount
  split
  · exact { h with }
  · exact h

theorem State.Inv.counted (h : s.Inv) : s.counted.Inv := by
  have hms : State.Inv { s with seq := { s.seq with msSinceStart := s.seq.msSinceStart + 1 } } := { h with }
  unfold State.counted
  dsimp only
  split
  · exact hms.uptime.waitCount
  · exact hms.waitCount

theorem State.Inv.promote (h : s.Inv) (hwait : s.tx.state = .wait) (hms : s.irq.msIe = true) (u : Tick) :
    (s.promote u).Inv := by
  rw [State.promote_eq]
  exact { h with
    rxWf := State.finalizedRing_wf h.rxWf _
    txIdleEmpty := nofun
    rxBusy := fun hbusy => absurd (h.rx_idle hms) hbusy
    txBusy := fun _ _ => ⟨rfl, rfl, h.rx_idle hms⟩
    bothFree := fun _ => nofun
    outRest := nofun
    outEven := fun _ _ _ => h.outRest (.inr hwait)
    txErrBits := fun i hi hpos => by cases hi; cases hpos }

theorem State.Inv.msService (h : s.Inv) (hms : s.irq.msIe = true) (u : Tick) : (s.msService u).Inv := by
  rw [State.msService_eq]
  split
  case isTrue hdue =>
    have hwait : s.counted.tx.state = .wait := by
      simp only [State.promoteDue, Bool.and_eq_true, beq_iff_eq] at hdue
      exact hdue.1
    exact h.counted.promote hwait (by rw [State.counted_eq]; exact hms) u
  case isFalse => exact h.counted

theorem State.Inv.msBoundary (h : s.Inv) (u : Tick) : (s.msBoundary u).Inv := by
  have hnext : State.Inv { s with
      seq := { (if s.cfg.uptimeGated then s.seq else s.uptime.seq) with nextMs := s.seq.nextMs + s.cfg.msPeriod } } := by
    split
    · exact { h with }
    · exact h.setSeq h.uptime.uptimeSub h.uptime.uptimeSum
  rw [State.msBoundary_eq]
  dsimp only
  split
  case isTrue hms => exact hnext.msService hms u
  case isFalse => exact { hnext with }

theorem State.Inv.msPending (h : s.Inv) (hms : s.irq.msIe = true) (u : Tick) : (s.msPending u).Inv :=
  State.Inv.msService (s := { s with irq := { s.irq with msPend := false } }) { h with } hms u

/-! ### The host agent -/

/-- A host frame, as a record update. -/
theorem HostFrame.eq (hf : HostFrame s t) :
    { s with conf := t.conf, tx := t.tx, rxRing := t.rxRing, txRing := t.txRing, host := t.host, port := t.port,
             results := t.results } = t := by
  obtain ⟨hnow, hcfg, hmode, htiming, hpol, hirq, hrx, hpend, hseq, hbus, hfree, -, -⟩ := hf
  rw [← hnow, ← hcfg, ← hmode, ← htiming, ← hpol, ← hirq, ← hrx, ← hpend, ← hseq, ← hbus, ← hfree]

theorem State.Inv.of_hostFrame (h : s.Inv) (hf : HostFrame s t) : t.Inv := by
  rw [← hf.eq]
  rcases hf.tx with ⟨htx, hring⟩ | ⟨hidle, hring, hwait, hout⟩ | ⟨hbusy, htx, x, hring⟩
  · rw [htx, hring]
    exact { h with rxWf := hf.rxWf h.rxWf }
  · have hsemi (j : Fin 23) : t.tx.state ≠ .semi j := by simp [hwait]
    rw [hring]
    exact { h with
      rxWf := hf.rxWf h.rxWf
      txIdleEmpty := fun _ => h.txIdleEmpty hidle
      txBusy := fun j hj => absurd hj (hsemi j)
      bothFree := fun hon _ => h.bothFree hon (.inl hidle)
      outRest := fun _ => hout.trans (h.outRest (.inl hidle))
      outEven := fun j hj => absurd hj (hsemi j)
      txErrBits := fun j hj => absurd hj (hsemi j) }
  · rw [htx, hring]
    exact { h with
      rxWf := hf.rxWf h.rxWf
      txWf := Ring.push_wf h.txWf x
      txIdleEmpty := fun hidle => absurd hidle hbusy }

theorem freshRxRing_wf {c : Nat} (hc : 0 < c) (f : Nat) : (freshRxRing c f).wf c := ⟨by simp [freshRxRing], hc, hc⟩

theorem freshTxRing_wf {c : Nat} (hc : 0 < c) (f : Nat) : (freshTxRing c f).wf c := ⟨by simp [freshTxRing], hc, hc⟩

theorem State.Inv.begun (h : s.Inv) (tm : Timing) (pol : Bool) : (s.begun tm pol).Inv :=
  { h with
    rxWf := freshRxRing_wf (Nat.succ_pos _) _
    txWf := freshTxRing_wf (Nat.succ_pos _) _
    txIdleEmpty := fun _ => rfl
    rxBusy := fun hbusy => absurd rfl hbusy
    txBusy := nofun
    bothFree := fun _ _ _ => ⟨rfl, rfl⟩
    outRest := fun _ => rfl
    outEven := nofun
    txErrBits := nofun
    uptimeSub := (by decide : (0 : BitVec 10) < 1000)
    uptimeSum := (by decide : (0 : Word) = 0 * 1000 + (0 : BitVec 10).setWidth 32) }

theorem State.Inv.ended (h : s.Inv) : s.ended.Inv :=
  { h with
    txWf := Ring.flush_wf h.txWf
    txIdleEmpty := fun _ => rfl
    rxBusy := fun hbusy => absurd rfl hbusy
    txBusy := nofun
    bothFree := nofun
    outRest := fun _ => rfl
    outEven := nofun
    txErrBits := nofun }

theorem State.Inv.hostStep (h : s.Inv) (ht : s.hostStep = .next t) : t.Inv := by
  rcases State.hostStep_cases ht with ⟨pol, -, tm, n, -, -, -, -, rfl⟩ | ⟨n, -, -, -, rfl⟩ | hf
  · exact { State.Inv.begun (h.of_hostFrame (s.takeWords_frame n)) tm pol with }
  · exact { State.Inv.ended (h.of_hostFrame (s.takeWords_frame n)) with }
  · exact h.of_hostFrame hf

/-! ### A step of the machine -/

theorem State.isDue_of_mem_dueSteps {d : Due} (hd : d ∈ s.dueSteps) : s.isDue d = true := (List.mem_filter.1 hd).2

theorem State.rxEn_of_rxCmpDue (hd : s.rxCmpDue = true) : s.irq.rxEn = true := by
  simp only [State.rxCmpDue, State.rxArmed, Bool.and_eq_true] at hd
  exact hd.1.1.2

theorem State.msIe_of_msPendDue (hd : s.msPendDue = true) : s.irq.msIe = true := by
  simp only [State.msPendDue, Bool.and_eq_true] at hd
  exact hd.1.2

theorem State.Inv.takeDue (h : s.Inv) {d : Due} (hd : s.isDue d = true) (ht : s.takeDue d = .next t) : t.Inv := by
  cases d with
  | pin => cases ht; exact h.pinChange
  | rxCmp => cases ht; exact h.rxCmp (State.rxEn_of_rxCmpDue hd) _
  | txCmp => cases ht; exact h.txCmp _
  | msb => cases ht; exact h.msBoundary _
  | msPend => cases ht; exact h.msPending (State.msIe_of_msPendDue hd) _
  | host => exact h.hostStep ht

theorem State.Inv.stepWith (h : s.Inv) {pick : Nat → Nat} (ht : stepWith pick s = .next t) : t.Inv := by
  rcases stepWith_cases pick s with ⟨-, heq⟩ | ⟨d, k, hd, heq⟩ <;> rw [heq] at ht
  · cases ht
    exact { h with }
  · exact State.Inv.takeDue (s := { s with free := k }) { h with } (State.isDue_of_mem_dueSteps hd) ht

/-- Settles O16: the invariant is inductive over the handlers, the host's steps and the passing of time. -/
theorem everyStepKeepsTheInvariant : Obligations.EveryStepKeepsTheInvariant :=
  fun _ _ _ h ht => h.stepWith ht

end Sys2Proof.Machine
end

section
/-! SUPPORT. Which registers a step leaves: the frame of the handlers (20_memory.md R103, 60_exceptions.md R507, R508), and
which configuration register each command writes (10_state.md R43 to R45). -/

namespace Sys2Proof.Machine

variable {s t : State}

/-! ### The frame of the handlers -/

/-- What every handler leaves: the host's side, the configuration, the time and the ring indices the host moves. -/
structure HandlerFrame (s t : State) : Prop where
  cfg : t.cfg = s.cfg
  now : t.now = s.now
  mode : t.mode = s.mode
  timing : t.timing = s.timing
  pol : t.pol = s.pol
  conf : t.conf = s.conf
  host : t.host = s.host
  port : t.port = s.port
  results : t.results = s.results
  free : t.free = s.free
  rxTail : t.rxRing.tail = s.rxRing.tail
  txHead : t.txRing.head = s.txRing.head

theorem HandlerFrame.trans {u : State} (h : HandlerFrame s t) (k : HandlerFrame t u) : HandlerFrame s u :=
  ⟨k.cfg.trans h.cfg, k.now.trans h.now, k.mode.trans h.mode, k.timing.trans h.timing, k.pol.trans h.pol, k.conf.trans h.conf,
    k.host.trans h.host, k.port.trans h.port, k.results.trans h.results, k.free.trans h.free, k.rxTail.trans h.rxTail,
    k.txHead.trans h.txHead⟩

/-- The registers of the engines, the interrupt bits and the bus level may change, and the rings at the ends the block moves. -/
theorem HandlerFrame.update (s : State) {irq : Irq} {rx : RxEngine} {pend : PendCell} {tx : TxEngine} {seq : Sequencer}
    {bus : Bus} {rxRing : Ring RxSlot} {txRing : Ring TxSlot} (hrx : rxRing.tail = s.rxRing.tail)
    (htx : txRing.head = s.txRing.head) :
    HandlerFrame s { s with
      irq := irq, rx := rx, pend := pend, tx := tx, seq := seq, bus := bus, rxRing := rxRing, txRing := txRing } :=
  ⟨rfl, rfl, rfl, rfl, rfl, rfl, rfl, rfl, rfl, rfl, hrx, htx⟩

theorem HandlerFrame.refl (s : State) : HandlerFrame s s := .update s rfl rfl

theorem State.startBit_frame (s : State) (u : Tick) : HandlerFrame s (s.startBit u) := by
  rw [State.startBit_eq]
  exact .update s (State.finalizedRing_tail _ _) rfl

theorem State.stopSlotEdge_frame (s : State) (u : Tick) : HandlerFrame s (s.stopSlotEdge u) := by
  rw [State.stopSlotEdge_eq]
  exact .update s ((rxCommitRing_tail _ _ _).trans (State.finalizedRing_tail _ _)) rfl

theorem State.stopBit_frame (s : State) (u : Tick) : HandlerFrame s (s.stopBit u) := by
  rw [State.stopBit_eq]
  exact .update s (State.finalizedRing_tail _ _) rfl

theorem State.dispatchEdge_frame (s : State) (u : Tick) : HandlerFrame s (s.dispatchEdge u) := by
  unfold State.dispatchEdge
  split
  case h_1 => exact s.startBit_frame u
  case h_2 => exact .update s rfl rfl
  case h_3 => exact .update s rfl rfl
  case h_4 => exact s.stopSlotEdge_frame u

theorem State.edge_frame (s : State) (u : Tick) : HandlerFrame s (s.edge u) := by
  unfold State.edge State.handleEdge
  split
  · split
    · exact .refl s
    · exact (HandlerFrame.update s rfl rfl).trans (State.dispatchEdge_frame _ u)
  · exact .refl s

theorem State.pinChange_frame (s : State) : HandlerFrame s s.pinChange := by
  unfold State.pinChange
  split
  case h_1 => exact .refl s
  case h_2 =>
    dsimp only
    split
    · exact (HandlerFrame.update s rfl rfl).trans (State.edge_frame _ _)
    · exact .update s rfl rfl

theorem State.rxCmp_frame (s : State) (u : Tick) : HandlerFrame s (s.rxCmp u) := by
  unfold State.rxCmp
  split
  case h_1 => exact .update s rfl rfl
  case h_2 => exact .update s rfl rfl
  case h_3 => exact s.stopBit_frame u
  case h_4 => exact .update s (rxCommitRing_tail _ _ _) rfl

theorem State.sample_frame (s : State) (j : Nat) : HandlerFrame s (s.sample j) := by
  rw [State.sample_eq]
  exact .update s rfl rfl

theorem State.echoByte_frame (s : State) : HandlerFrame s s.echoByte := by
  rw [State.echoByte_eq]
  refine .update s ?_ rfl
  split
  · exact State.finalizedRing_tail _ _
  · rfl

theorem State.flushOnError_frame (s : State) : HandlerFrame s s.flushOnError := by
  rw [State.flushOnError_eq]
  refine .update s rfl ?_
  split <;> rfl

theorem State.nextByte_frame (s : State) (u : Tick) : HandlerFrame s (s.nextByte u) := by
  rcases State.nextByte_cases s u with ⟨-, heq⟩ | ⟨-, -, heq⟩ | ⟨-, -, heq⟩ <;> rw [heq] <;> exact .update s rfl rfl

theorem State.endByte_frame (s : State) (u : Tick) : HandlerFrame s (s.endByte u) :=
  (s.echoByte_frame.trans (State.flushOnError_frame _)).trans (State.nextByte_frame _ u)

theorem State.txCmp_frame (s : State) (u : Tick) : HandlerFrame s (s.txCmp u) := by
  unfold State.txCmp
  split
  case h_1 => exact .refl s
  case h_2 => exact .refl s
  case h_3 =>
    split
    · exact .update s rfl rfl
    · split
      · exact (s.sample_frame _).trans (.update _ rfl rfl)
      · exact (s.sample_frame _).trans (State.endByte_frame _ u)

theorem State.promote_frame (s : State) (u : Tick) : HandlerFrame s (s.promote u) := by
  rw [State.promote_eq]
  exact .update s (State.finalizedRing_tail _ _) rfl

theorem State.counted_frame (s : State) : HandlerFrame s s.counted := by
  rw [State.counted_eq]
  exact .update s rfl rfl

theorem State.msService_frame (s : State) (u : Tick) : HandlerFrame s (s.msService u) := by
  rw [State.msService_eq]
  split
  · exact s.counted_frame.trans (State.promote_frame _ u)
  · exact s.counted_frame

theorem State.msBoundary_frame (s : State) (u : Tick) : HandlerFrame s (s.msBoundary u) := by
  rw [State.msBoundary_eq]
  dsimp only
  split
  · exact (HandlerFrame.update s rfl rfl).trans (State.msService_frame _ u)
  · exact .update s rfl rfl

theorem State.msPending_frame (s : State) (u : Tick) : HandlerFrame s (s.msPending u) :=
  (HandlerFrame.update s rfl rfl).trans (State.msService_frame _ u)

theorem State.takeEvent_frame (s : State) (d : Due) : HandlerFrame s (s.takeEvent d) := by
  cases d with
  | pin => exact s.pinChange_frame
  | rxCmp => exact s.rxCmp_frame _
  | txCmp => exact s.txCmp_frame _
  | msb => exact s.msBoundary_frame _
  | msPend => exact s.msPending_frame _
  | host => exact .refl s

/-! ### The parameters, the timing and the polarity -/

/-- The registers a host writes are changed by a host step only. -/
theorem stepWith_config_or_hostStep {pick : Nat → Nat} (ht : stepWith pick s = .next t) :
    (t.cfg = s.cfg ∧ t.timing = s.timing ∧ t.pol = s.pol ∧ t.conf = s.conf) ∨
    ∃ k, State.hostStep { s with free := k } = .next t := by
  rcases stepWith_cases pick s with ⟨-, heq⟩ | ⟨d, k, -, heq⟩ <;> rw [heq] at ht
  · cases ht
    exact .inl ⟨rfl, rfl, rfl, rfl⟩
  · by_cases hd : d = .host
    · subst hd
      exact .inr ⟨k, ht⟩
    · rw [State.takeDue_event _ _ hd] at ht
      cases ht
      have hf := State.takeEvent_frame { s with free := k } d
      exact .inl ⟨hf.cfg, hf.timing, hf.pol, hf.conf⟩

theorem State.hostStep_cfg (ht : s.hostStep = .next t) : t.cfg = s.cfg := by
  rcases State.hostStep_cases ht with ⟨_, _, _, _, -, -, -, -, rfl⟩ | ⟨_, -, -, -, rfl⟩ | hf
  · rfl
  · rfl
  · exact hf.cfg

/-- No step writes the parameters (00_scope.md R11). -/
theorem stepWith_cfg {pick : Nat → Nat} (ht : stepWith pick s = .next t) : t.cfg = s.cfg := by
  rcases stepWith_config_or_hostStep ht with ⟨hcfg, -⟩ | ⟨k, hk⟩
  · exact hcfg
  · exact State.hostStep_cfg (s := { s with free := k }) hk

/-- Only a BEGIN from `MODE = OFF` writes the timing and the polarity (10_state.md R43, R45). -/
theorem State.hostStep_timing (ht : s.hostStep = .next t) :
    (t.timing = s.timing ∧ t.pol = s.pol) ∨
    (s.mode = .off ∧ s.host = .ready ∧ ∃ pol baud n, s.fetch = .got (.command (.beginCmd pol baud)) n) := by
  rcases State.hostStep_cases ht with ⟨pol, baud, _, n, hready, hfetch, hoff, -, -⟩ | ⟨_, -, -, -, rfl⟩ | hf
  · exact .inr ⟨hoff, hready, pol, baud, n, hfetch⟩
  · exact .inl ⟨rfl, rfl⟩
  · exact .inl ⟨hf.timing, hf.pol⟩

/-! ### The configuration registers -/

/-- What the first step of a command can do to the configuration registers: a setter, WRITE and WRITEPACKET write one of them
(10_state.md R44, column "written by"), and every command may leave them, as a command that holds does. -/
inductive ConfWrite (c : Conf) : Instr → Conf → Prop
  | keep (i : Instr) : ConfWrite c i c
  | setDelay (ms : Half) : ConfWrite c (.setDelay ms) { c with delay := ms }
  | setDelayTimeout (ms : Half) : ConfWrite c (.setDelayTimeout ms) { c with dlyTo := ms }
  | setEcho (en : Bool) : ConfWrite c (.setEcho en) { c with echo := en }
  | setAllow (bits : Byte) : ConfWrite c (.setAllow bits) { c with allow := bits }
  | setErrorMask (mask : Byte) : ConfWrite c (.setErrorMask mask) { c with errMask := mask }
  | write (b : Byte) : ConfWrite c (.write b) { c with delay := 0 }
  | writePacket (gen feed : Byte) (delay : Half) (payload : List Byte) :
      ConfWrite c (.writePacket gen feed delay payload) { c with delay := delay }

section
variable {c c' : Conf} {i : Instr}

theorem ConfWrite.echo (h : ConfWrite c i c') (hne : c'.echo ≠ c.echo) : i = .setEcho c'.echo := by
  cases h with
  | setEcho en => rfl
  | _ => exact absurd rfl hne

theorem ConfWrite.allow (h : ConfWrite c i c') (hne : c'.allow ≠ c.allow) : i = .setAllow c'.allow := by
  cases h with
  | setAllow bits => rfl
  | _ => exact absurd rfl hne

theorem ConfWrite.errMask (h : ConfWrite c i c') (hne : c'.errMask ≠ c.errMask) : i = .setErrorMask c'.errMask := by
  cases h with
  | setErrorMask mask => rfl
  | _ => exact absurd rfl hne

theorem ConfWrite.dlyTo (h : ConfWrite c i c') (hne : c'.dlyTo ≠ c.dlyTo) : i = .setDelayTimeout c'.dlyTo := by
  cases h with
  | setDelayTimeout ms => rfl
  | _ => exact absurd rfl hne

theorem ConfWrite.delay (h : ConfWrite c i c') (hne : c'.delay ≠ c.delay) :
    i = .setDelay c'.delay ∨ (∃ b, i = .write b ∧ c'.delay = 0) ∨
      ∃ gen feed payload, i = .writePacket gen feed c'.delay payload := by
  cases h with
  | setDelay ms => exact .inl rfl
  | write b => exact .inr (.inl ⟨b, rfl, rfl⟩)
  | writePacket gen feed delay payload => exact .inr (.inr ⟨gen, feed, payload, rfl⟩)
  | _ => exact absurd rfl hne

end

/-- A WRITE consumes `DELAY` and writes no other configuration register (42_tx_engine.md R300, R301). -/
theorem State.writeByte_conf (s : State) (b : Byte) : (s.writeByte b).conf = { s.conf with delay := 0 } := by
  by_cases h : s.tx.state = .idle
  · rw [State.writeByte_idle h]
  · rw [State.writeByte_busy h]

theorem State.writeStep_conf (s : State) (b : Byte) :
    (s.writeStep b).conf = s.conf ∨ (s.writeStep b).conf = { s.conf with delay := 0 } := by
  unfold State.writeStep
  split
  · exact .inr (s.writeByte_conf b)
  · exact .inl rfl

theorem State.flushOutputStep_conf (s : State) : s.flushOutputStep.conf = s.conf := by
  unfold State.flushOutputStep
  split <;> rfl

theorem State.readStep_conf (s : State) (r : ReadRegs) : (s.readStep r).conf = s.conf := by
  unfold State.readStep
  split
  · rfl
  · rcases State.readIteration_cases s r with ⟨-, heq⟩ | ⟨-, heq⟩ <;> rw [heq] <;> rfl

theorem State.writeContinue_conf (s : State) (w : WriteRegs) : (s.writeContinue w).conf = s.conf := by
  unfold State.writeContinue
  split <;> rfl

theorem State.packetWriteStep_conf (s : State) (w : WriteRegs) :
    (s.packetWriteStep w).conf = s.conf ∨ (s.packetWriteStep w).conf = { s.conf with delay := 0 } := by
  unfold State.packetWriteStep State.packetWrite
  split
  · split
    · exact .inr ((State.writeContinue_conf _ _).trans (s.writeByte_conf _))
    · split
      · exact .inl rfl
      · exact .inr (s.writeByte_conf _)
  · exact .inl rfl

/-- A read of the RX ring leaves the configuration registers if its answer does. -/
theorem State.unlessEmpty_conf (s : State) {f : State → State} (hf : (f s).conf = s.conf) :
    (s.unlessEmpty f).conf = s.conf := by
  unfold State.unlessEmpty
  split
  · rfl
  · exact hf

theorem ConfWrite.of_eq {c c' : Conf} (h : c' = c) (i : Instr) : ConfWrite c i c' := h ▸ .keep i

/-- A command that needs `MODE = ON` writes nothing while `OFF` (30_encoding.md R154). -/
theorem ConfWrite.of_whenOn {i : Instr} {f : State → StepOutcome} (ht : s.whenOn f = .next t)
    (hf : ∀ v, f s = .next v → ConfWrite s.conf i v.conf) : ConfWrite s.conf i t.conf := by
  unfold State.whenOn at ht
  split at ht
  · exact hf t ht
  · cases ht
    exact .keep i

/-- The same for a command whose step while `ON` is the state `v`. -/
theorem ConfWrite.of_whenOn_next {i : Instr} {f : State → State} (ht : (s.whenOn fun s => .next (f s)) = .next t)
    (hf : ConfWrite s.conf i (f s).conf) : ConfWrite s.conf i t.conf :=
  .of_whenOn ht fun _ hv => by cases hv; exact hf

theorem exec_confWrite {i : Instr} (ht : exec i s = .next t) : ConfWrite s.conf i t.conf := by
  cases i with
  | beginCmd pol baud =>
    simp only [exec, execBegin] at ht
    split at ht
    · cases ht
    · split at ht <;> cases ht <;> exact .keep _
  | endCmd =>
    simp only [exec, execEnd] at ht
    exact .of_whenOn_next ht (.keep _)
  | available =>
    simp only [exec, execAvailable] at ht
    exact .of_whenOn_next ht (.keep _)
  | read =>
    simp only [exec, execRead] at ht
    exact .of_whenOn_next ht (.of_eq (s.unlessEmpty_conf rfl) _)
  | readError =>
    simp only [exec, execReadError] at ht
    exact .of_whenOn_next ht (.of_eq (s.unlessEmpty_conf rfl) _)
  | readDelta =>
    simp only [exec, execReadDelta] at ht
    exact .of_whenOn_next ht (.of_eq (s.unlessEmpty_conf rfl) _)
  | packetAvailable =>
    simp only [exec, execPacketAvailable] at ht
    exact .of_whenOn_next ht (.keep _)
  | flushInput =>
    simp only [exec, execFlushInput] at ht
    exact .of_whenOn_next ht (.keep _)
  | write b =>
    simp only [exec, execWrite] at ht
    refine .of_whenOn_next ht ?_
    rcases s.writeStep_conf b with heq | heq <;> rw [heq]
    · exact .keep _
    · exact .write b
  | writeReady =>
    simp only [exec, execWriteReady] at ht
    exact .of_whenOn_next ht (.keep _)
  | flushOutput =>
    simp only [exec, execFlushOutput] at ht
    exact .of_whenOn_next ht (.of_eq s.flushOutputStep_conf _)
  | setDelay ms => cases ht; exact .setDelay ms
  | setDelayTimeout ms => cases ht; exact .setDelayTimeout ms
  | setEcho en => cases ht; exact .setEcho en
  | setAllow bits => cases ht; exact .setAllow bits
  | setErrorMask mask => cases ht; exact .setErrorMask mask
  | uptimeSec =>
    simp only [exec, execUptimeSec] at ht
    exact .of_whenOn_next ht (.keep _)
  | uptimeMillisec =>
    simp only [exec, execUptimeMillisec] at ht
    exact .of_whenOn_next ht (.keep _)
  | readPacket gen feed maxlen =>
    simp only [exec, execReadPacket] at ht
    refine .of_whenOn ht fun v hv => ?_
    split at hv <;> cases hv
    · exact .keep _
    · exact .of_eq (s.readStep_conf _) _
  | writePacket gen feed delay payload =>
    simp only [exec, execWritePacket] at ht
    refine .of_whenOn_next ht ?_
    rw [State.writeContinue_conf]
    exact .writePacket gen feed delay payload
  | setScope operand => cases ht
  | adcResults operand => cases ht

/-- A host step writes the configuration registers as the command it begins does, or is a WRITE under way that consumes
`DELAY`. -/
theorem State.hostStep_conf (ht : s.hostStep = .next t) :
    (s.host = .ready ∧ ∃ i n, s.fetch = .got (.command i) n ∧ ConfWrite s.conf i t.conf) ∨
    (((∃ b, s.host = .write b) ∨ ∃ w, s.host = .writePacket w) ∧ t.conf = { s.conf with delay := 0 }) ∨
    t.conf = s.conf := by
  unfold State.hostStep at ht
  split at ht
  case h_1 hready =>
    split at ht
    case h_1 d n hfetch =>
      cases d with
      | command i => exact .inl ⟨hready, i, n, hfetch, exec_confWrite (s := s.takeWords n) ht⟩
      | illegal why => cases ht; exact .inr (.inr rfl)
    case h_2 => cases ht; exact .inr (.inr rfl)
  case h_2 b hhost =>
    cases ht
    exact .inr ((s.writeStep_conf b).symm.imp_left fun heq => ⟨.inl ⟨b, hhost⟩, heq⟩)
  case h_3 => cases ht; exact .inr (.inr s.flushOutputStep_conf)
  case h_4 => cases ht; exact .inr (.inr (s.readStep_conf _))
  case h_5 w hhost =>
    cases ht
    exact .inr ((s.packetWriteStep_conf w).symm.imp_left fun heq => ⟨.inr ⟨w, hhost⟩, heq⟩)

/-- Settles O13: only a host step writes these registers, and which one it writes is told by the command it begins or is in. -/
theorem configurationChangesOnlyByItsWriters : Obligations.ConfigurationChangesOnlyByItsWriters := by
  intro s t ht
  refine ⟨stepWith_cfg ht, ?_⟩
  rcases stepWith_config_or_hostStep ht with ⟨-, htiming, hpol, hconf⟩ | ⟨k, hk⟩
  · simp [htiming, hpol, hconf]
  refine ⟨fun hne => (State.hostStep_timing hk).resolve_left fun ⟨htiming, hpol⟩ => hne.elim (· htiming) (· hpol), ?_⟩
  rcases State.hostStep_conf hk with ⟨hready, i, n, hfetch, hw⟩ | ⟨hhost, hconf⟩ | hconf
  · exact ⟨fun hne => ⟨hready, n, hw.echo hne ▸ hfetch⟩, fun hne => ⟨hready, n, hw.allow hne ▸ hfetch⟩,
      fun hne => ⟨hready, n, hw.errMask hne ▸ hfetch⟩, fun hne => ⟨hready, n, hw.dlyTo hne ▸ hfetch⟩,
      fun hne => .inl ⟨hready, i, n, hfetch, hw.delay hne⟩⟩
  · rw [hconf]
    exact ⟨nofun, nofun, nofun, nofun, fun _ => .inr ⟨hhost, rfl⟩⟩
  · simp [hconf]

/-! ### Power-on and the reachable states -/

/-- Settles O14: each value is the one `State.powerOn` writes. -/
theorem powerOnState : Obligations.PowerOnState :=
  fun _ => ⟨rfl, rfl, rfl, rfl, rfl, rfl, rfl⟩

theorem State.powerOn_inv {p : Params} (hp : p.legal) : (State.powerOn p).Inv where
  cfgLegal := hp
  rxWf := ⟨List.length_replicate, Nat.succ_pos _, Nat.succ_pos _⟩
  txWf := ⟨List.length_replicate, Nat.succ_pos _, Nat.succ_pos _⟩
  txIdleEmpty := fun _ => rfl
  rxBusy := fun hbusy => absurd rfl hbusy
  txBusy := nofun
  bothFree := nofun
  pendNoEop := BitVec.zero_and
  outRest := fun _ => rfl
  outEven := nofun
  txErrBits := nofun
  uptimeSub := (by decide : (0 : BitVec 10) < 1000)
  uptimeSum := (by decide : (0 : Word) = 0 * 1000 + (0 : BitVec 10).setWidth 32)

theorem State.powerOn_timely (p : Params) : (State.powerOn p).Timely where
  derived := nofun
  rxTarget := nofun
  txTarget := nofun
  txBoundary := nofun
  nextMs := nofun
  lastEdge := nofun

theorem Params.vectors_legal : Params.vectors.legal := by decide

/-- Settles O15: the block is off, its rings are empty and no event is armed. -/
theorem invariantHoldsAtPowerOn : Obligations.InvariantHoldsAtPowerOn :=
  ⟨fun p hp => ⟨State.powerOn_inv hp, State.powerOn_timely p⟩, State.powerOn_inv Params.vectors_legal,
    State.powerOn_timely Params.vectors⟩

/-- The invariant holds in every reachable state, and the parameters are those of the run. -/
theorem State.Reachable.inv {p : Params} (hp : p.legal) (hr : State.Reachable p s) : s.Inv ∧ s.cfg = p := by
  induction hr with
  | start bus port => exact ⟨{ State.powerOn_inv hp with }, rfl⟩
  | next pick s t _ ht ih => exact ⟨ih.1.stepWith ht, (stepWith_cfg ht).trans ih.2⟩

theorem Ring.count_eq_zero_of_eq {α : Type} {r : Ring α} (c : Nat) (h : r.head = r.tail) : r.count c = 0 := by
  simp [Ring.count, h]

/-- Settles O18: each item is a field of the invariant, which every reachable state satisfies. -/
theorem reachableStatesSatisfyTheListedInvariants : Obligations.ReachableStatesSatisfyTheListedInvariants := by
  intro p s hp hr
  obtain ⟨h, rfl⟩ := hr.inv hp
  obtain ⟨-, hrxHead, hrxTail⟩ := h.rxWf
  obtain ⟨-, htxHead, htxTail⟩ := h.txWf
  have hbit : s.pend.err.getLsbD 7 = false := by
    have hand := congrArg (·.getLsbD 7) h.pendNoEop
    simpa [signalEop] using hand
  exact ⟨⟨hrxHead, hrxTail, htxHead, htxTail⟩, fun hidle => Ring.count_eq_zero_of_eq _ (h.txIdleEmpty hidle), h.rxBusy,
    h.txBusy, h.bothFree, hbit, h.outRest⟩

end Sys2Proof.Machine
end

section
/-! SUPPORT. 20_memory.md: what the handlers leave to the host, and both rings as queues of their unread slots. -/

namespace Sys2Proof.Machine

/-- Settles O11: every conjunct is a field of the frame that each handler keeps. -/
theorem handlersLeaveTheHostSideAlone : Obligations.HandlersLeaveTheHostSideAlone := fun s d =>
  have hf := s.takeEvent_frame d
  ⟨hf.rxTail, hf.txHead, hf.host, hf.port, hf.results, hf.conf, hf.cfg, hf.mode, hf.timing, hf.pol, hf.now, hf.free⟩

/-! ### A ring by its unread slots -/

section
variable {α : Type} {c : Nat} {r : Ring α}

theorem Ring.unread_length_lt (h : r.wf c) (d : α) : (r.unread d c).length < c :=
  (Ring.unread_length d).trans_lt (Ring.count_lt h)

theorem Ring.full_iff_unread (h : r.wf c) (d : α) : r.full c = true ↔ (r.unread d c).length + 1 = c := by
  rw [Ring.full_iff h, Ring.unread_length]

theorem Ring.isEmpty_iff_unread (h : r.wf c) (d : α) : r.isEmpty = true ↔ r.unread d c = [] := by
  rw [Ring.isEmpty_iff h, ← List.length_eq_zero_iff, Ring.unread_length]

/-- The newest slot is the last unread one, so changing it leaves the older ones. -/
theorem Ring.unread_modifyNewest_concat (h : r.wf c) {d newest : α} {older : List α} (f : α → α)
    (hu : r.unread d c = older ++ [newest]) : (r.modifyNewest c f).unread d c = older ++ [f newest] := by
  have hcount : r.count c = older.length + 1 := by simpa [Ring.unread_length] using congrArg List.length hu
  rw [Ring.unread_modifyNewest h (by omega), hu, hcount, Nat.add_sub_cancel, List.modify_eq_take_cons_drop]
  · simp
  · simp

end

/-! ### The RX ring -/

section
variable {c : Nat} {r : Ring RxSlot}

/-- `RxCommit` on a ring with room adds its slot at the end (20_memory.md R110). -/
theorem rxCommitRing_unread_of_room (h : r.wf c) (d x : RxSlot) (hroom : (r.unread d c).length + 1 ≠ c) :
    (rxCommitRing c x r).unread d c = r.unread d c ++ [x] := by
  have hfull : r.full c = false := Bool.eq_false_iff.2 (mt (Ring.full_iff_unread h d).1 hroom)
  rw [rxCommitRing, if_neg (by simp [hfull]), Ring.unread_push h hfull]

/-- `RxCommit` on a full ring drops its slot and flags the newest unread one (20_memory.md R110). -/
theorem rxCommitRing_unread_of_full (h : r.wf c) (x : RxSlot) {d newest : RxSlot} {older : List RxSlot}
    (hfull : (r.unread d c).length + 1 = c) (hu : r.unread d c = older ++ [newest]) :
    (rxCommitRing c x r).unread d c = older ++ [newest.overrun] := by
  rw [rxCommitRing, if_pos ((Ring.full_iff_unread h d).2 hfull), Ring.unread_modifyNewest_concat h _ hu]

end

/-- Settles O25: the two branches of `RxCommit`, told apart by the number of unread slots. -/
theorem rxCommitAddsOrFlagsTheNewestSlot : Obligations.RxCommitAddsOrFlagsTheNewestSlot := by
  intro s x _ hwf
  refine ⟨fun hroom => ?_, fun older newest hfull hu => ?_, ?_, rxCommitRing_wf hwf x⟩
  · exact rxCommitRing_unread_of_room hwf _ x (Nat.add_lt_add_right hroom 1).ne
  · exact rxCommitRing_unread_of_full hwf x (congrArg (· + 1) hfull) hu
  · exact Nat.le_of_lt_succ (Ring.unread_length_lt hwf _)

/-! ### The TX ring -/

/-- Settles O26: an enqueue is a push and a dequeue a consume, and fullness and emptiness are counts of the queued slots. -/
theorem txRingIsAQueue : Obligations.TxRingIsAQueue := by
  intro s x _ hwf
  refine ⟨fun hroom => ?_, fun hne => ?_, ?_, ?_⟩
  · exact Ring.unread_push hwf hroom _ x
  · exact Ring.unread_consume hwf hne _
  · exact (Ring.full_iff_unread hwf TxSlot.zero).trans Nat.succ_inj
  · exact Ring.isEmpty_iff_unread hwf _

end Sys2Proof.Machine
end

section
/-! SUPPORT. 30_encoding.md: what the decoder reads from a word of format C and from the words of format P, and that it is the
inverse of the encoder on both. -/

namespace Sys2Proof.Encoding

open Laws

/-! ### The bit fields of a word -/

/-- A field below the opcode is a field of the operand bits (30_encoding.md R150). -/
theorem field_formatC_operand (opc : Byte) (x : BitVec 24) {lo len : Nat} (h : lo + len ≤ 24) :
    field (formatC opc x) lo len = x.extractLsb' lo len :=
  BitVec.extractLsb'_append_eq_of_add_le h

theorem formatC_opcOf_field (w : Word) : formatC (opcOf w) (field w 0 24) = w :=
  BitVec.extractLsb'_append_extractLsb' (w := 8) (len := 24)

/-- Two fields side by side are one field. -/
theorem field_append_field (w : Word) (lo m n : Nat) : field w (lo + m) n ++ field w lo m = field w lo (n + m) :=
  BitVec.extractLsb'_append_extractLsb'_eq_extractLsb' rfl

theorem field_one (w : Word) (lo : Nat) : field w lo 1 = BitVec.ofBool (w.getLsbD lo) := by
  ext i hi
  obtain rfl : i = 0 := by omega
  simp [field]

theorem getLsbD_of_field_one {w : Word} {lo : Nat} {b : Bool} (h : field w lo 1 = BitVec.ofBool b) : w.getLsbD lo = b := by
  rw [field_one] at h
  simpa using congrArg (BitVec.getLsbD · 0) h

theorem field_formatC_half (opc z : Byte) (v : Half) : field (formatC opc (z ++ v)) 0 16 = v := by
  rw [field_formatC_operand _ _ (by decide), BitVec.extractLsb'_append_eq_right]

theorem getLsbD_formatC_zero (opc : Byte) (z : BitVec 23) (b : Bool) :
    (formatC opc (z ++ BitVec.ofBool b)).getLsbD 0 = b :=
  getLsbD_of_field_one (by rw [field_formatC_operand _ _ (by decide), BitVec.extractLsb'_append_eq_right])

theorem fields_formatC_bit (opc : Byte) (b : Bool) (v : BitVec 23) :
    (formatC opc (BitVec.ofBool b ++ v)).getLsbD 23 = b ∧ field (formatC opc (BitVec.ofBool b ++ v)) 0 23 = v :=
  ⟨getLsbD_of_field_one (by rw [field_formatC_operand _ _ (by decide), BitVec.extractLsb'_append_eq_left]),
    by rw [field_formatC_operand _ _ (by decide), BitVec.extractLsb'_append_eq_right]⟩

theorem field_formatC_full (opc : Byte) (x : BitVec 24) : field (formatC opc x) 0 24 = x := by
  rw [field_formatC_operand _ _ (by decide), BitVec.extractLsb'_eq_self]

/-- The three byte fields of READPACKET's word and of WRITEPACKET's word 0. -/
theorem fields_formatC_bytes (opc a b c : Byte) :
    field (formatC opc (a ++ b ++ c)) 16 8 = a ∧ field (formatC opc (a ++ b ++ c)) 8 8 = b ∧
      field (formatC opc (a ++ b ++ c)) 0 8 = c := by
  refine ⟨?_, ?_, field_formatC opc (a ++ b) c⟩
  all_goals rw [field_formatC_operand _ _ (by decide), BitVec.extractLsb'_append_eq_of_le (by decide)]
  · exact BitVec.extractLsb'_append_eq_left
  · exact BitVec.extractLsb'_append_eq_right

/-! ### The reserved bits of a format C word (30_encoding.md R157) -/

/-- The reserved bits of a word are 0 exactly when the operand bits above its fields are. -/
theorem append_and_reserved_eq_zero_iff {n k : Nat} (opc : Byte) (hi : BitVec n) (lo : BitVec k) :
    (opc ++ (hi ++ lo)) &&& (0#8 ++ (BitVec.allOnes n ++ 0#k)) = 0#(8 + (n + k)) ↔ hi = 0#n := by
  rw [BitVec.and_append, BitVec.and_append, BitVec.and_allOnes, BitVec.and_zero, BitVec.and_zero,
    ← BitVec.zero_append_zero, ← BitVec.zero_append_zero, BitVec.append_right_inj, BitVec.append_left_inj]

/-- A word whose reserved bits are 0 is its opcode, zeros and its field. -/
theorem eq_append_of_reserved {n k : Nat} {w : BitVec (8 + (n + k))}
    (h : w &&& (0#8 ++ (BitVec.allOnes n ++ 0#k)) = 0#(8 + (n + k))) :
    w = w.extractLsb' (n + k) 8 ++ (0#n ++ w.extractLsb' 0 k) := by
  have hoperand : w.extractLsb' k n ++ w.extractLsb' 0 k = w.extractLsb' 0 (n + k) :=
    BitVec.extractLsb'_append_extractLsb'_eq_extractLsb' (Nat.zero_add k).symm
  have hw : w.extractLsb' (n + k) 8 ++ (w.extractLsb' k n ++ w.extractLsb' 0 k) = w := by
    rw [hoperand, BitVec.extractLsb'_append_extractLsb']
  rw [← hw, append_and_reserved_eq_zero_iff] at h
  rw [← h, hw]

section
variable {w : Word} {opc : Byte}

theorem formatC_field_eq (hopc : (opcOf w).toNat = opc.toNat) : formatC opc (field w 0 24) = w := by
  rw [← BitVec.eq_of_toNat_eq hopc, formatC_opcOf_field]

theorem formatC_bytes_eq (hopc : (opcOf w).toNat = opc.toNat) :
    formatC opc (field w 16 8 ++ field w 8 8 ++ field w 0 8) = w := by
  rw [field_append_field w 8 8 8, field_append_field w 0 8 16, formatC_field_eq hopc]

theorem formatC_bit_field_eq (hopc : (opcOf w).toNat = opc.toNat) :
    formatC opc (BitVec.ofBool (w.getLsbD 23) ++ field w 0 23) = w := by
  rw [← field_one, field_append_field w 0 23 1, formatC_field_eq hopc]

theorem formatC_zero_eq (hopc : (opcOf w).toNat = opc.toNat) (h : w &&& 0x00FFFFFF = 0) : formatC opc 0 = w := by
  rw [← BitVec.eq_of_toNat_eq hopc]
  exact .symm ((eq_append_of_reserved (n := 24) (k := 0) h).trans (by simp [formatC, opcOf, field]))

theorem formatC_byte_eq (hopc : (opcOf w).toNat = opc.toNat) (h : w &&& 0x00FFFF00 = 0) :
    formatC opc ((0 : BitVec 16) ++ field w 0 8) = w := by
  rw [← BitVec.eq_of_toNat_eq hopc]
  exact (eq_append_of_reserved (n := 16) (k := 8) h).symm

theorem formatC_half_eq (hopc : (opcOf w).toNat = opc.toNat) (h : w &&& 0x00FF0000 = 0) :
    formatC opc ((0 : BitVec 8) ++ field w 0 16) = w := by
  rw [← BitVec.eq_of_toNat_eq hopc]
  exact (eq_append_of_reserved (n := 8) (k := 16) h).symm

theorem formatC_bit_eq (hopc : (opcOf w).toNat = opc.toNat) (h : w &&& 0x00FFFFFE = 0) :
    formatC opc ((0 : BitVec 23) ++ BitVec.ofBool (w.getLsbD 0)) = w := by
  rw [← BitVec.eq_of_toNat_eq hopc, ← field_one]
  exact (eq_append_of_reserved (n := 23) (k := 1) h).symm

end

theorem formatC_zero_and_reserved (opc : Byte) : formatC opc 0 &&& 0x00FFFFFF = 0 :=
  (append_and_reserved_eq_zero_iff opc 0#24 0#0).2 rfl

theorem formatC_byte_and_reserved (opc b : Byte) : formatC opc ((0 : BitVec 16) ++ b) &&& 0x00FFFF00 = 0 :=
  (append_and_reserved_eq_zero_iff opc 0#16 b).2 rfl

theorem formatC_half_and_reserved (opc : Byte) (v : Half) : formatC opc ((0 : BitVec 8) ++ v) &&& 0x00FF0000 = 0 :=
  (append_and_reserved_eq_zero_iff opc 0#8 v).2 rfl

theorem formatC_bit_and_reserved (opc : Byte) (b : BitVec 1) : formatC opc ((0 : BitVec 23) ++ b) &&& 0x00FFFFFE = 0 :=
  (append_and_reserved_eq_zero_iff opc 0#23 b).2 rfl

/-! ### Format C: the decoder is the inverse of the encoder -/

theorem checked_eq_command_iff {w m : Word} {i j : Instr} : checked w m i = .command j ↔ w &&& m = 0 ∧ i = j := by
  by_cases h : w &&& m = 0
  · rw [checked, if_pos h, Decoded.command.injEq, and_iff_right h]
  · exact iff_of_false (by rw [checked, if_neg h]; nofun) fun hand => h hand.1

/-- A row with reserved bits decodes to its command only from the command's word. -/
theorem encode_of_checked {w m : Word} {i j : Instr} (h : checked w m i = .command j)
    (hi : w &&& m = 0 → encode i = [w]) : encode j = [w] := by
  obtain ⟨hm, rfl⟩ := checked_eq_command_iff.1 h
  exact hi hm

/-- A command of format C is decoded only from its own word. -/
theorem encode_of_decodeC {w : Word} {i : Instr} (h : decodeC w = .command i) : encode i = [w] := by
  unfold decodeC at h
  split at h
  case h_1 hopc =>
    cases h
    rw [encode, formatC_bit_field_eq hopc]
  case h_2 hopc | h_3 hopc | h_4 hopc | h_5 hopc | h_6 hopc | h_7 hopc | h_8 hopc | h_10 hopc | h_11 hopc | h_17 hopc
      | h_18 hopc =>
    exact encode_of_checked h fun hm => by rw [encode, formatC_zero_eq hopc hm]
  case h_9 hopc | h_15 hopc | h_16 hopc =>
    exact encode_of_checked h fun hm => by rw [encode, formatC_byte_eq hopc hm]
  case h_12 hopc | h_13 hopc =>
    exact encode_of_checked h fun hm => by rw [encode, formatC_half_eq hopc hm]
  case h_14 hopc =>
    exact encode_of_checked h fun hm => by rw [encode, formatC_bit_eq hopc hm]
  case h_19 hopc =>
    cases h
    rw [encode, formatC_bytes_eq hopc]
  case h_20 hopc | h_21 hopc =>
    cases h
    rw [encode, formatC_field_eq hopc]
  case h_22 => cases h

/-- The word of a command of format C decodes to the command. -/
theorem decodeC_of_encode {w : Word} {i : Instr} (h : encode i = [w]) : decodeC w = .command i := by
  cases i with
  | beginCmd pol baud =>
    cases h
    obtain ⟨hpol, hbaud⟩ := fields_formatC_bit 0x01 pol baud
    rw [decodeC, opcOf_formatC, hpol, hbaud]
    rfl
  | endCmd | available | read | readError | readDelta | packetAvailable | flushInput | writeReady | flushOutput | uptimeSec
  | uptimeMillisec =>
    cases h
    rw [decodeC, opcOf_formatC]
    exact checked_eq_command_iff.2 ⟨formatC_zero_and_reserved _, rfl⟩
  | write v | setAllow v | setErrorMask v =>
    cases h
    rw [decodeC, opcOf_formatC]
    exact checked_eq_command_iff.2 ⟨formatC_byte_and_reserved _ _, by rw [field_formatC]⟩
  | setDelay ms | setDelayTimeout ms =>
    cases h
    rw [decodeC, opcOf_formatC]
    exact checked_eq_command_iff.2 ⟨formatC_half_and_reserved _ _, by rw [field_formatC_half]⟩
  | setEcho en =>
    cases h
    rw [decodeC, opcOf_formatC]
    exact checked_eq_command_iff.2 ⟨formatC_bit_and_reserved _ _, by rw [getLsbD_formatC_zero]⟩
  | readPacket gen feed maxlen =>
    cases h
    obtain ⟨hgen, hfeed, hmaxlen⟩ := fields_formatC_bytes 0x50 gen feed maxlen
    rw [decodeC, opcOf_formatC, hgen, hfeed, hmaxlen]
    rfl
  | setScope x | adcResults x =>
    cases h
    rw [decodeC, opcOf_formatC, field_formatC_full]
    rfl
  | writePacket gen feed delay payload => cases h

/-! ### The payload of WRITEPACKET (30_encoding.md R158) -/

theorem wordBytes_injective : Function.Injective wordBytes := by
  intro w v h
  obtain ⟨h0, h1, h2, h3⟩ : field w 0 8 = field v 0 8 ∧ field w 8 8 = field v 8 8 ∧ field w 16 8 = field v 16 8 ∧
      field w 24 8 = field v 24 8 := by simpa [wordBytes] using h
  rw [← formatC_bytes_eq (w := w) rfl, ← formatC_bytes_eq (w := v) rfl, opcOf, opcOf, h0, h1, h2, h3]

/-- A byte field above the lowest byte is a byte field of the rest. -/
theorem extractLsb'_append_byte {n : Nat} (x : BitVec n) (y : Byte) (k : Nat) :
    (x ++ y).extractLsb' (k + 8) 8 = x.extractLsb' k 8 :=
  BitVec.extractLsb'_append_eq_of_le (Nat.le_add_left 8 k)

/-- Byte 0 is the least significant (30_encoding.md R158). -/
theorem wordBytes_append (d c b a : Byte) : wordBytes (d ++ c ++ b ++ a) = [a, b, c, d] := by
  have h0 : field (d ++ c ++ b ++ a) 0 8 = a := BitVec.extractLsb'_append_eq_right
  have h1 : field (d ++ c ++ b ++ a) 8 8 = b :=
    (extractLsb'_append_byte (d ++ c ++ b) a 0).trans BitVec.extractLsb'_append_eq_right
  have h2 : field (d ++ c ++ b ++ a) 16 8 = c :=
    (extractLsb'_append_byte (d ++ c ++ b) a 8).trans
      ((extractLsb'_append_byte (d ++ c) b 0).trans BitVec.extractLsb'_append_eq_right)
  have h3 : field (d ++ c ++ b ++ a) 24 8 = d :=
    (extractLsb'_append_byte (d ++ c ++ b) a 16).trans
      ((extractLsb'_append_byte (d ++ c) b 8).trans BitVec.extractLsb'_append_eq_left)
  rw [wordBytes, h0, h1, h2, h3]

theorem length_flatMap_wordBytes (ws : List Word) : (ws.flatMap wordBytes).length = 4 * ws.length := by
  simp [List.length_flatMap, wordBytes, Nat.mul_comm]

theorem flatMap_wordBytes_injective : Function.Injective (List.flatMap wordBytes)
  | [], [], _ => rfl
  | w :: ws, v :: vs, h => by
    obtain ⟨hw, hws⟩ := List.append_inj (s₁ := wordBytes w) (s₂ := wordBytes v) h rfl
    rw [wordBytes_injective hw, flatMap_wordBytes_injective hws]

/-- Byte `k` of a sequence of words is byte `k mod 4` of word `k div 4`. -/
theorem getElem?_flatMap_wordBytes : ∀ (ws : List Word) (k : Nat),
    (ws.flatMap wordBytes)[k]? = ws[k / 4]?.map fun w => field w (8 * (k % 4)) 8
  | [], _ => rfl
  | w :: ws, 0 | w :: ws, 1 | w :: ws, 2 | w :: ws, 3 => rfl
  | w :: ws, k + 4 => by
    rw [Nat.add_div_right k (by decide), Nat.add_mod_right]
    exact getElem?_flatMap_wordBytes ws k

/-- The number of zero bytes after a payload of `n` bytes, up to the end of its last word. -/
def padding (n : Nat) : Nat := 4 * ((n + 3) / 4) - n

theorem flatMap_wordBytes_packBytes : ∀ bytes : List Byte,
    (packBytes bytes).flatMap wordBytes = bytes ++ List.replicate (padding bytes.length) 0
  | [] => rfl
  | [a] => (wordBytes_append 0 0 0 a).trans (by simp [padding, List.replicate_succ])
  | [a, b] => (wordBytes_append 0 0 b a).trans (by simp [padding, List.replicate_succ])
  | [a, b, c] => (wordBytes_append 0 c b a).trans (by simp [padding, List.replicate_succ])
  | a :: b :: c :: d :: rest => by
    have hpad : padding (rest.length + 1 + 1 + 1 + 1) = padding rest.length := by unfold padding; omega
    rw [packBytes, List.flatMap_cons, wordBytes_append, flatMap_wordBytes_packBytes rest]
    simp only [List.length_cons, hpad, List.cons_append, List.nil_append]

theorem getElem?_flatMap_packBytes {bytes : List Byte} {i : Nat} (h : i < 4 * ((bytes.length + 3) / 4)) :
    ((packBytes bytes).flatMap wordBytes)[i]? = some (bytes.getD i 0) := by
  rw [flatMap_wordBytes_packBytes, List.getElem?_append, List.getD_eq_getElem?_getD]
  split
  · rw [List.getElem?_eq_getElem ‹_›, Option.getD_some]
  · rename_i hi
    rw [List.getElem?_replicate, if_pos (by unfold padding; omega), List.getElem?_eq_none (by omega), Option.getD_none]

/-- Words whose bytes from `n` on are 0 are the packing of their first `n` bytes. -/
theorem packBytes_take_flatMap {ws : List Word} {n : Nat} (hws : ws.length = (n + 3) / 4)
    (hzero : ∀ b ∈ (ws.flatMap wordBytes).drop n, b = 0) : packBytes ((ws.flatMap wordBytes).take n) = ws := by
  have hlen : (ws.flatMap wordBytes).length = 4 * ((n + 3) / 4) := by rw [length_flatMap_wordBytes, hws]
  have htake : ((ws.flatMap wordBytes).take n).length = n := by rw [List.length_take]; omega
  have hdrop : (ws.flatMap wordBytes).drop n = List.replicate (padding n) 0 :=
    List.eq_replicate_iff.2 ⟨by rw [List.length_drop, hlen, padding], hzero⟩
  apply flatMap_wordBytes_injective
  rw [flatMap_wordBytes_packBytes, htake, ← hdrop, List.take_append_drop]

/-! ### Format P: the decoder is the inverse of the encoder -/

/-- WRITEPACKET's words decode to a command exactly when their reserved bits are 0, and then to the fields (30_encoding.md R157, R158). -/
theorem decodeP_eq_command_iff {w0 w1 : Word} {pay : List Word} {i : Instr} :
    decodeP w0 w1 pay = .command i ↔
      field w1 16 16 = 0 ∧ (∀ b ∈ (pay.flatMap wordBytes).drop (field w0 0 8).toNat, b = 0) ∧
        .writePacket (field w0 16 8) (field w0 8 8) (field w1 0 16) ((pay.flatMap wordBytes).take (field w0 0 8).toNat) = i := by
  simp only [decodeP]
  split
  case isTrue hdelay => exact iff_of_false nofun fun h => hdelay h.1
  case isFalse hdelay =>
    split
    case isTrue hany =>
      obtain ⟨b, hb, hne⟩ := List.any_eq_true.1 hany
      exact iff_of_false nofun fun h => of_decide_eq_true hne (h.2.1 b hb)
    case isFalse hany =>
      have hzero : ∀ b ∈ (pay.flatMap wordBytes).drop (field w0 0 8).toNat, b = 0 := by simpa using hany
      rw [Decoded.command.injEq, and_iff_right (not_not.1 hdelay), and_iff_right hzero]

theorem decodeP_illegal {w0 w1 : Word} {pay : List Word}
    (h : field w1 16 16 ≠ 0 ∨ ∃ b ∈ (pay.flatMap wordBytes).drop (field w0 0 8).toNat, b ≠ 0) :
    ∃ why, decodeP w0 w1 pay = .illegal why := by
  cases hd : decodeP w0 w1 pay with
  | illegal why => exact ⟨why, rfl⟩
  | command i =>
    obtain ⟨hdelay, hzero, -⟩ := decodeP_eq_command_iff.1 hd
    rcases h with hne | ⟨b, hb, hne⟩
    · exact absurd hdelay hne
    · exact absurd (hzero b hb) hne

theorem zero_append_field_eq {w : Word} (h : field w 16 16 = 0) : (0 : BitVec 16) ++ field w 0 16 = w := by
  rw [← h]
  exact BitVec.extractLsb'_append_extractLsb' (w := 16) (len := 16)

/-- A WRITEPACKET is decoded only from its own words. -/
theorem encode_of_decodeP {w0 w1 : Word} {pay : List Word} {i : Instr} (hopc : opcOf w0 = 0x51)
    (hpay : pay.length = ((field w0 0 8).toNat + 3) / 4) (h : decodeP w0 w1 pay = .command i) :
    i.wellFormed = true ∧ encode i = w0 :: w1 :: pay := by
  obtain ⟨hdelay, hzero, rfl⟩ := decodeP_eq_command_iff.1 h
  have hlen : ((pay.flatMap wordBytes).take (field w0 0 8).toNat).length = (field w0 0 8).toNat := by
    rw [List.length_take, length_flatMap_wordBytes]; omega
  constructor
  · rw [Instr.wellFormed, hlen]
    exact decide_eq_true (field w0 0 8).isLt
  · rw [encode, hlen, BitVec.ofNat_toNat, BitVec.setWidth_eq, formatC_bytes_eq (congrArg BitVec.toNat hopc),
      zero_append_field_eq hdelay, packBytes_take_flatMap hpay hzero]

/-- The words of a well-formed WRITEPACKET decode to it. -/
theorem decodeP_of_encode (gen feed : Byte) (delay : Half) {payload : List Byte} (h : payload.length < 256) :
    decodeP (formatC 0x51 (gen ++ feed ++ BitVec.ofNat 8 payload.length)) ((0 : BitVec 16) ++ delay) (packBytes payload) =
      .command (.writePacket gen feed delay payload) := by
  obtain ⟨hgen, hfeed, hlen⟩ := fields_formatC_bytes 0x51 gen feed (BitVec.ofNat 8 payload.length)
  have hhigh : field ((0 : BitVec 16) ++ delay) 16 16 = 0 := BitVec.extractLsb'_append_eq_left
  have hlow : field ((0 : BitVec 16) ++ delay) 0 16 = delay := BitVec.extractLsb'_append_eq_right
  have hn : (BitVec.ofNat 8 payload.length).toNat = payload.length := Nat.mod_eq_of_lt h
  rw [decodeP_eq_command_iff, hgen, hfeed, hlen, hhigh, hlow, hn, flatMap_wordBytes_packBytes]
  simp

/-! ### The command at the front of the words -/

theorem decode_formatC {w : Word} (h : opcOf w ≠ 0x51) (rest : List Word) : decode (w :: rest) = .got (decodeC w) 1 := by
  have hwords : cmdWords w = 1 := if_neg h
  simp only [decode]
  rw [hwords, if_neg (by omega), if_neg h]

theorem decode_formatP {w0 w1 : Word} {pay : List Word} (hopc : opcOf w0 = 0x51)
    (hpay : pay.length = ((field w0 0 8).toNat + 3) / 4) (rest : List Word) :
    decode (w0 :: w1 :: (pay ++ rest)) = .got (decodeP w0 w1 pay) (2 + pay.length) := by
  have hwords : cmdWords w0 = 2 + pay.length := by rw [cmdWords, if_pos hopc, hpay]
  have htake : (pay ++ rest).take (2 + pay.length - 2) = pay := by simp
  rw [decode, hwords, if_neg (by simp; omega), if_pos hopc]
  simp only [htake]

/-- Complete words begin with one word of format C, or with as many words of format P as word 0 says (30_encoding.md R151). -/
theorem decode_got_cases {ws : List Word} {d : Decoded} {n : Nat} (h : decode ws = .got d n) :
    (∃ w rest, ws = w :: rest ∧ d = decodeC w ∧ n = 1) ∨
    (∃ w0 w1 pay rest, ws = w0 :: w1 :: (pay ++ rest) ∧ opcOf w0 = 0x51 ∧
      pay.length = ((field w0 0 8).toNat + 3) / 4 ∧ d = decodeP w0 w1 pay ∧ n = 2 + pay.length) := by
  cases ws with
  | nil => cases h
  | cons w0 rest =>
    by_cases hopc : opcOf w0 = 0x51
    · have hwords : cmdWords w0 = 2 + ((field w0 0 8).toNat + 3) / 4 := if_pos hopc
      by_cases hlen : rest.length + 1 < cmdWords w0
      · simp only [decode, if_pos hlen] at h
        cases h
      · cases rest with
        | nil => exact absurd hlen (by rw [hwords, List.length_nil]; omega)
        | cons w1 more =>
          rw [List.length_cons, hwords] at hlen
          have hpay : (more.take (((field w0 0 8).toNat + 3) / 4)).length = ((field w0 0 8).toNat + 3) / 4 := by
            rw [List.length_take]; omega
          have hmore := List.take_append_drop (((field w0 0 8).toNat + 3) / 4) more
          rw [← hmore, decode_formatP hopc hpay] at h
          cases h
          exact .inr ⟨w0, w1, _, _, by rw [hmore], hopc, hpay, rfl, rfl⟩
    · rw [decode_formatC hopc] at h
      cases h
      exact .inl ⟨w0, rest, rfl, rfl, rfl⟩

/-- The opcodes that word 0 of a format C command can have (30_encoding.md R155, R172). -/
def opcodesC : List Byte :=
  [0x01, 0x02, 0x10, 0x11, 0x12, 0x13, 0x14, 0x15, 0x20, 0x21, 0x22, 0x30, 0x31, 0x32, 0x33, 0x34, 0x40, 0x41, 0x50, 0x60, 0x61]

/-- Every opcode outside the table is illegal (30_encoding.md R159). -/
theorem decodeC_unassigned {w : Word} (h : opcOf w ∉ opcodesC) : decodeC w = .illegal .unassignedOpc := by
  have hne : ∀ n ∈ opcodesC.map BitVec.toNat, (opcOf w).toNat ≠ n := by
    intro n hn heq
    obtain ⟨opc, hopc, rfl⟩ := List.mem_map.1 hn
    exact h (BitVec.eq_of_toNat_eq heq ▸ hopc)
  unfold decodeC
  split
  case h_22 => rfl
  all_goals
    rename_i hopc
    exact absurd hopc (hne _ (by decide))

theorem opcOf_of_decodeC {w : Word} {i : Instr} (h : decodeC w = .command i) : opcOf w ≠ 0x51 := by
  intro hopc
  rw [decodeC_unassigned (by rw [hopc]; decide)] at h
  cases h

/-- A command is a WRITEPACKET or one word of format C. -/
theorem encode_cases (i : Instr) :
    (∃ gen feed delay payload, i = .writePacket gen feed delay payload) ∨ ∃ w, encode i = [w] := by
  cases i with
  | writePacket gen feed delay payload => exact .inl ⟨gen, feed, delay, payload, rfl⟩
  | _ => exact .inr ⟨_, rfl⟩

theorem wellFormed_of_encode_singleton {i : Instr} {w : Word} (h : encode i = [w]) : i.wellFormed = true := by
  cases i with
  | writePacket gen feed delay payload => cases h
  | _ => rfl

/-- Settles O1: each of the two formats is decoded back. -/
theorem decodeOfEncodeIsTheCommand : Obligations.DecodeOfEncodeIsTheCommand := by
  intro i rest hwf
  rcases encode_cases i with ⟨gen, feed, delay, payload, rfl⟩ | ⟨w, hw⟩
  · have hlt : payload.length < 256 := of_decide_eq_true hwf
    have hpay : (packBytes payload).length =
        ((field (formatC 0x51 (gen ++ feed ++ BitVec.ofNat 8 payload.length)) 0 8).toNat + 3) / 4 := by
      rw [packBytes_length, field_formatC, BitVec.toNat_ofNat, Nat.mod_eq_of_lt hlt]
    have h := decode_formatP (w1 := (0 : BitVec 16) ++ delay) (opcOf_formatC _ _) hpay rest
    rw [decodeP_of_encode gen feed delay hlt, Nat.add_comm 2] at h
    exact h
  · have h := decodeC_of_encode hw
    rw [hw, List.singleton_append, decode_formatC (opcOf_of_decodeC h), h, List.length_singleton]

/-- Settles O2: the words of each format are the encoding of what they decode to. -/
theorem encodeOfDecodeIsTheWords : Obligations.EncodeOfDecodeIsTheWords := by
  intro ws i n h
  rcases decode_got_cases h with ⟨w, rest, rfl, hd, rfl⟩ | ⟨w0, w1, pay, rest, rfl, hopc, hpay, hd, rfl⟩
  · have henc := encode_of_decodeC hd.symm
    exact ⟨wellFormed_of_encode_singleton henc, by simp, by rw [henc]; rfl⟩
  · obtain ⟨hwf, henc⟩ := encode_of_decodeP hopc hpay hd.symm
    refine ⟨hwf, by simp; omega, ?_⟩
    rw [henc, Nat.add_comm 2]
    simp

/-- Settles O6: payload byte `i` of the packed words is byte `i mod 4` of word `i div 4`. -/
theorem payloadIsPackedLittleEndian : Obligations.PayloadIsPackedLittleEndian := by
  intro gen feed delay payload i hi
  have hbyte := getElem?_flatMap_packBytes hi
  rw [getElem?_flatMap_wordBytes, Option.map_eq_some_iff] at hbyte
  obtain ⟨w, hw, hfield⟩ := hbyte
  exact ⟨w, by rw [Nat.add_comm]; exact hw, hfield⟩

/-- Settles O3: each listed word is decoded by evaluation. -/
theorem listedWordsDecodeAsListed : Obligations.ListedWordsDecodeAsListed := by
  unfold Obligations.ListedWordsDecodeAsListed
  decide

end Sys2Proof.Encoding
end

section
/-! SUPPORT. 30_encoding.md and 60_exceptions.md R511: what a ready host does with the words at its port, and the commands that
`MODE` decides. -/

namespace Sys2Proof.Machine

open Encoding

variable {s : State}

/-! ### A ready host and the words at its port -/

theorem State.hostStep_command {i : Instr} {n : Nat} (hready : s.host = .ready) (h : decode s.arrived = .got (.command i) n) :
    s.hostStep = exec i (s.takeWords n) := by
  simp only [State.hostStep, hready, State.fetch, h, State.issue]

/-- An illegal command takes its words and changes nothing else (30_encoding.md R157, R159). -/
theorem State.hostStep_illegal {why : Illegal} {n : Nat} (hready : s.host = .ready)
    (h : decode s.arrived = .got (.illegal why) n) :
    s.hostStep = .next { s with port := s.port.drop n, results := ⟨.illegal, 0, none⟩ :: s.results } := by
  simp only [State.hostStep, hready, State.fetch, h, State.issue, State.answer, State.takeWords]

/-! ### Illegal words -/

/-- The opcodes of format C that have reserved bits, with those bits (30_encoding.md R155, R157). -/
def reservedRows : List (Byte × Word) :=
  [(0x02, 0x00FFFFFF), (0x10, 0x00FFFFFF), (0x11, 0x00FFFFFF), (0x12, 0x00FFFFFF), (0x13, 0x00FFFFFF),
    (0x14, 0x00FFFFFF), (0x15, 0x00FFFFFF), (0x20, 0x00FFFF00), (0x21, 0x00FFFFFF), (0x22, 0x00FFFFFF),
    (0x30, 0x00FF0000), (0x31, 0x00FF0000), (0x32, 0x00FFFFFE), (0x33, 0x00FFFF00), (0x34, 0x00FFFF00),
    (0x40, 0x00FFFFFF), (0x41, 0x00FFFFFF)]

/-- Each of these opcodes is checked against its reserved bits. -/
theorem decodeC_reservedRow {w : Word} {row : Byte × Word} (hrow : row ∈ reservedRows) (hopc : opcOf w = row.1) :
    ∃ i, decodeC w = checked w row.2 i := by
  unfold decodeC
  rw [hopc]
  simp only [reservedRows] at hrow
  fin_cases hrow <;> exact ⟨_, rfl⟩

theorem decode_reservedRow {w : Word} {row : Byte × Word} (hrow : row ∈ reservedRows) (hopc : opcOf w = row.1)
    (hset : w &&& row.2 ≠ 0) (rest : List Word) : decode (w :: rest) = .got (.illegal .reservedBits) 1 := by
  have hnotP : (0x51 : Byte) ∉ reservedRows.map Prod.fst := by decide
  have hC : opcOf w ≠ 0x51 := fun h => hnotP (h ▸ hopc ▸ List.mem_map_of_mem hrow)
  obtain ⟨i, hi⟩ := decodeC_reservedRow hrow hopc
  rw [decode_formatC hC, hi, checked, if_neg hset]

/-- A payload byte at or past `n` is among the bytes that follow the first `n`. -/
theorem exists_mem_drop_flatMap {pay : List Word} {n k : Nat} (hn : n ≤ k) (hk : k < 4 * pay.length)
    (hne : field (pay.getD (k / 4) 0) (8 * (k % 4)) 8 ≠ 0) : ∃ b ∈ (pay.flatMap wordBytes).drop n, b ≠ 0 := by
  have hword : pay[k / 4]? = some (pay.getD (k / 4) 0) := by
    rw [List.getD_eq_getElem _ _ (by omega)]
    exact List.getElem?_eq_getElem _
  refine ⟨_, List.mem_of_getElem? (i := k - n) ?_, hne⟩
  rw [List.getElem?_drop, Nat.add_sub_cancel' hn, getElem?_flatMap_wordBytes, hword, Option.map_some]

/-- Settles O4: a set reserved bit is found by the check of its row, or by one of the two checks of WRITEPACKET. -/
theorem reservedBitsAreIllegal : Obligations.ReservedBitsAreIllegal := by
  intro s hready
  constructor
  · intro row hrow w rest harr hopc hset
    exact State.hostStep_illegal hready (harr ▸ decode_reservedRow hrow hopc hset rest)
  · intro w0 w1 pay rest harr hopc hpay hset
    obtain ⟨why, hwhy⟩ := decodeP_illegal (w0 := w0) (w1 := w1) (pay := pay)
      (hset.imp_right fun ⟨k, hlen, hk, hne⟩ => exists_mem_drop_flatMap hlen hk hne)
    exact State.hostStep_illegal hready (by rw [harr, decode_formatP hopc hpay, hwhy])

/-- Settles O5: a word with an unassigned opcode is one word of format C, outside its table. -/
theorem unassignedOpcodesAreIllegal : Obligations.UnassignedOpcodesAreIllegal := by
  intro s w rest hready harr hopc
  have hC : opcOf w ≠ 0x51 := fun h => hopc (by rw [h]; decide)
  have hunassigned : opcOf w ∉ opcodesC := fun h => hopc ((by decide : opcodesC ⊆ _) h)
  exact State.hostStep_illegal hready (by rw [harr, decode_formatC hC, decodeC_unassigned hunassigned])

/-! ### A step that runs a command -/

/-- A host step that alone is due is the step. -/
theorem step_of_dueSteps_host (h : s.dueSteps = [.host]) : step s = s.hostStep := by
  simp only [step, stepWith, h, State.takeDue]

/-- Settles O7: the command at the port makes the host's step due, and it is the only one. -/
theorem stepRunsTheDecodedCommand : Obligations.StepRunsTheDecodedCommand := by
  intro s i rest hready hwf harr hpin hrx htx hmsb hms
  have hdecode : decode s.arrived = .got (.command i) (encode i).length := by
    rw [harr, decodeOfEncodeIsTheCommand i rest hwf]
  have hhost : s.hostDue = true := by simp only [State.hostDue, hready, State.fetch, hdecode]
  have hdue : s.dueSteps = [.host] := by
    simp [State.dueSteps, State.isDue, hpin, hrx, htx, hmsb, hms, hhost]
  rw [step_of_dueSteps_host hdue, State.hostStep_command hready hdecode, State.takeWords]

/-! ### The commands that `MODE` decides -/

theorem State.whenOn_off (h : s.mode = .off) (f : State → StepOutcome) : s.whenOn f = .next (s.answer .notBegun 0) := by
  rw [State.whenOn, h]

theorem execBegin_on (h : s.mode = .on) (pol : Bool) (baud : BitVec 23) :
    exec (.beginCmd pol baud) s = .refused .secondBegin := by
  simp only [exec, execBegin, h]

/-- Settles O21: BEGIN's branch for `MODE = ON`, and the two commands that have no other outcome. -/
theorem refusedCommandsAreRefused : Obligations.RefusedCommandsAreRefused :=
  ⟨fun _ pol baud hon => execBegin_on hon pol baud, fun _ _ => rfl, fun _ _ => rfl⟩

/-- Settles O24: every command that is not excepted is performed under the mode check. -/
theorem commandsNeedTheModeOn : Obligations.CommandsNeedTheModeOn := by
  intro s i hoff hbegin hdelay htimeout hecho hallow hmask hscope hadc
  cases i with
  | beginCmd pol baud => exact absurd rfl (hbegin pol baud)
  | setDelay ms => exact absurd rfl (hdelay ms)
  | setDelayTimeout ms => exact absurd rfl (htimeout ms)
  | setEcho en => exact absurd rfl (hecho en)
  | setAllow v => exact absurd rfl (hallow v)
  | setErrorMask v => exact absurd rfl (hmask v)
  | setScope x => exact absurd rfl (hscope x)
  | adcResults x => exact absurd rfl (hadc x)
  | _ =>
    simp only [exec]
    exact State.whenOn_off hoff _

end Sys2Proof.Machine
end

section
/-! SUPPORT. 40_calibrator_control.md: when BEGIN derives a timing and which, what BEGIN and END answer, and that no event is due
while `MODE = OFF` (70_reset_and_hazards.md R553). -/

namespace Sys2Proof.Machine

variable {s : State}

/-! ### The timing BEGIN derives -/

/-- Zero extension keeps the number (30_encoding.md R152). -/
theorem baudOf_eq_toNat (baud : BitVec 23) : baudOf baud = baud.toNat :=
  BitVec.toNat_setWidth_of_le (by decide)

/-- 40_calibrator_control.md R201 to R203: a legal timing fits the registers, so each register holds its number exactly. -/
theorem exists_calibrate_eq_some {fClk baud T S : Nat} (hbaud : baud ≠ 0) (hT : T = (fClk + baud / 2) / baud)
    (hS : S = T / 2) (hlow : 2 ≤ T) (hhigh : T + S ≤ 65535) :
    ∃ tm, calibrate fClk baud = some tm ∧ tm.T.toNat = T ∧ tm.S.toNat = S ∧ tm.SUPP.toNat = S + (T >>> 3) ∧
      tm.SCHED.toNat = T + S ∧ tm.TT.toNat = T ∧ tm.TS.toNat = S := by
  have hlegal : ¬ (T < 2 ∨ 65535 < T + S) := by omega
  have hfits {n : Nat} (hn : n ≤ T + S) : (BitVec.ofNat 16 n).toNat = n :=
    (BitVec.toNat_ofNat n 16).trans (Nat.mod_eq_of_lt (by omega))
  have hSupp : S + T / 8 ≤ T + S := by omega
  refine ⟨⟨.ofNat 16 T, .ofNat 16 S, .ofNat 16 (S + T / 8), .ofNat 16 (T + S), .ofNat 16 T, .ofNat 16 S⟩, ?_,
    hfits (by omega), hfits (by omega), ?_, hfits le_rfl, hfits (by omega), hfits (by omega)⟩
  · subst hS hT
    rw [calibrate, if_neg hbaud, if_neg hlegal]
  · rw [Nat.shiftRight_eq_div_pow]
    exact hfits hSupp

/-- 40_calibrator_control.md R204: no timing is derived in its three cases. -/
theorem calibrate_eq_none {fClk baud T : Nat} (hT : T = (fClk + baud / 2) / baud)
    (hillegal : baud = 0 ∨ T < 2 ∨ 65535 < T + T / 2) : calibrate fClk baud = none := by
  subst hT
  by_cases hbaud : baud = 0
  · rw [calibrate, if_pos hbaud]
  · rw [calibrate, if_neg hbaud, if_pos (hillegal.resolve_left hbaud)]

/-! ### What BEGIN and END answer -/

theorem execBegin_off_of_some {pol : Bool} {baud : BitVec 23} {tm : Timing} (hoff : s.mode = .off)
    (h : calibrate s.cfg.fClk baud.toNat = some tm) :
    exec (.beginCmd pol baud) s = .next ((s.begun tm pol).answer .ok 0) := by
  simp only [exec, execBegin, hoff, baudOf_eq_toNat, h]

theorem execBegin_off_of_none {pol : Bool} {baud : BitVec 23} (hoff : s.mode = .off)
    (h : calibrate s.cfg.fClk baud.toNat = none) :
    exec (.beginCmd pol baud) s = .next (s.answer .fail 0) := by
  simp only [exec, execBegin, hoff, baudOf_eq_toNat, h]

theorem State.whenOn_on (h : s.mode = .on) (f : State → StepOutcome) : s.whenOn f = f s := by
  rw [State.whenOn, h]

theorem execEnd_on (hon : s.mode = .on) : exec .endCmd s = .next (s.ended.answer .ok 0) := by
  simp only [exec, execEnd, State.whenOn_on hon]

/-- Settles O19: the timing is derived, and BEGIN leaves the state of 10_state.md R66 with it. -/
theorem beginStartsTheBlock : Obligations.BeginStartsTheBlock := by
  intro s pol baud T S hoff hbaud hT hS hlow hhigh
  obtain ⟨tm, hcal, hTicks, hSemi, hSupp, hSched, hWriteTicks, hWriteSemi⟩ :=
    exists_calibrate_eq_some hbaud hT hS hlow hhigh
  refine ⟨_, execBegin_off_of_some hoff hcal, rfl, rfl, hTicks, hSemi, hSupp, hSched, hWriteTicks, hWriteSemi,
    rfl, rfl, rfl, rfl, rfl, rfl, rfl, rfl, rfl, rfl, ?_, ?_, rfl, rfl, rfl, rfl, rfl, rfl, rfl, rfl⟩
  · exact (freshRxRing_wf (Nat.succ_pos s.cfg.rxN) _).1
  · exact (freshTxRing_wf (Nat.succ_pos s.cfg.txN) _).1

/-- Settles O20: in the three cases no timing is derived, and BEGIN only answers. -/
theorem beginFailsWithoutALegalTiming : Obligations.BeginFailsWithoutALegalTiming := fun _ _ _ _ hoff hT hillegal =>
  execBegin_off_of_none hoff (calibrate_eq_none hT hillegal)

/-! ### No event while `MODE = OFF` -/

theorem State.rxCmpDue_of_off (h : s.mode = .off) : s.rxCmpDue = false := by
  simp [State.rxCmpDue, State.rxArmed, h]

theorem State.txCmpDue_of_off (h : s.mode = .off) : s.txCmpDue = false := by
  simp [State.txCmpDue, State.txArmed, h]

theorem State.msbDue_of_off (h : s.mode = .off) : s.msbDue = false := by
  simp [State.msbDue, h]

theorem State.msPendDue_of_off (h : s.mode = .off) : s.msPendDue = false := by
  simp [State.msPendDue, h]

/-- 41_rx_engine.md R251: an edge is discarded unless capture is on. -/
theorem State.edge_discarded (h : s.mode = .off ∨ s.irq.rxEn = false) (u : Tick) : s.edge u = s := by
  rw [State.edge, if_neg]
  rintro ⟨hon, hen⟩
  simp [hon, hen] at h

/-- Settles O22: END leaves `MODE = OFF`, and there is no event in that mode, whatever the instant. -/
theorem endTearsDownTheBlock : Obligations.EndTearsDownTheBlock := by
  intro s hon
  refine ⟨_, execEnd_on hon, rfl, fun now => ?_⟩
  have hoff : State.mode { s.ended.answer .ok 0 with now := now } = .off := rfl
  exact ⟨State.rxCmpDue_of_off hoff, State.txCmpDue_of_off hoff, State.msbDue_of_off hoff, State.msPendDue_of_off hoff,
    State.edge_discarded (.inl hoff) now⟩

/-! ### The setters -/

/-- Settles O23: a setter has no mode check and no branch; its meaning is the one write, then the answer. -/
theorem settersWriteTheirRegister : Obligations.SettersWriteTheirRegister := fun _ _ _ _ =>
  ⟨rfl, rfl, rfl, rfl, rfl⟩

end Sys2Proof.Machine
end

section
/-! SUPPORT. 41_rx_engine.md: a change of the bus level, an edge and the RX compare, each as the whole state after it, and the noise
suppression. -/

namespace Sys2Proof.Machine

variable {s : State} {t : Tick}

/-! ### The change of the bus level -/

/-- The bus inputs after the first of the level changes still to come (30_encoding.md R164). -/
def State.moveBus (s : State) (c : PinChange) (rest : List PinChange) : State :=
  { s with bus := { s.bus with other := c.raw, changes := rest } }

/-- A level change is an edge exactly when the level falls (00_scope.md R18, 41_rx_engine.md R251). -/
theorem State.pinChange_cons {c : PinChange} {rest : List PinChange} (h : s.bus.changes = c :: rest) :
    s.pinChange =
      if s.lineLevel = true ∧ (s.moveBus c rest).lineLevel = false then (s.moveBus c rest).edge s.now
      else s.moveBus c rest := by
  rw [State.pinChange, h]
  rfl

/-- While capture is off a level change moves the bus inputs only (41_rx_engine.md R251). -/
theorem State.pinChange_of_disabled (h : s.mode = .off ∨ s.irq.rxEn = false) :
    s.pinChange = { s with bus := s.pinChange.bus } := by
  cases hc : s.bus.changes with
  | nil => rw [State.pinChange, hc]
  | cons c rest =>
    have hdisabled : (s.moveBus c rest).mode = .off ∨ (s.moveBus c rest).irq.rxEn = false := h
    rw [State.pinChange_cons hc, State.edge_discarded hdisabled, ite_self]
    rfl

/-- Settles O37: the level is its definition; the other clauses are the two cases of a level change, and its discarded edge. -/
theorem edgesAreDiscardedWhileDisabled : Obligations.EdgesAreDiscardedWhileDisabled := by
  refine ⟨fun _ => rfl, ?_, fun _ hoff => ⟨State.edge_discarded hoff, State.pinChange_of_disabled hoff⟩⟩
  rintro s _ c rest hc rfl
  refine ⟨fun hfall => ?_, fun hkeep => ?_⟩
  · exact (State.pinChange_cons hc).trans (if_pos hfall)
  · refine (State.pinChange_cons hc).trans (if_neg fun hfall => ?_)
    rcases hkeep with hlow | hhigh
    · simp [hlow] at hfall
    · exact Bool.false_ne_true (hfall.2.symm.trans hhigh)

/-! ### Noise suppression -/

theorem State.suppressed_of_lastEdge_none (h : s.rx.lastEdge = none) (t : Tick) : s.suppressed t = false := by
  rw [State.suppressed, h]

/-- An edge is suppressed exactly when less than `SUPP` ticks have elapsed (41_rx_engine.md R252). -/
theorem State.suppressed_of_lastEdge_some {u : Tick} (h : s.rx.lastEdge = some u) (t : Tick) :
    s.suppressed t = decide (elapsed s.cfg.suppressDiff t u < s.timing.SUPP.toNat) := by
  rw [State.suppressed, h]

theorem State.edge_suppressed (h : s.suppressed t = true) : s.edge t = s := by
  rw [State.edge, State.handleEdge, if_pos h, ite_self]

/-- A genuine edge moves `last_edge` and is dispatched by `rx_state` (41_rx_engine.md R252, R254). -/
theorem State.edge_genuine (hon : s.mode = .on) (hen : s.irq.rxEn = true) (h : s.suppressed t = false) :
    s.edge t = State.dispatchEdge { s with rx := { s.rx with lastEdge := some t } } t := by
  rw [State.edge, if_pos ⟨hon, hen⟩, State.handleEdge, if_neg (by simp [h])]

/-- No handler of an edge moves `last_edge`: only the suppression test does (10_state.md R48). -/
theorem State.dispatchEdge_lastEdge (s : State) (t : Tick) : (s.dispatchEdge t).rx.lastEdge = s.rx.lastEdge := by
  unfold State.dispatchEdge
  split
  case h_1 => rw [State.startBit_eq]
  case h_2 => rfl
  case h_3 => rfl
  case h_4 => rw [State.stopSlotEdge_eq]

theorem State.edge_lastEdge (hon : s.mode = .on) (hen : s.irq.rxEn = true) (h : s.suppressed t = false) :
    (s.edge t).rx.lastEdge = some t := by
  rw [State.edge_genuine hon hen h, State.dispatchEdge_lastEdge]

/-- Settles O38: the elapsed ticks decide whether an edge is suppressed, and a genuine edge moves `last_edge`. -/
theorem earlyEdgesAreSuppressed : Obligations.EarlyEdgesAreSuppressed := by
  intro s t hon hen
  have hgenuine (h : s.suppressed t = false) : s.suppressed t = false ∧ (s.edge t).rx.lastEdge = some t :=
    ⟨h, State.edge_lastEdge hon hen h⟩
  refine ⟨fun hnone => hgenuine (State.suppressed_of_lastEdge_none hnone t), fun u e hlast he => ?_⟩
  have hsupp : s.suppressed t = decide (e < s.timing.SUPP.toNat) := by
    rw [State.suppressed_of_lastEdge_some hlast, he]
    rfl
  exact ⟨fun hlt => State.edge_suppressed (hsupp.trans (decide_eq_true hlt)),
    fun hle => hgenuine (hsupp.trans (decide_eq_false (Nat.not_lt.2 hle)))⟩

/-! ### The edge and the compare, by `rx_state` -/

/-- Finalizing without EOP merges no flag (41_rx_engine.md R263). -/
@[simp] theorem or_eopFlag_false (e : Byte) : e ||| eopFlag false = e := BitVec.or_zero

/-- Settles O39: `StartBit`, with the ring of `Finalize(0)`. -/
theorem startBitBeginsAByte : Obligations.StartBitBeginsAByte := by
  intro s t hon hen hgenuine hidle
  rw [State.edge_genuine hon hen hgenuine, State.dispatchEdge]
  simp only [hidle, State.startBit_eq, State.finalizedRing, or_eopFlag_false, Params.rxC]

/-- Settles O41: `StopBit`, with the ring of `Finalize(0)`. -/
theorem stopBitStagesTheByte : Obligations.StopBitStagesTheByte := by
  intro s t hstop
  simp only [State.rxCmp, hstop, State.stopBit_eq, State.finalizedRing, or_eopFlag_false, Params.rxC]
  rfl

/-- Settles O42: each clause is a field of the state after `StopSlotEdge`. -/
theorem stopSlotEdgeBeginsTheNextByte : Obligations.StopSlotEdgeBeginsTheNextByte := by
  intro s t hon hen hgenuine hstop
  have hedge : s.edge t = State.stopSlotEdge { s with rx := { s.rx with lastEdge := some t } } t := by
    rw [State.edge_genuine hon hen hgenuine, State.dispatchEdge]
    simp only [hstop]
  rw [hedge, State.stopSlotEdge_eq]
  refine ⟨?_, rfl, rfl, rfl, rfl, rfl, rfl⟩
  simp only [State.finalizedRing, or_eopFlag_false]
  rfl

/-- Settles O43: `EopFire` is `Finalize(1)`, which empties the cell. -/
theorem silenceCommitsWithEop : Obligations.SilenceCommitsWithEop := by
  intro s t hidle
  have hfire : s.rxCmp t = s.finalize true := by
    rw [State.rxCmp, hidle]
    rfl
  rw [hfire]
  exact ⟨rfl, by simp [State.rxArmed, hidle]⟩

/-- The bit of the byte that a data bit decides; no bit in the other states (41_rx_engine.md R259). -/
def RxState.mask : RxState → Byte
  | .data i => BitVec.ofNat 8 (2 ^ i.val)
  | .parity | .stop | .idle => 0#8

/-- `BIT 1` to `BIT 9`: an edge or a compare decides a bit (41_rx_engine.md R256, R259). -/
def RxState.decides (r : RxState) : Prop := r ≠ .idle ∧ r ≠ .stop

theorem RxState.nextBit_data (i : Fin 8) :
    (RxState.data i).nextBit = if h : i.val < 7 then .data ⟨i.val + 1, by omega⟩ else .parity := by
  unfold RxState.nextBit
  simp only [Nat.succ_lt_succ_iff]

/-- A compare in a data or parity bit decides a 1 (41_rx_engine.md R259). -/
theorem State.rxCmp_of_decides (h : s.rx.state.decides) (t : Tick) :
    s.rxCmp t = { s with rx := { s.rx with
      shift := s.rx.shift ||| s.rx.state.mask
      par := !s.rx.par
      target := s.rx.target + s.timing.T.toNat
      state := s.rx.state.nextBit } } := by
  unfold State.rxCmp
  split
  case h_1 i hi =>
    simp only [State.oneBit, hi, RxState.mask, Nat.one_shiftLeft, BitVec.natCast_eq_ofNat]
  case h_2 hp => simp only [State.oneBit, hp, RxState.mask, BitVec.or_zero]
  case h_3 hs => exact absurd hs h.2
  case h_4 hs => exact absurd hs h.1

/-- A genuine edge in a data or parity bit decides a 0 (41_rx_engine.md R256). -/
theorem State.edge_of_decides (hon : s.mode = .on) (hen : s.irq.rxEn = true) (hgenuine : s.suppressed t = false)
    (h : s.rx.state.decides) :
    s.edge t = { s with rx := { s.rx with
      lastEdge := some t
      target := s.rx.target + s.timing.T.toNat
      state := s.rx.state.nextBit } } := by
  rw [State.edge_genuine hon hen hgenuine, State.dispatchEdge]
  split
  case h_1 hs => exact absurd hs h.1
  case h_2 => rfl
  case h_3 => rfl
  case h_4 hs => exact absurd hs h.2

/-- Settles O40: the edge and the compare of a bit that is decided, in data bit `i` and in the parity bit. -/
theorem edgeDecidesZeroAndCompareDecidesOne : Obligations.EdgeDecidesZeroAndCompareDecidesOne := by
  intro s t hon hen hgenuine
  refine ⟨fun i hi => ?_, fun hp => ?_⟩
  · have hdecides : s.rx.state.decides := by rw [hi]; exact ⟨nofun, nofun⟩
    rw [State.edge_of_decides hon hen hgenuine hdecides, State.rxCmp_of_decides hdecides, hi, RxState.nextBit_data]
    exact ⟨rfl, rfl⟩
  · have hdecides : s.rx.state.decides := by rw [hp]; exact ⟨nofun, nofun⟩
    rw [State.edge_of_decides hon hen hgenuine hdecides, State.rxCmp_of_decides hdecides, hp]
    exact ⟨rfl, by simp only [RxState.mask, BitVec.or_zero]; rfl⟩

end Sys2Proof.Machine
end

section
/-! SUPPORT. 41_rx_engine.md R265: a clean frame, bit by bit. The invariant of a frame under way holds after the start bit and each
further bit keeps it, so the byte staged at the stop bit is the frame's. -/

namespace Sys2Proof.Machine

variable {s u : State} {t t0 : Tick}

/-! ### One bit -/

/-- A bit received in `BIT 1` to `BIT 9`: a 1 enters the byte and the parity, a 0 moves `last_edge` (41_rx_engine.md R256, R259). -/
theorem State.receiveBit_of_decides (hon : s.mode = .on) (hen : s.irq.rxEn = true) (hgenuine : s.suppressed t = false)
    (h : s.rx.state.decides) (bit : Bool) :
    s.receiveBit t bit = { s with rx := { s.rx with
      shift := s.rx.shift ||| if bit then s.rx.state.mask else 0#8
      par := s.rx.par ^^ bit
      target := s.rx.target + s.timing.T.toNat
      state := s.rx.state.nextBit
      lastEdge := if bit then s.rx.lastEdge else some t } } := by
  cases bit with
  | false =>
    rw [State.receiveBit, if_neg Bool.false_ne_true, State.edge_of_decides hon hen hgenuine h]
    simp only [Bool.false_eq_true, if_false, BitVec.or_zero, Bool.xor_false]
  | true =>
    rw [State.receiveBit, if_pos rfl, State.rxCmp_of_decides h]
    simp only [if_true, Bool.xor_true]

/-- The bits of a list are received one part after the other. -/
theorem State.receiveBits_append (t0 : Tick) (xs ys : List Bool) :
    ∀ (k : Nat) (s : State), State.receiveBits t0 k (xs ++ ys) s =
      State.receiveBits t0 (k + xs.length) ys (State.receiveBits t0 k xs s) := by
  induction xs with
  | nil => exact fun _ _ => rfl
  | cons x xs ih =>
    intro k s
    rw [List.cons_append, State.receiveBits, ih, State.receiveBits, List.length_cons, Nat.add_right_comm, Nat.add_assoc]

/-- Elapsed ticks are exact where 16 bits hold them (41_rx_engine.md R253, 70_reset_and_hazards.md R567). -/
theorem elapsed_eq_sub {d : SuppressDiff} {t u : Tick} (h : d = .exactTicks ∨ t - u < 65536) : elapsed d t u = t - u := by
  cases d with
  | exactTicks => rfl
  | mod16 => exact Nat.mod_eq_of_lt (h.resolve_left nofun)

/-! ### The state after some bits -/

/-- `rx_state` when `k` bits after the start bit are decided (10_state.md R47). -/
def RxState.after (k : Nat) : RxState := if h : k < 8 then .data ⟨k, h⟩ else if k = 8 then .parity else .stop

theorem RxState.after_decides {k : Nat} (h : k < 9) : (RxState.after k).decides := by
  unfold RxState.after RxState.decides
  split
  · exact ⟨nofun, nofun⟩
  · rw [if_pos (by omega)]
    exact ⟨nofun, nofun⟩

theorem RxState.nextBit_after {k : Nat} (h : k < 9) : (RxState.after k).nextBit = RxState.after (k + 1) := by
  interval_cases k <;> rfl

/-- The bit of the byte that is decided after `k` bits is bit `k`. -/
theorem RxState.getLsbD_mask_after {i : Nat} (k : Nat) (hi : i < 8) : (RxState.after k).mask.getLsbD i = decide (i = k) := by
  unfold RxState.after
  split
  · simp only [RxState.mask, BitVec.getLsbD_ofNat, Nat.testBit_two_pow, hi, decide_true, Bool.true_and, eq_comm]
  · have hne : i ≠ k := by omega
    rw [decide_eq_false hne]
    split <;> exact BitVec.getLsbD_zero

/-- Bit `i` of a list of bits that has grown by one. -/
theorem getD_append_singleton (bits : List Bool) (bit : Bool) (i : Nat) :
    (bits ++ [bit]).getD i false = (bits.getD i false || (bit && decide (i = bits.length))) := by
  rcases lt_trichotomy i bits.length with hlt | rfl | hgt
  · rw [List.getD_append _ _ _ _ hlt, decide_eq_false hlt.ne, Bool.and_false, Bool.or_false]
  · simp
  · have hlen : (bits ++ [bit]).length ≤ i := by rw [List.length_append, List.length_singleton]; omega
    rw [List.getD_eq_default _ _ hlen, List.getD_eq_default _ _ hgt.le, decide_eq_false hgt.ne', Bool.and_false, Bool.or_false]

/-- The state `u` while the frame whose start edge came at `t0`, in state `s`, is received, when `bits` are the bits decided after its
start bit (41_rx_engine.md R256, R259, R265). -/
structure FrameUnderWay (s : State) (t0 : Tick) (bits : List Bool) (u : State) : Prop where
  cfg : u.cfg = s.cfg
  mode : u.mode = .on
  timing : u.timing = s.timing
  conf : u.conf = s.conf
  rxEn : u.irq.rxEn = true
  state : u.rx.state = RxState.after bits.length
  target : u.rx.target = t0 + (bits.length + 1) * s.timing.T.toNat + s.timing.S.toNat
  shift : ∀ i < 8, u.rx.shift.getLsbD i = bits.getD i false
  par : u.rx.par = bits.foldl (· ^^ ·) false
  curDelta : u.rx.curDelta = s.seq.msSinceStart
  lastEdge : ∃ m ≤ bits.length, u.rx.lastEdge = some (t0 + m * s.timing.T.toNat)

/-- After the start bit no bit is decided (41_rx_engine.md R255). -/
theorem FrameUnderWay.start (hon : s.mode = .on) (hen : s.irq.rxEn = true) (htiming : s.timing.derived)
    (hidle : s.rx.state = .idle) (hgenuine : s.suppressed t0 = false) : FrameUnderWay s t0 [] (s.edge t0) := by
  obtain ⟨-, -, -, hsched, -, -⟩ := htiming
  rw [startBitBeginsAByte s t0 hon hen hgenuine hidle]
  exact {
    cfg := rfl
    mode := hon
    timing := rfl
    conf := rfl
    rxEn := hen
    state := rfl
    target := by simp only [hsched, List.length_nil]; ring
    shift := fun _ _ => BitVec.getLsbD_zero
    par := rfl
    curDelta := rfl
    lastEdge := ⟨0, le_rfl, by simp⟩ }

/-- The bit times of a frame are at least `SUPP` apart, so its next edge is genuine (41_rx_engine.md R252, R265). -/
theorem FrameUnderWay.genuine {bits : List Bool} (h : FrameUnderWay s t0 bits u) (htiming : s.timing.derived)
    (hwide : s.cfg.suppressDiff = .exactTicks ∨ 9 * s.timing.T.toNat < 65536) (hlen : bits.length < 9) :
    u.suppressed (t0 + (bits.length + 1) * s.timing.T.toNat) = false := by
  obtain ⟨m, hm, hlast⟩ := h.lastEdge
  obtain ⟨-, hS, hSUPP, -, -, -⟩ := htiming
  obtain ⟨d, hd⟩ : ∃ d, bits.length = m + d := Nat.exists_eq_add_of_le hm
  have hgap : t0 + (bits.length + 1) * s.timing.T.toNat - (t0 + m * s.timing.T.toNat) = (d + 1) * s.timing.T.toNat := by
    rw [hd, Nat.add_assoc m d 1, Nat.add_mul, ← Nat.add_assoc, Nat.add_sub_cancel_left]
  have hmin : s.timing.T.toNat ≤ (d + 1) * s.timing.T.toNat := Nat.le_mul_of_pos_left _ d.succ_pos
  have hmax : (d + 1) * s.timing.T.toNat ≤ 9 * s.timing.T.toNat := Nat.mul_le_mul_right _ (by omega)
  rw [State.suppressed_of_lastEdge_some hlast, h.cfg, h.timing,
    elapsed_eq_sub (hwide.imp_right fun hfit => hgap ▸ hmax.trans_lt hfit), hgap]
  exact decide_eq_false (by omega)

/-- One more bit is decided. -/
theorem FrameUnderWay.receiveBit {bits : List Bool} (h : FrameUnderWay s t0 bits u) (htiming : s.timing.derived)
    (hwide : s.cfg.suppressDiff = .exactTicks ∨ 9 * s.timing.T.toNat < 65536) (hlen : bits.length < 9) (bit : Bool) :
    FrameUnderWay s t0 (bits ++ [bit]) (u.receiveBit (t0 + (bits.length + 1) * s.timing.T.toNat) bit) := by
  have hdecides : u.rx.state.decides := h.state ▸ RxState.after_decides hlen
  rw [State.receiveBit_of_decides h.mode h.rxEn (h.genuine htiming hwide hlen) hdecides]
  exact {
    cfg := h.cfg
    mode := h.mode
    timing := h.timing
    conf := h.conf
    rxEn := h.rxEn
    state := by
      rw [List.length_append]
      exact (congrArg RxState.nextBit h.state).trans (RxState.nextBit_after hlen)
    target := by
      simp only [h.target, h.timing, List.length_append, List.length_singleton]
      ring
    shift := fun i hi => by
      rw [getD_append_singleton, ← h.shift i hi, ← RxState.getLsbD_mask_after bits.length hi, ← h.state, BitVec.getLsbD_or]
      cases bit <;> simp
    par := by rw [List.foldl_append, ← h.par]; rfl
    curDelta := h.curDelta
    lastEdge := by
      obtain ⟨m, hm, hlast⟩ := h.lastEdge
      rw [List.length_append]
      cases bit with
      | false => exact ⟨bits.length + 1, le_rfl, rfl⟩
      | true => exact ⟨m, Nat.le_succ_of_le hm, hlast⟩ }

/-- The bits that follow are decided in turn, up to the parity bit. -/
theorem FrameUnderWay.receiveBits (htiming : s.timing.derived)
    (hwide : s.cfg.suppressDiff = .exactTicks ∨ 9 * s.timing.T.toNat < 65536) (more : List Bool) :
    ∀ {bits : List Bool} {u : State}, FrameUnderWay s t0 bits u → bits.length + more.length ≤ 9 →
      FrameUnderWay s t0 (bits ++ more) (State.receiveBits t0 (bits.length + 1) more u) := by
  induction more with
  | nil =>
    intro bits u h _
    rw [List.append_nil]
    exact h
  | cons bit more ih =>
    intro bits u h hlen
    rw [List.length_cons] at hlen
    have hnext := ih (h.receiveBit htiming hwide (by omega) bit) (by rw [List.length_append, List.length_singleton]; omega)
    rw [List.append_assoc, List.length_append] at hnext
    rw [State.receiveBits, h.timing]
    exact hnext

/-! ### The frame -/

/-- The data bits and the parity bit of a frame (00_scope.md R20). -/
def dataAndParity (b : Byte) (par : Bool) : List Bool := (List.range 8).map (fun i => b.getLsbD i) ++ [par]

theorem length_dataAndParity (b : Byte) (par : Bool) : (dataAndParity b par).length = 9 := rfl

theorem drop_one_frameBits (b : Byte) (par stop : Bool) : (frameBits b par stop).drop 1 = dataAndParity b par ++ [stop] := by
  simp [frameBits, dataAndParity]

theorem getD_dataAndParity (b : Byte) (par : Bool) {i : Nat} (hi : i < 8) : (dataAndParity b par).getD i false = b.getLsbD i := by
  rw [dataAndParity, List.getD_append _ _ _ _ (by simpa using hi)]
  simp [hi]

/-- `rx_par` after the parity bit tells whether it breaks even parity (00_scope.md R20). -/
theorem foldl_xor_dataAndParity (b : Byte) (par : Bool) :
    (dataAndParity b par).foldl (· ^^ ·) false = (evenParity b ^^ par) := by
  rw [dataAndParity, List.foldl_append, List.foldl_map]
  rfl

/-- The stop bit's compare stages the byte of a frame whose bits are all decided (41_rx_engine.md R260, R265). -/
theorem FrameUnderWay.stop {b : Byte} {par : Bool} (h : FrameUnderWay s t0 (dataAndParity b par) u) :
    (u.rxCmp u.rx.target).rx.state = .idle ∧
    (u.rxCmp u.rx.target).pend = ⟨true, b, if par = evenParity b then 0x00 else 0x04, s.seq.msSinceStart⟩ ∧
    (u.rxCmp u.rx.target).rx.target =
      t0 + 10 * s.timing.T.toNat + s.timing.S.toNat + (1 + s.conf.allow.toNat) * s.timing.T.toNat ∧
    (u.rxCmp u.rx.target).irq.msIe = true := by
  have hbyte : u.rx.shift = b :=
    BitVec.eq_of_getLsbD_eq fun i hi => (h.shift i hi).trans (getD_dataAndParity b par hi)
  have hflag : (if u.rx.par then 0x04 else 0x00 : Byte) = if par = evenParity b then 0x00 else 0x04 := by
    rw [h.par, foldl_xor_dataAndParity]
    cases par <;> cases evenParity b <;> rfl
  rw [stopBitStagesTheByte u u.rx.target h.state]
  refine ⟨rfl, ?_, ?_, rfl⟩
  · simp only [hbyte, hflag, h.curDelta]
  · simp only [h.target, h.conf, h.timing, length_dataAndParity]

/-- Settles O44: any first bits of the frame keep the invariant of a frame under way, and the stop bit ends it. -/
theorem cleanFrameStagesItsByte : Obligations.CleanFrameStagesItsByte := by
  intro s t0 b par hon hen htiming hwide hidle hgenuine
  have hframe (bits : List Bool) (hlen : bits.length ≤ 9) : FrameUnderWay s t0 bits (State.receiveBits t0 1 bits (s.edge t0)) :=
    FrameUnderWay.receiveBits htiming hwide bits (.start hon hen htiming hidle hgenuine) (by simpa using hlen)
  rw [drop_one_frameBits]
  refine ⟨fun k hpos hle => ?_, ?_⟩
  · rw [List.take_append_of_le_length (by rw [length_dataAndParity]; omega)]
    have hlen : ((dataAndParity b par).take (k - 1)).length = k - 1 :=
      List.length_take_of_le (by rw [length_dataAndParity]; omega)
    rw [(hframe _ (by omega)).target, hlen, Nat.sub_add_cancel hpos]
  · rw [State.receiveBits_append]
    exact (hframe _ (length_dataAndParity b par).le).stop

end Sys2Proof.Machine
end

section
/-! SUPPORT. 42_tx_engine.md R300 to R304: when a WRITE and a FLUSHOUTPUT of the command port hold, and the state after each. -/

namespace Sys2Proof.Machine

variable {s : State}

/-! ### When the host agent has a step -/

theorem State.host_mem_dueSteps_iff : Due.host ∈ s.dueSteps ↔ s.hostDue = true := by
  simp [State.dueSteps, State.isDue]

/-- 42_tx_engine.md R301, with `TxFull` written out (20_memory.md R113). -/
theorem State.canWrite_iff :
    s.canWrite = true ↔ s.tx.state = .idle ∨ (s.txRing.head + 1) % (s.cfg.txN + 1) ≠ s.txRing.tail := by
  simp [State.canWrite, State.txFull, Ring.full, Params.txC]

theorem State.hostDue_of_write {b : Byte} (h : s.host = .write b) : s.hostDue = s.canWrite := by
  rw [State.hostDue, h]

theorem State.hostDue_of_flushOutput (h : s.host = .flushOutput) : s.hostDue = (s.tx.state == .idle) := by
  rw [State.hostDue, h]

/-! ### WRITE -/

theorem effectiveDelay_eq_max (d : Half) : effectiveDelay d = BitVec.ofNat 16 (max d.toNat 2) := by
  unfold effectiveDelay minDelay
  split
  case isTrue h =>
    rw [Nat.max_eq_left (show 2 ≤ d.toNat from h), BitVec.ofNat_toNat, BitVec.setWidth_eq]
  case isFalse h =>
    rw [Nat.max_eq_right (show d.toNat ≤ 2 from Nat.le_of_not_le h)]
    rfl

theorem execWrite_on (hon : s.mode = .on) (b : Byte) : exec (.write b) s = .next (s.writeStep b) := by
  simp only [exec, execWrite, State.whenOn_on hon]

theorem State.writeStep_of_canWrite (h : s.canWrite = true) (b : Byte) : s.writeStep b = (s.writeByte b).answer .ok 0 :=
  if_pos h

theorem State.writeStep_of_hold (h : s.canWrite = false) (b : Byte) : s.writeStep b = { s with host := .write b } :=
  if_neg (Bool.eq_false_iff.1 h)

/-- A WRITE step answers exactly when it does not hold. -/
theorem State.writeStep_host_eq_ready_iff (b : Byte) : (s.writeStep b).host = .ready ↔ s.canWrite = true := by
  cases h : s.canWrite with
  | true => simp [State.writeStep_of_canWrite h]
  | false => simp [State.writeStep_of_hold h]

/-- A WRITE that is under way takes the step of a WRITE that begins. -/
theorem State.hostStep_of_write {b : Byte} (h : s.host = .write b) (hon : s.mode = .on) :
    s.hostStep = exec (.write b) s := by
  rw [State.hostStep, h, execWrite_on hon]

/-- Settles O32: an idle engine can take a byte, and the byte is staged. -/
theorem writeStagesAByteWhenIdle : Obligations.WriteStagesAByteWhenIdle := by
  intro s b hon hidle
  rw [execWrite_on hon, State.writeStep_of_canWrite (State.canWrite_iff.2 (.inl hidle)), State.writeByte_idle hidle,
    effectiveDelay_eq_max]
  rfl

/-- Settles O33: a ring with room can take a byte, and a busy engine's byte is queued. -/
theorem writeQueuesAByteWhenBusy : Obligations.WriteQueuesAByteWhenBusy := by
  intro s b hon hbusy hroom
  rw [execWrite_on hon, State.writeStep_of_canWrite (State.canWrite_iff.2 (.inr hroom)), State.writeByte_busy hbusy]
  rfl

/-- Settles O34: the hold condition decides both the WRITE as it is taken and when the held one has a step. -/
theorem writeHoldsUntilThereIsRoom : Obligations.WriteHoldsUntilThereIsRoom := by
  intro s b hon hbusy hfull
  have hhold : s.canWrite = false := Bool.eq_false_iff.2 fun h => (State.canWrite_iff.1 h).elim hbusy (· hfull)
  refine ⟨?_, fun u hhost huon => ⟨?_, State.hostStep_of_write hhost huon⟩⟩
  · rw [execWrite_on hon, State.writeStep_of_hold hhold]
  · rw [State.host_mem_dueSteps_iff, State.hostDue_of_write hhost, State.canWrite_iff]

/-! ### WRITEREADY -/

theorem execWriteReady_on (hon : s.mode = .on) :
    exec .writeReady s = .next (s.answer .ok (boolValue s.canWrite)) := by
  simp only [exec, execWriteReady, State.whenOn_on hon]

theorem boolValue_eq_zero_or_one (b : Bool) : boolValue b = 0 ∨ boolValue b = 1 := by
  cases b
  · exact .inl rfl
  · exact .inr rfl

theorem boolValue_eq_one_iff (b : Bool) : boolValue b = 1 ↔ b = true := by
  cases b <;> decide

/-- Settles O35: the value is the hold condition of a WRITE, which also decides whether a WRITE returns. -/
theorem writeReadyTellsWhetherAWriteHolds : Obligations.WriteReadyTellsWhetherAWriteHolds := by
  intro s b hon
  refine ⟨boolValue s.canWrite, execWriteReady_on hon, boolValue_eq_zero_or_one _, ?_, ?_⟩
  · rw [boolValue_eq_one_iff, State.canWrite_iff]
  · rw [boolValue_eq_one_iff, execWrite_on hon, ← State.writeStep_host_eq_ready_iff b]
    constructor
    · exact fun hready => ⟨_, rfl, hready⟩
    · rintro ⟨_, ⟨rfl⟩, hready⟩
      exact hready

/-! ### FLUSHOUTPUT -/

theorem execFlushOutput_on (hon : s.mode = .on) : exec .flushOutput s = .next s.flushOutputStep := by
  simp only [exec, execFlushOutput, State.whenOn_on hon]

/-- Settles O36: the engine's state decides both the FLUSHOUTPUT as it is taken and when the held one has a step. -/
theorem flushOutputWaitsForIdle : Obligations.FlushOutputWaitsForIdle := by
  intro s hon
  rw [execFlushOutput_on hon]
  refine ⟨fun hidle => ?_, fun hbusy => ?_, fun hhost => ⟨?_, ?_⟩⟩
  · rw [State.flushOutputStep, if_pos hidle]
    rfl
  · rw [State.flushOutputStep, if_neg hbusy]
  · rw [State.host_mem_dueSteps_iff, State.hostDue_of_flushOutput hhost, beq_iff_eq]
  · rw [State.hostStep, hhost]

end Sys2Proof.Machine
end

section
/-! SUPPORT. 42_tx_engine.md R310 to R321: promotion and the TX compare at each boundary, each as the whole state after it, and the
waveform of a byte. -/

namespace Sys2Proof.Machine

variable {s u : State} {t t0 : Tick}

/-! ### Promotion -/

/-- Settles O45: `Promote`, with the ring of `Finalize(1)`. -/
theorem promotionStartsATransmission : Obligations.PromotionStartsATransmission := State.promote_eq

/-! ### The TX compare, by boundary -/

theorem State.txCmp_first {j : Fin 23} (hj : s.tx.state = .semi j) (hzero : j.val = 0) (t : Tick) :
    s.txCmp t = s.beginByte t := by
  simp only [State.txCmp, hj, if_pos hzero]

theorem State.txCmp_middle {j : Fin 23} (hj : s.tx.state = .semi j) (hpos : 1 ≤ j.val) (hlt : j.val + 1 < 23) (t : Tick) :
    s.txCmp t = (s.sample j.val).drive j.val hlt := by
  simp only [State.txCmp, hj, if_neg (Nat.one_le_iff_ne_zero.1 hpos), dif_pos hlt]

theorem State.txCmp_last (h : s.tx.state = .semi 22) (t : Tick) : s.txCmp t = (s.sample 22).endByte t := by
  rw [State.txCmp, h]
  rfl

/-- A sample compares the level just before the boundary with the one driven (42_tx_engine.md R312). -/
theorem State.sample_eq_of_level (s : State) (j : Nat) :
    s.sample j = { s with tx := { s.tx with
      err := if s.bus.before = s.tx.out then s.tx.err
        else s.tx.err ||| errCode s.cfg.checkSecondHalf ((j - 1) / 2) ((j - 1) % 2) } } := by
  have hin : s.inLevel = s.bus.before := rfl
  rw [State.sample_eq, hin]
  by_cases h : s.bus.before = s.tx.out
  · rw [if_pos h, if_neg (not_not_intro h)]
  · rw [if_neg h, if_pos h]

/-- The flag of a mismatch in semibit `m` of a frame (42_tx_engine.md R312). -/
theorem errCode_of_semibit (second : Bool) (m : Nat) :
    errCode second (m / 2) (m % 2) =
      if m % 2 = 0 then (if m = 0 then 0x01 else if m ≤ 18 then 0x02 else 0x20)
      else if second then 0x20 else 0x00 := by
  unfold errCode
  refine ite_congr rfl (fun heven => ?_) fun _ => rfl
  have hstart : m / 2 = 0 ↔ m = 0 := by omega
  have hdata : m / 2 ≤ 9 ↔ m ≤ 18 := by omega
  simp only [hstart, hdata]
  rfl

/-- The level of semibit `j` of a frame, its start bit left out (42_tx_engine.md R315). -/
theorem semibitLevel_of_pos (byte : Byte) (par : Bool) {j : Nat} (hpos : 1 ≤ j) :
    semibitLevel byte par j =
      if j % 2 = 1 then true else if j ≤ 16 then byte.getLsbD (j / 2 - 1) else if j = 18 then par else true := by
  unfold semibitLevel
  refine ite_congr rfl (fun _ => rfl) fun hodd => ?_
  have hstart : ¬ j / 2 = 0 := by omega
  have hdata : j / 2 ≤ 8 ↔ j ≤ 16 := by omega
  have hparity : j / 2 = 9 ↔ j = 18 := by omega
  simp only [if_neg hstart, hdata, hparity]

/-- The semibits that begin a data bit (42_tx_engine.md R313). -/
theorem begins_dataBit_iff (j : Nat) : (j % 2 = 0 ∧ 1 ≤ j / 2 ∧ j / 2 ≤ 8) ↔ (j % 2 = 0 ∧ 2 ≤ j ∧ j ≤ 16) := by omega

/-- Settles O46: the start of the byte at boundary 0, else the sample of one semibit and the drive of the next. -/
theorem txCompareSamplesAndDrives : Obligations.TxCompareSamplesAndDrives := by
  intro s t j hj
  refine ⟨fun hzero => State.txCmp_first hj hzero t, fun hlt hpos => ?_⟩
  rw [State.txCmp_middle hj hpos hlt, State.sample_eq_of_level]
  simp only [State.drive, State.boundary, semibitLevel_of_pos _ _ hpos, errCode_of_semibit, begins_dataBit_iff]

/-! ### The last boundary -/

theorem State.nextByte_of_empty (h : s.txRing.head = s.txRing.tail) (t : Tick) :
    s.nextByte t = { s with
      tx := { s.tx with state := .idle }
      irq := { s.irq with rxEn := true, msIe := true }
      rx := { s.rx with state := .idle, target := if s.pend.valid then s.eopAt t else s.rx.target } } := by
  rcases State.nextByte_cases s t with ⟨-, heq⟩ | ⟨hne, -⟩ | ⟨hne, -⟩
  · exact heq
  · exact absurd h hne
  · exact absurd h hne

/-- With `ECHO = 1` the byte sent is staged, and a byte already in the cell is finalized (42_tx_engine.md R317). -/
theorem State.echoByte_of_echo (h : s.conf.echo = true) :
    s.echoByte = { s with
      rxRing := s.finalizedRing false
      pend := ⟨true, s.tx.byte, s.tx.err, s.tx.delta⟩ } := by
  simp only [State.echoByte_eq, h, if_true]

theorem State.echoByte_of_no_echo (h : s.conf.echo = false) : s.echoByte = s := by
  rw [State.echoByte, if_neg (Bool.eq_false_iff.1 h)]

/-- A byte whose read-back failed drains the queue, so nothing follows it (42_tx_engine.md R317, R321). -/
theorem State.endByte_of_error (h : s.tx.err ≠ 0) (t : Tick) :
    s.endByte t = { s.echoByte with
      tx := { s.tx with state := .idle }
      txRing := s.txRing.flush
      irq := { s.irq with rxEn := true, msIe := true }
      rx := { s.rx with state := .idle, target := if s.echoByte.pend.valid then s.eopAt t else s.rx.target } } := by
  have hflushed : s.echoByte.flushOnError = { s.echoByte with txRing := s.txRing.flush } := by
    rw [State.flushOnError_eq, State.echoByte_eq]
    simp only [if_pos h]
  rw [State.endByte, hflushed, State.nextByte_of_empty rfl, State.echoByte_eq]
  rfl

/-- Settles O48: the error is what the last sample leaves, and the queue is drained before the next byte is looked for. -/
theorem collisionDrainsTheQueue : Obligations.CollisionDrainsTheQueue := by
  rintro s t err hlast rfl herr
  have herr' : (s.sample 22).tx.err ≠ 0 := by rw [State.sample_eq_of_level]; exact herr
  have hconf : (s.sample 22).conf = s.conf := (s.sample_frame 22).conf
  rw [State.txCmp_last hlast, State.endByte_of_error herr']
  refine ⟨fun hecho => ?_, fun hecho => ?_⟩
  · rw [State.echoByte_of_echo (hconf ▸ hecho), State.sample_eq_of_level]
    simp only [State.finalizedRing, or_eopFlag_false]
    rfl
  · rw [State.echoByte_of_no_echo (hconf ▸ hecho), State.sample_eq_of_level]
    rfl

/-- The last boundary of a byte whose read-back agreed: its echo, then the next byte (42_tx_engine.md R317). -/
theorem State.txCmp_last_of_clean (hlast : s.tx.state = .semi 22) (hlevel : s.bus.before = s.tx.out) (herr : s.tx.err = 0)
    (t : Tick) : s.txCmp t = s.echoByte.nextByte t := by
  have hsample : s.sample 22 = s := by rw [State.sample_eq_of_level, if_pos hlevel]
  have hkept : s.echoByte.flushOnError = s.echoByte := by
    rw [State.flushOnError_eq, State.echoByte_eq]
    simp only [herr, ne_eq, not_true_eq_false, if_false]
  rw [State.txCmp_last hlast, hsample, State.endByte, hkept]

theorem State.nextByte_pend_rxRing (s : State) (t : Tick) :
    (s.nextByte t).pend = s.pend ∧ (s.nextByte t).rxRing = s.rxRing := by
  rcases State.nextByte_cases s t with ⟨-, heq⟩ | ⟨-, -, heq⟩ | ⟨-, -, heq⟩ <;> rw [heq] <;> exact ⟨rfl, rfl⟩

/-- An engine that does not go on sending hands the bus back (42_tx_engine.md R318). -/
theorem State.nextByte_releases (h : (s.nextByte t).tx.state = .idle ∨ (s.nextByte t).tx.state = .wait) :
    (s.nextByte t).irq = { s.irq with rxEn := true, msIe := true } ∧
      (s.nextByte t).rx = { s.rx with state := .idle, target := if s.pend.valid then s.eopAt t else s.rx.target } := by
  rcases State.nextByte_cases s t with ⟨-, heq⟩ | ⟨-, -, heq⟩ | ⟨-, -, heq⟩ <;> rw [heq] at h ⊢
  · exact ⟨rfl, rfl⟩
  · exact h.elim nofun nofun
  · exact ⟨rfl, rfl⟩

/-- The echo leaves the front of the TX queue. -/
theorem State.txFront_echoByte {x : TxSlot} (h : s.txRing.slots[s.txRing.tail]? = some x) : s.echoByte.txFront = x := by
  rw [State.echoByte_eq, State.txFront, Ring.slotAt, List.getD_eq_getElem?_getD, h, Option.getD_some]

/-- Settles O49: the echo of a clean byte, then one of the three continuations of `NextByte`. -/
theorem nextByteFollows : Obligations.NextByteFollows := by
  intro s t hlast hlevel herr
  rw [State.txCmp_last_of_clean hlast hlevel herr]
  obtain ⟨hpend, hring⟩ := s.echoByte.nextByte_pend_rxRing t
  have htx : s.echoByte.txRing = s.txRing := by rw [State.echoByte_eq]
  refine ⟨fun hempty => ?_, fun x hne hx => ?_, fun hstate => ?_, fun hecho => ?_, fun hecho => ?_⟩
  · rw [State.nextByte_of_empty (htx ▸ hempty)]
    exact ⟨rfl, htx⟩
  · have hfront : s.echoByte.txFront = x := State.txFront_echoByte hx
    rcases s.echoByte.nextByte_cases t with ⟨hempty, -⟩ | ⟨-, hzero, heq⟩ | ⟨-, hdelay, heq⟩
    · exact absurd (htx ▸ hempty) hne
    · rw [heq, hfront, State.echoByte_eq]
      exact ⟨rfl, rfl, fun _ => ⟨rfl, rfl, rfl, rfl, rfl, rfl, rfl, rfl, rfl, rfl⟩, fun hd => absurd (hfront ▸ hzero) hd⟩
    · rw [heq, hfront, State.echoByte_eq]
      exact ⟨rfl, rfl, fun hd => absurd hd (hfront ▸ hdelay), fun _ => ⟨rfl, rfl, effectiveDelay_eq_max _⟩⟩
  · obtain ⟨hirq, hrx⟩ := State.nextByte_releases hstate
    rw [hirq, hrx, hpend, State.echoByte_eq]
    exact ⟨rfl, rfl, fun hvalid => if_pos hvalid⟩
  · rw [hpend, hring, State.echoByte_of_echo hecho, herr]
    refine ⟨rfl, ?_⟩
    simp only [State.finalizedRing, or_eopFlag_false]
    rfl
  · rw [hpend, hring, State.echoByte_of_no_echo hecho]
    exact ⟨rfl, rfl⟩

/-! ### The waveform of a byte -/

/-- The level of semibit `j` of the frame of `b` with its even parity (00_scope.md R20, 42_tx_engine.md R315). -/
def frameSemibit (b : Byte) (j : Nat) : Bool :=
  if j % 2 = 1 then true else (frameBits b (evenParity b) true).getD (j / 2) true

/-- The parity of the first `n` data bits: `tx_par` when `n` of them are driven (42_tx_engine.md R313). -/
def parityOfFirst (b : Byte) (n : Nat) : Bool := (List.range n).foldl (fun p i => p ^^ b.getLsbD i) false

theorem parityOfFirst_succ (b : Byte) (n : Nat) : parityOfFirst b (n + 1) = (parityOfFirst b n ^^ b.getLsbD n) := by
  rw [parityOfFirst, List.range_succ, List.foldl_append]
  rfl

theorem parityOfFirst_eight (b : Byte) : parityOfFirst b 8 = evenParity b := rfl

theorem getD_frameBits_data (b : Byte) (par stop d : Bool) {i : Nat} (hi : i < 8) :
    (frameBits b par stop).getD (i + 1) d = b.getLsbD i := by
  interval_cases i <;> rfl

/-- The semibits of a frame are the levels `Drive` puts on the bus, when its parity bit is even parity (42_tx_engine.md R315). -/
theorem semibitLevel_eq_frameSemibit (b : Byte) {par : Bool} {j : Nat} (hj : j ≤ 21) (hpar : j = 18 → par = evenParity b) :
    semibitLevel b par j = frameSemibit b j := by
  unfold semibitLevel frameSemibit
  refine ite_congr rfl (fun _ => rfl) fun hodd => ?_
  rcases hbit : j / 2 with _ | i
  · rfl
  · rw [if_neg i.succ_ne_zero]
    by_cases hdata : i < 8
    · rw [if_pos (Nat.succ_le_of_lt hdata), getD_frameBits_data _ _ _ _ hdata, Nat.add_sub_cancel]
    · obtain rfl | rfl : i = 8 ∨ i = 9 := by omega
      · exact hpar (by omega)
      · rfl

/-- `tx_par` counts a data bit as its semibit begins (42_tx_engine.md R313). -/
theorem parityOfFirst_next (b : Byte) (j : Nat) :
    (if (j + 1) % 2 = 0 ∧ 1 ≤ (j + 1) / 2 ∧ (j + 1) / 2 ≤ 8 then
        parityOfFirst b (min (j / 2) 8) ^^ b.getLsbD ((j + 1) / 2 - 1)
      else parityOfFirst b (min (j / 2) 8)) = parityOfFirst b (min ((j + 1) / 2) 8) := by
  split
  · have hcount : min ((j + 1) / 2) 8 = min (j / 2) 8 + 1 := by omega
    have hbit : (j + 1) / 2 - 1 = min (j / 2) 8 := by omega
    rw [hcount, hbit, parityOfFirst_succ]
  · have hcount : min ((j + 1) / 2) 8 = min (j / 2) 8 := by omega
    rw [hcount]

/-- The state with `level` held on the interval that ends at `now` (00_scope.md R17). -/
def State.seeing (s : State) (level : Bool) : State := { s with bus := { s.bus with before := level } }

theorem State.txCompares_succ (levels : Nat → Bool) (n : Nat) (s : State) :
    State.txCompares levels (n + 1) s =
      ((State.txCompares levels n s).seeing (levels n)).txCmp (State.txCompares levels n s).tx.target := rfl

/-- The state `u` after boundary `j` of the byte that waits in the state `s`, when boundary 0 came at `t0` and `levels` were the levels
read back (42_tx_engine.md R312 to R315). -/
structure ByteUnderWay (s : State) (t0 : Tick) (levels : Nat → Bool) (j : Nat) (hj : j + 1 < 23) (u : State) : Prop where
  timing : u.timing = s.timing
  state : u.tx.state = .semi ⟨j + 1, hj⟩
  byte : u.tx.byte = s.tx.byte
  origin : u.tx.t0 = t0
  target : u.tx.target = t0 + ((j + 1) / 2) * s.timing.TT.toNat + ((j + 1) % 2) * s.timing.TS.toNat
  par : u.tx.par = parityOfFirst s.tx.byte (min (j / 2) 8)
  out : u.tx.out = frameSemibit s.tx.byte j
  err : (∀ m, m < j → levels (m + 1) = frameSemibit s.tx.byte m) → u.tx.err = 0

/-- After boundary 0 the start bit is on the bus (42_tx_engine.md R311). -/
theorem ByteUnderWay.start (levels : Nat → Bool) (hstate : s.tx.state = .semi 0) :
    ByteUnderWay s s.tx.target levels 0 (by decide) (State.txCompares levels 1 s) := by
  rw [State.txCompares_succ, State.txCompares, State.txCmp_first (s := s.seeing (levels 0)) hstate rfl]
  exact {
    timing := rfl
    state := rfl
    byte := rfl
    origin := rfl
    target := by simp [State.beginByte, State.seeing]
    par := rfl
    out := rfl
    err := fun _ => rfl }

/-- One more boundary: the semibit that ends is read back, and the next one is driven (42_tx_engine.md R312, R313). -/
theorem ByteUnderWay.next {levels : Nat → Bool} {j : Nat} {hj : j + 1 < 23} (h : ByteUnderWay s t0 levels j hj u)
    (hnext : j + 2 < 23) :
    ByteUnderWay s t0 levels (j + 1) hnext
      ((u.seeing (levels (j + 1))).txCmp u.tx.target) := by
  have hpar : (if (j + 1) % 2 = 0 ∧ 1 ≤ (j + 1) / 2 ∧ (j + 1) / 2 ≤ 8 then u.tx.par ^^ u.tx.byte.getLsbD ((j + 1) / 2 - 1)
      else u.tx.par) = parityOfFirst s.tx.byte (min ((j + 1) / 2) 8) := by
    rw [h.par, h.byte, parityOfFirst_next]
  have hout : semibitLevel u.tx.byte (parityOfFirst s.tx.byte (min ((j + 1) / 2) 8)) (j + 1) =
      frameSemibit s.tx.byte (j + 1) := by
    rw [h.byte]
    refine semibitLevel_eq_frameSemibit _ (by omega) fun h18 => ?_
    rw [h18]
    exact parityOfFirst_eight _
  rw [State.txCmp_middle (s := u.seeing (levels (j + 1))) h.state j.succ_pos hnext, State.sample_eq_of_level]
  exact {
    timing := h.timing
    state := rfl
    byte := h.byte
    origin := h.origin
    target := by simp only [State.drive, State.boundary, State.seeing, h.origin, h.timing]
    par := hpar
    out := (congrArg (semibitLevel u.tx.byte · (j + 1)) hpar).trans hout
    err := fun hagree => by
      have hlevel : levels (j + 1) = u.tx.out := (hagree j j.lt_succ_self).trans h.out.symm
      exact (if_pos hlevel).trans (h.err fun m hm => hagree m (Nat.lt_succ_of_lt hm)) }

theorem ByteUnderWay.compares (levels : Nat → Bool) (hstate : s.tx.state = .semi 0) :
    ∀ (j : Nat) (hj : j + 1 < 23), ByteUnderWay s s.tx.target levels j hj (State.txCompares levels (j + 1) s)
  | 0, _ => .start levels hstate
  | j + 1, hj => (ByteUnderWay.compares levels hstate j (Nat.lt_of_succ_lt hj)).next hj

/-- Settles O47: the invariant of a byte under way holds after boundary 0, and each further boundary keeps it. -/
theorem byteIsSentAsItsFrame : Obligations.ByteIsSentAsItsFrame := by
  rintro s _ levels j hj hstate rfl
  have h := ByteUnderWay.compares levels hstate j hj
  exact ⟨h.state, h.out, h.target, h.byte, h.err⟩

end Sys2Proof.Machine
end

section
/-! SUPPORT. 43_sequencer.md R360 to R365: the uptime counters, the latched boundary, and one service of a millisecond. -/

namespace Sys2Proof.Machine

variable {s : State}

/-! ### The uptime counters -/

/-- The 1000th millisecond of a second (43_sequencer.md R363). -/
theorem State.uptime_of_last (h : s.seq.uptimeSub = 999) :
    s.uptime = { s with seq := { s.seq with
      uptimeMs := s.seq.uptimeMs + 1, uptimeSub := 0, uptimeSec := s.seq.uptimeSec + 1 } } := by
  simp only [State.uptime, h, show (999 : BitVec 10) + 1 = 1000 from rfl, decide_true, if_true]

/-- Any other millisecond. -/
theorem State.uptime_of_not_last (h : s.seq.uptimeSub ≠ 999) :
    s.uptime = { s with seq := { s.seq with
      uptimeMs := s.seq.uptimeMs + 1, uptimeSub := s.seq.uptimeSub + 1 } } := by
  have hwrap : s.seq.uptimeSub + 1 ≠ 1000 := by bv_omega
  simp only [State.uptime, hwrap, decide_false, Bool.false_eq_true, if_false]

/-- Settles O52: the millisecond is the 1000th of its second, or it is not. -/
theorem uptimeCountsSeconds : Obligations.UptimeCountsSeconds := by
  intro s
  refine ⟨rfl, fun hlast => ?_, fun hnot => ?_, rfl⟩
  · rw [State.uptime_of_last hlast]
    exact ⟨rfl, rfl⟩
  · rw [State.uptime_of_not_last hnot]
    exact ⟨rfl, rfl⟩

/-! ### A boundary -/

/-- The state whose next boundary has moved on and whose uptime has counted this one when it is not gated (43_sequencer.md R360, R363). -/
def State.pastBoundary (s : State) : State :=
  { s with seq := { (if s.cfg.uptimeGated then s.seq else s.uptime.seq) with nextMs := s.seq.nextMs + s.cfg.msPeriod } }

theorem State.pastBoundary_msSinceStart (s : State) : s.pastBoundary.seq.msSinceStart = s.seq.msSinceStart := by
  simp only [State.pastBoundary]
  split <;> rfl

theorem State.pastBoundary_uptimeMs (s : State) :
    s.pastBoundary.seq.uptimeMs = if s.cfg.uptimeGated then s.seq.uptimeMs else s.seq.uptimeMs + 1 := by
  simp only [State.pastBoundary]
  split <;> rfl

theorem State.msBoundary_of_enabled (h : s.irq.msIe = true) (t : Tick) : s.msBoundary t = s.pastBoundary.msService t :=
  (s.msBoundary_eq t).trans (if_pos h)

theorem State.msBoundary_of_disabled (h : s.irq.msIe = false) (t : Tick) :
    s.msBoundary t = { s.pastBoundary with irq := { s.irq with msPend := true } } :=
  (s.msBoundary_eq t).trans (if_neg (Bool.eq_false_iff.1 h))

/-- Settles O50: the boundary moves on and is latched. -/
theorem boundaryIsLatchedWhileDisabled : Obligations.BoundaryIsLatchedWhileDisabled := by
  intro s hdisabled
  rw [State.takeEvent, State.msBoundary_of_disabled hdisabled]
  exact ⟨rfl, s.pastBoundary_msSinceStart, s.pastBoundary_uptimeMs⟩

/-! ### A service: the counts, then the promotion that is due -/

/-- The wait of a byte saturates (43_sequencer.md R364). -/
theorem waitSucc_toNat (w : Half) : (if w = 65535 then 65535 else w + 1 : Half).toNat = min (w.toNat + 1) 65535 := by
  split
  case isTrue h => rw [h]; rfl
  case isFalse h => bv_omega

theorem waitSucc_eq_min (w : Half) :
    (if w = 65535 then 65535 else w + 1) = BitVec.ofNat 16 (min (w.toNat + 1) 65535) := by
  rw [← waitSucc_toNat, BitVec.ofNat_toNat, BitVec.setWidth_eq]

/-- What the counts write, with the saturation of the wait as a minimum. -/
theorem State.counted_eq_min (s : State) :
    s.counted = { s with
      seq := { (if s.cfg.uptimeGated then s.uptime.seq else s.seq) with msSinceStart := s.seq.msSinceStart + 1 }
      tx := if s.tx.state = .wait then { s.tx with wait := BitVec.ofNat 16 (min (s.tx.wait.toNat + 1) 65535) } else s.tx } := by
  simp only [State.counted, State.waitCount, ← waitSucc_eq_min]
  cases s.cfg.uptimeGated <;> simp only [if_true, if_false, Bool.false_eq_true, State.uptime] <;> split <;> rfl

theorem State.promoteDue_iff :
    s.promoteDue = true ↔ s.tx.state = .wait ∧ (s.tx.effDelay ≤ s.seq.msSinceStart ∨ s.conf.dlyTo ≤ s.tx.wait) := by
  simp only [State.promoteDue, Bool.and_eq_true, Bool.or_eq_true, beq_iff_eq, decide_eq_true_eq]

/-- The byte that is due after the counts, in the registers before them (43_sequencer.md R365). -/
theorem State.counted_promoteDue_iff :
    s.counted.promoteDue = true ↔ s.tx.state = .wait ∧
      (s.tx.effDelay ≤ s.seq.msSinceStart + 1 ∨ s.conf.dlyTo.toNat ≤ min (s.tx.wait.toNat + 1) 65535) := by
  rw [State.counted_promoteDue, ← waitSucc_toNat]
  simp only [Bool.and_eq_true, Bool.or_eq_true, beq_iff_eq, decide_eq_true_eq, BitVec.le_def]

theorem State.msService_of_due (h : s.counted.promoteDue = true) (t : Tick) : s.msService t = s.counted.promote t :=
  (s.msService_eq t).trans (if_pos h)

theorem State.msService_of_not_due (h : ¬s.counted.promoteDue = true) (t : Tick) : s.msService t = s.counted :=
  (s.msService_eq t).trans (if_neg h)

/-- Settles O53: the test of `PromoteCheck` on the counted state decides between the promotion and the counts alone. -/
theorem waitingByteIsPromotedWhenDue : Obligations.WaitingByteIsPromotedWhenDue := by
  intro s c t hc
  rw [← s.counted_eq_min] at hc
  subst hc
  have hdue : s.counted.promoteDue = true ↔ s.tx.state = .wait ∧
      (s.tx.effDelay ≤ s.counted.seq.msSinceStart ∨ s.conf.dlyTo ≤ s.counted.tx.wait) := by
    rw [State.promoteDue_iff, s.counted_eq]
  refine ⟨fun hwait helapsed => ?_, fun hnot => State.msService_of_not_due (mt hdue.1 hnot) t⟩
  rw [State.msService_of_due (hdue.2 ⟨hwait, helapsed⟩), State.promote_eq, s.counted_eq]
  exact ⟨rfl, rfl, rfl, rfl, rfl, rfl, rfl, rfl⟩

/-- A service leaves `ms_pend` and the next boundary, and counts the uptime once when it is gated (43_sequencer.md R362, R363). -/
theorem State.msService_clocks (s : State) (t : Tick) :
    (s.msService t).irq.msPend = s.irq.msPend ∧ (s.msService t).seq.nextMs = s.seq.nextMs ∧
      (s.msService t).seq.uptimeMs = if s.cfg.uptimeGated then s.seq.uptimeMs + 1 else s.seq.uptimeMs := by
  by_cases h : s.counted.promoteDue = true
  · rw [State.msService_of_due h, State.promote_eq, s.counted_eq]
    exact ⟨rfl, rfl, rfl⟩
  · rw [State.msService_of_not_due h, s.counted_eq]
    exact ⟨rfl, rfl, rfl⟩

/-- A service promotes the byte that is due after the counts, and else the engine's state stays (43_sequencer.md R365). -/
theorem State.msService_tx (s : State) (t : Tick) {due : Prop}
    (hdue : due ↔ s.tx.state = .wait ∧
      (s.tx.effDelay ≤ s.seq.msSinceStart + 1 ∨ s.conf.dlyTo.toNat ≤ min (s.tx.wait.toNat + 1) 65535)) :
    (due → (s.msService t).tx.state = .semi 0 ∧ (s.msService t).tx.target = t + s.timing.TS.toNat ∧
      (s.msService t).seq.msSinceStart = 0) ∧
    (¬due → (s.msService t).tx.state = s.tx.state ∧ (s.msService t).seq.msSinceStart = s.seq.msSinceStart + 1) := by
  rw [← State.counted_promoteDue_iff] at hdue
  constructor
  · intro h
    rw [State.msService_of_due (hdue.1 h), State.promote_eq, s.counted_eq]
    exact ⟨rfl, rfl, rfl⟩
  · intro h
    rw [State.msService_of_not_due (mt hdue.2 h), s.counted_eq]
    exact ⟨rfl, rfl⟩

/-- Uptime counts a boundary that is serviced at its instant once: at the boundary, or in the service when it is gated. -/
theorem State.pastBoundary_msService_uptimeMs (s : State) (t : Tick) :
    (s.pastBoundary.msService t).seq.uptimeMs = s.seq.uptimeMs + 1 := by
  obtain ⟨-, -, hms⟩ := s.pastBoundary.msService_clocks t
  rw [hms, s.pastBoundary_uptimeMs]
  cases hgated : s.cfg.uptimeGated <;> simp [State.pastBoundary, hgated]

/-- Settles O51: each of the two handlers is a service, of the state past its boundary or of the state with the latch cleared. -/
theorem serviceCountsAMillisecond : Obligations.ServiceCountsAMillisecond := by
  rintro s _ due rfl hdue
  refine ⟨fun henabled => ?_, rfl, ?_⟩
  · rw [State.takeEvent, State.msBoundary_of_enabled henabled]
    obtain ⟨hpend, hnext, -⟩ := s.pastBoundary.msService_clocks s.now
    obtain ⟨hpromoted, hcounted⟩ := s.pastBoundary.msService_tx s.now (due := due)
      (by rw [s.pastBoundary_msSinceStart]; exact hdue)
    rw [s.pastBoundary_msSinceStart] at hcounted
    exact ⟨rfl, s.pastBoundary_msService_uptimeMs _, hnext, hpend, hpromoted, hcounted⟩
  · obtain ⟨hpend, hnext, huptime⟩ := State.msService_clocks { s with irq := { s.irq with msPend := false } } s.now
    exact ⟨hpend, hnext, huptime, State.msService_tx { s with irq := { s.irq with msPend := false } } s.now hdue⟩

end Sys2Proof.Machine
end

section
/-! SUPPORT. 44_ring_ops.md R390 to R396 and 40_calibrator_control.md R215, R216: the reads of a counter, of the head-of-line slot and of
the unread slots, and FLUSHINPUT. -/

namespace Sys2Proof.Machine

variable {s : State}

/-! ### The state after each command while `MODE = ON` -/

theorem execUptimeSec_on (hon : s.mode = .on) : exec .uptimeSec s = .next (s.answer .ok s.seq.uptimeSec) := by
  simp only [exec, execUptimeSec, State.whenOn_on hon]

theorem execUptimeMillisec_on (hon : s.mode = .on) : exec .uptimeMillisec s = .next (s.answer .ok s.seq.uptimeMs) := by
  simp only [exec, execUptimeMillisec, State.whenOn_on hon]

theorem execAvailable_on (hon : s.mode = .on) :
    exec .available s = .next (s.answer .ok (availableValue s.rxCount)) := by
  simp only [exec, execAvailable, State.whenOn_on hon]

theorem execRead_on (hon : s.mode = .on) :
    exec .read s = .next (s.unlessEmpty fun s => s.rxPop.answer .ok (zext32 s.rxFront.byte)) := by
  simp only [exec, execRead, State.whenOn_on hon]

theorem execReadError_on (hon : s.mode = .on) :
    exec .readError s = .next (s.unlessEmpty fun s => s.answer .ok (zext32 (s.rxFront.err &&& s.conf.errMask))) := by
  simp only [exec, execReadError, State.whenOn_on hon]

theorem execReadDelta_on (hon : s.mode = .on) :
    exec .readDelta s = .next (s.unlessEmpty fun s => s.answer .ok (zext32 s.rxFront.delta)) := by
  simp only [exec, execReadDelta, State.whenOn_on hon]

theorem execPacketAvailable_on (hon : s.mode = .on) :
    exec .packetAvailable s = .next (s.answer .ok (boolValue (s.rxUnread.any fun x => hasEop x.err))) := by
  simp only [exec, execPacketAvailable, State.whenOn_on hon]

theorem execFlushInput_on (hon : s.mode = .on) : exec .flushInput s = .next (s.rxFlush.answer .ok 0) := by
  simp only [exec, execFlushInput, State.whenOn_on hon]

/-! ### The scan for `SIGNAL_EOP` -/

/-- `SIGNAL_EOP` is bit 7 of the error byte (10_state.md R52). -/
theorem hasEop_iff_getLsbD (e : Byte) : hasEop e = true ↔ e.getLsbD 7 = true := by
  have hand : e &&& signalEop = if e.getLsbD 7 = true then signalEop else 0 := BitVec.and_twoPow e 7
  rw [hasEop, decide_eq_true_iff, hand]
  split
  case isTrue h => exact iff_of_true (by decide) h
  case isFalse h => exact iff_of_false (fun hne => hne rfl) h

/-- Some unread slot has a property: the slot at an offset from `tail` below the count has it. -/
theorem Ring.any_unread_iff {α : Type} (d : α) (c : Nat) (r : Ring α) (p : α → Bool) :
    (r.unread d c).any p = true ↔ ∃ k, k < r.count c ∧ p (r.slotAt d ((r.tail + k) % c)) = true := by
  simp only [Ring.unread, List.any_map, List.any_eq_true, List.mem_range, Function.comp_apply]

/-- Settles O30: the value is the scan of the unread slots, an offset from `tail` for each. -/
theorem packetAvailableScansForEop : Obligations.PacketAvailableScansForEop := by
  intro s hon
  refine ⟨_, execPacketAvailable_on hon, boolValue_eq_zero_or_one _, ?_⟩
  rw [boolValue_eq_one_iff, State.rxUnread, Ring.any_unread_iff]
  simp only [hasEop_iff_getLsbD]
  rfl

/-! ### The counters -/

/-- Settles O27: each command answers with its count and writes nothing else. -/
theorem countersAreReadWithoutEffect : Obligations.CountersAreReadWithoutEffect := fun _ hon =>
  ⟨execUptimeSec_on hon, execUptimeMillisec_on hon, _, execAvailable_on hon, availableValue_toNat⟩

/-! ### The reads of the head-of-line slot -/

theorem State.unlessEmpty_of_empty (h : s.rxRing.head = s.rxRing.tail) (f : State → State) :
    s.unlessEmpty f = s.answer .empty emptyValue :=
  if_pos (beq_iff_eq.2 h)

theorem State.unlessEmpty_of_nonempty (h : s.rxRing.head ≠ s.rxRing.tail) (f : State → State) : s.unlessEmpty f = f s :=
  if_neg (mt beq_iff_eq.1 h)

theorem State.rxFront_eq {x : RxSlot} (h : s.rxRing.slots[s.rxRing.tail]? = some x) : s.rxFront = x := by
  rw [State.rxFront, Ring.slotAt, List.getD_eq_getElem?_getD, h, Option.getD_some]

/-- Settles O28: on a ring that is not empty each read is its own effect, on the slot at `tail`. -/
theorem readsReturnTheHeadOfLineSlot : Obligations.ReadsReturnTheHeadOfLineSlot := by
  intro s x hon hnonempty hslot
  rw [execRead_on hon, execReadError_on hon, execReadDelta_on hon]
  simp only [State.unlessEmpty_of_nonempty hnonempty, State.rxFront_eq hslot]
  exact ⟨rfl, rfl, rfl⟩

/-- Settles O29: the check for the empty ring comes first in each of the three reads. -/
theorem readsOfAnEmptyRing : Obligations.ReadsOfAnEmptyRing := by
  rintro s _ hon hempty (rfl | rfl | rfl)
  · rw [execRead_on hon, State.unlessEmpty_of_empty hempty]
    rfl
  · rw [execReadError_on hon, State.unlessEmpty_of_empty hempty]
    rfl
  · rw [execReadDelta_on hon, State.unlessEmpty_of_empty hempty]
    rfl

/-! ### FLUSHINPUT -/

/-- Settles O31: FLUSHINPUT is `RxFlush` and an answer. -/
theorem flushInputEmptiesTheRing : Obligations.FlushInputEmptiesTheRing := fun _ => execFlushInput_on

end Sys2Proof.Machine
end

section
/-! SUPPORT. 45_packet_framer.md R430 to R437: the accumulator's vectors, and one step of READPACKET as the whole state after it. -/

namespace Sys2Proof.Machine

/-! ### The accumulator -/

/-- Settles O54: each row is evaluated. -/
theorem accumulatorVectors : Obligations.AccumulatorVectors := by
  unfold Obligations.AccumulatorVectors
  decide +kernel

/-! ### The working registers after one slot -/

section
variable {r : ReadRegs} {x : RxSlot} {s : State}

/-- The declared length once `LEN_POS` is compared with the number of a byte (45_packet_framer.md R434). -/
def ReadRegs.declared (r : ReadRegs) (prefixAt : Option (Nat × Int)) (b : Byte) : Option Int :=
  match prefixAt with
  | some (pos, adj) => if r.n = pos then some ((b.toNat : Int) + adj) else r.decl
  | none => r.decl

theorem ReadRegs.declare_eq (r : ReadRegs) (prefixAt : Option (Nat × Int)) (b : Byte) :
    r.declare prefixAt b = { r with decl := r.declared prefixAt b } := by
  cases prefixAt with
  | none => rfl
  | some p =>
    obtain ⟨pos, adj⟩ := p
    simp only [ReadRegs.declare, ReadRegs.declared]
    split <;> rfl

theorem ReadRegs.store_eq (r : ReadRegs) (errMask : Byte) (x : RxSlot) :
    r.store errMask x = { r with
      delta := if r.n = 0 then x.delta else r.delta
      buf := if r.n < r.maxlen.toNat then r.buf ++ [x.byte] else r.buf
      err := if r.n < r.maxlen.toNat then r.err ++ [x.err &&& errMask]
        else r.err.modify (r.maxlen.toNat - 1) (· ||| (x.err &&& errMask)) } := by
  unfold ReadRegs.store
  by_cases hroom : r.n < r.maxlen.toNat
  · simp only [if_pos hroom]
    split <;> rfl
  · simp only [if_neg hroom]
    split <;> rfl

/-- The registers that one slot writes before the test for the packet's end (45_packet_framer.md R433, R434). -/
theorem ReadRegs.taken_eq (r : ReadRegs) (s : State) (x : RxSlot) :
    r.taken s x = { r with
      delta := if r.n = 0 then x.delta else r.delta
      decl := r.declared s.cfg.lengthPrefix x.byte
      buf := if r.n < r.maxlen.toNat then r.buf ++ [x.byte] else r.buf
      err := if r.n < r.maxlen.toNat then r.err ++ [x.err &&& s.conf.errMask]
        else r.err.modify (r.maxlen.toNat - 1) (· ||| (x.err &&& s.conf.errMask)) } := by
  rw [ReadRegs.taken, ReadRegs.declare_eq, ReadRegs.store_eq]
  rfl

/-- A packet ends at `SIGNAL_EOP`, or where its declared length is reached (45_packet_framer.md R434). -/
theorem ReadRegs.terminal_iff :
    r.terminal x = true ↔ x.err.getLsbD 7 = true ∨ ∃ d, r.decl = some d ∧ d ≤ (r.n : Int) + 1 := by
  rw [ReadRegs.terminal, Bool.or_eq_true, hasEop_iff_getLsbD]
  refine or_congr_right ?_
  cases r.decl <;> simp

/-- What the check of the terminal byte writes (45_packet_framer.md R434). -/
theorem ReadRegs.check_eq (r : ReadRegs) (b : Byte) :
    r.check b = { r with
      err := if r.gen ≠ 0 ∧ r.acc ≠ b then r.err.modify (min r.n (r.maxlen.toNat - 1)) (· ||| 0x10) else r.err } := by
  unfold ReadRegs.check
  split <;> rfl

/-! ### A step of READPACKET -/

theorem State.rxCount_eq_zero_iff (hwf : s.rxRing.wf (s.cfg.rxN + 1)) : s.rxCount = 0 ↔ s.rxRing.head = s.rxRing.tail :=
  (Ring.isEmpty_iff hwf).symm.trans beq_iff_eq

theorem State.readStep_of_empty (hwf : s.rxRing.wf (s.cfg.rxN + 1)) (hempty : s.rxRing.head = s.rxRing.tail) (r : ReadRegs) :
    s.readStep r = { s with host := .readPacket r } :=
  if_pos ((State.rxCount_eq_zero_iff hwf).2 hempty)

theorem State.readStep_of_unread (hwf : s.rxRing.wf (s.cfg.rxN + 1)) (hunread : s.rxRing.head ≠ s.rxRing.tail) (r : ReadRegs) :
    s.readStep r = s.readIteration r :=
  if_neg (mt (State.rxCount_eq_zero_iff hwf).1 hunread)

/-- The iteration that returns the packet (45_packet_framer.md R434, R435). -/
theorem State.readIteration_of_terminal (hfront : s.rxFront = x) (hend : (r.taken s x).terminal x = true) :
    s.readIteration r =
      s.rxPop.answerPacket (countValue (r.n + 1)) ((r.taken s x).check x.byte).packet := by
  subst hfront
  rcases s.readIteration_cases r with ⟨-, heq⟩ | ⟨hgoes, -⟩
  · exact heq
  · exact absurd hend (Bool.eq_false_iff.1 hgoes)

/-- The iteration after which READPACKET goes on (45_packet_framer.md R433). -/
theorem State.readIteration_of_not_terminal (hfront : s.rxFront = x) (hgoes : ¬(r.taken s x).terminal x = true) :
    s.readIteration r = { s.rxPop with host := .readPacket ((r.taken s x).fold s.cfg.framerMode x.byte) } := by
  subst hfront
  rcases s.readIteration_cases r with ⟨hend, -⟩ | ⟨-, heq⟩
  · exact absurd hend hgoes
  · exact heq

theorem State.hostDue_of_readPacket (h : s.host = .readPacket r) : s.hostDue = (s.rxCount != 0) := by
  rw [State.hostDue, h]

theorem State.hostStep_of_readPacket (h : s.host = .readPacket r) : s.hostStep = .next (s.readStep r) := by
  rw [State.hostStep, h]

theorem execReadPacket_on (hon : s.mode = .on) (gen feed : Byte) {maxlen : Byte} (hroom : maxlen ≠ 0) :
    exec (.readPacket gen feed maxlen) s = .next (s.readStep (ReadRegs.start gen feed maxlen)) := by
  simp only [exec, execReadPacket, State.whenOn_on hon, hroom, if_false]

/-- Settles O55: the check for `MAXLEN = 0` comes before the first iteration. -/
theorem readPacketNeedsRoom : Obligations.ReadPacketNeedsRoom := by
  intro s gen feed hon
  simp only [exec, execReadPacket, State.whenOn_on hon, if_true]
  rfl

/-- Settles O58: the iteration on the slot at `tail` returns or goes on as the two conditions of R434 say. -/
theorem readPacketEndsAtTheDeclaredLength : Obligations.ReadPacketEndsAtTheDeclaredLength := by
  rintro s r x decl _ _ _ hhost hwf hunread hslot hdecl rfl rfl rfl
  obtain rfl : decl = r.declared s.cfg.lengthPrefix x.byte := hdecl
  have hfront := State.rxFront_eq hslot
  have hterminal : (r.taken s x).terminal x = true ↔ x.err.getLsbD 7 = true ∨
      ∃ d, r.declared s.cfg.lengthPrefix x.byte = some d ∧ d ≤ (r.n : Int) + 1 := by
    rw [ReadRegs.terminal_iff, ReadRegs.taken_eq]
  rw [State.hostStep_of_readPacket hhost, State.readStep_of_unread hwf hunread]
  constructor
  · intro hend
    rw [State.readIteration_of_terminal hfront (hterminal.2 hend), ReadRegs.check_eq, ReadRegs.taken_eq]
    rfl
  · intro hnoEop hlong
    have hgoes : ¬(r.taken s x).terminal x = true := by
      rw [hterminal]
      rintro (heop | ⟨d, hd, hle⟩)
      · exact Bool.eq_false_iff.1 hnoEop heop
      · exact Int.not_lt.2 hle (hlong d hd)
    rw [State.readIteration_of_not_terminal hfront hgoes, ReadRegs.taken_eq]
    rfl

end

/-- READPACKET begins as an iteration under way does, on its starting registers. -/
theorem execReadPacket_eq_hostStep {s : State} (hon : s.mode = .on) (gen feed : Byte) {maxlen : Byte} (hroom : maxlen ≠ 0) :
    exec (.readPacket gen feed maxlen) s =
      State.hostStep { s with host := .readPacket (ReadRegs.start gen feed maxlen) } := by
  rw [execReadPacket_on hon gen feed hroom]
  rfl

/-- At `LEN_POS = 0` the first byte declares the length (45_packet_framer.md R434). -/
theorem ReadRegs.declared_start (gen feed maxlen : Byte) (prefixAt : Option (Nat × Int)) (b : Byte) :
    (ReadRegs.start gen feed maxlen).declared prefixAt b = match prefixAt with
      | some (pos, adj) => if pos = 0 then some ((b.toNat : Int) + adj) else none
      | none => none := by
  cases prefixAt with
  | none => rfl
  | some p => exact if_congr eq_comm rfl rfl

/-- A flag ORed into the last element of a list under a condition. -/
theorem ite_modify_concat (c : Prop) [Decidable c] (es : List Byte) (e flag : Byte) {i : Nat} (hi : i = es.length) :
    (if c then (es ++ [e]).modify i (· ||| flag) else es ++ [e]) = es ++ [e ||| if c then flag else 0] := by
  subst hi
  split <;> simp [List.modify_eq_take_drop]

/-- Settles O56: the first step is a hold on the starting registers, or the iteration of R433 on them. -/
theorem readPacketTakesASlotOrHolds : Obligations.ReadPacketTakesASlotOrHolds := by
  intro s gen feed maxlen hon hroom hwf
  refine ⟨fun hempty => ?_, fun u r hhost huwf => ?_, fun x decl hunread hslot hdecl => ?_⟩
  · rw [execReadPacket_on hon gen feed hroom, State.readStep_of_empty hwf hempty]
    rfl
  · rw [State.host_mem_dueSteps_iff, State.hostDue_of_readPacket hhost, bne_iff_ne, Ne, State.rxCount_eq_zero_iff huwf]
  · have hpos : 0 < maxlen.toNat := by bv_omega
    obtain ⟨hreturns, hgoes⟩ := readPacketEndsAtTheDeclaredLength
      { s with host := .readPacket (ReadRegs.start gen feed maxlen) } (ReadRegs.start gen feed maxlen) x decl
      x.delta [x.byte] [x.err &&& s.conf.errMask] rfl hwf hunread hslot
      (hdecl.trans (ReadRegs.declared_start gen feed maxlen _ _).symm) rfl (if_pos hpos).symm (if_pos hpos).symm
    rw [execReadPacket_eq_hostStep hon gen feed hroom]
    refine ⟨fun hend => ?_, hgoes⟩
    have herr := ite_modify_concat (gen ≠ 0 ∧ feed ≠ x.byte) [] (x.err &&& s.conf.errMask) 0x10
      (Nat.zero_min (maxlen.toNat - 1))
    rw [List.nil_append, List.nil_append] at herr
    rw [hreturns hend, ← herr]
    rfl

end Sys2Proof.Machine
end

section
/-! SUPPORT. 45_packet_framer.md R433 to R435: READPACKET over a whole packet. Its working registers are a function of the slots taken so
far, each iteration takes one more, and the slot with `SIGNAL_EOP` returns the packet. -/

namespace Sys2Proof.Machine

/-! ### The condensed error bytes -/

/-- The error bytes of a packet in `maxlen` places: the excess ones are ORed into the last place (45_packet_framer.md R433). -/
def condense (maxlen : Nat) (errs : List Byte) : List Byte :=
  if errs.length < maxlen then errs
  else errs.take (maxlen - 1) ++ [(errs.drop (maxlen - 1)).foldl (· ||| ·) 0]

/-- One more error byte takes the next place, or is ORed into the last one. -/
theorem condense_concat {maxlen : Nat} (hpos : 0 < maxlen) (errs : List Byte) (e : Byte) :
    condense maxlen (errs ++ [e]) =
      if errs.length < maxlen then condense maxlen errs ++ [e] else (condense maxlen errs).modify (maxlen - 1) (· ||| e) := by
  unfold condense
  rw [List.length_append, List.length_singleton]
  rcases lt_trichotomy (errs.length + 1) maxlen with hroom | hlast | hfull
  · have hlt : errs.length < maxlen := by omega
    rw [if_pos hroom, if_pos hlt, if_pos hlt]
  · have hlt : errs.length < maxlen := by omega
    have hplace : maxlen - 1 = errs.length := by omega
    rw [if_neg (by omega), if_pos hlt, if_pos hlt, hplace, List.take_left, List.drop_left]
    simp
  · have hge : ¬errs.length < maxlen := by omega
    have htake : (errs.take (maxlen - 1)).length = maxlen - 1 := List.length_take_of_le (by omega)
    rw [if_neg (by omega), if_neg hge, if_neg hge, List.take_append_of_le_length (by omega),
      List.drop_append_of_le_length (by omega), List.foldl_concat]
    simpa using (ite_modify_concat True _ _ e htake.symm).symm

/-- The last place filled holds the OR of its own error byte and of all that follow. -/
theorem condense_concat_eq {maxlen : Nat} (hpos : 0 < maxlen) (errs : List Byte) (e : Byte) :
    condense maxlen (errs ++ [e]) = (errs ++ [e]).take (min errs.length (maxlen - 1)) ++
      [((errs ++ [e]).drop (min errs.length (maxlen - 1))).foldl (· ||| ·) 0] := by
  unfold condense
  rw [List.length_append, List.length_singleton]
  split
  case isTrue h =>
    rw [Nat.min_eq_left (by omega), List.take_left, List.drop_left]
    simp
  case isFalse h => rw [Nat.min_eq_right (by omega)]

/-! ### The working registers -/

/-- READPACKET's working registers after the slots `taken`, none of which ended the packet (45_packet_framer.md R433). -/
def ReadRegs.afterSlots (s : State) (gen feed maxlen : Byte) (taken : List RxSlot) : ReadRegs where
  maxlen := maxlen
  gen := gen
  n := taken.length
  acc := accumulate s.cfg.framerMode gen feed (taken.map RxSlot.byte)
  delta := (taken.headD RxSlot.zero).delta
  decl := none
  buf := (taken.map RxSlot.byte).take maxlen.toNat
  err := condense maxlen.toNat (taken.map fun x => x.err &&& s.conf.errMask)

section
variable {s u : State} {gen feed maxlen : Byte} {x last : RxSlot} {more rest : List RxSlot}

theorem ReadRegs.afterSlots_nil (hpos : 0 < maxlen.toNat) :
    ReadRegs.afterSlots s gen feed maxlen [] = ReadRegs.start gen feed maxlen := by
  simp [ReadRegs.afterSlots, ReadRegs.start, condense, hpos, RxSlot.zero]

/-- One more slot is stored; it is accumulated and counted when it does not end the packet. -/
theorem ReadRegs.taken_afterSlots (hprefix : s.cfg.lengthPrefix = none) (hpos : 0 < maxlen.toNat) (taken : List RxSlot) (x : RxSlot) :
    (ReadRegs.afterSlots s gen feed maxlen taken).taken s x = { ReadRegs.afterSlots s gen feed maxlen (taken ++ [x]) with
      n := taken.length
      acc := accumulate s.cfg.framerMode gen feed (taken.map RxSlot.byte) } := by
  have hdelta : (if taken.length = 0 then x.delta else (taken.headD RxSlot.zero).delta) =
      ((taken ++ [x]).headD RxSlot.zero).delta := by cases taken <;> rfl
  have hbuf : (if taken.length < maxlen.toNat then (taken.map RxSlot.byte).take maxlen.toNat ++ [x.byte]
      else (taken.map RxSlot.byte).take maxlen.toNat) = ((taken ++ [x]).map RxSlot.byte).take maxlen.toNat := by
    rw [List.map_append, List.map_singleton]
    split
    case isTrue h => rw [List.take_of_length_le (by simpa using h.le), List.take_of_length_le (by simpa using h)]
    case isFalse h => rw [List.take_append_of_le_length (by simpa using h)]
  have herr := condense_concat hpos (taken.map fun x => x.err &&& s.conf.errMask) (x.err &&& s.conf.errMask)
  rw [List.length_map, ← List.map_singleton (f := fun x : RxSlot => x.err &&& s.conf.errMask), ← List.map_append] at herr
  rw [ReadRegs.taken_eq, hprefix, ReadRegs.mk.injEq]
  exact ⟨rfl, rfl, rfl, rfl, hdelta, rfl, hbuf, herr.symm⟩

theorem ReadRegs.fold_taken_afterSlots (hprefix : s.cfg.lengthPrefix = none) (hpos : 0 < maxlen.toNat) (taken : List RxSlot)
    (x : RxSlot) :
    ((ReadRegs.afterSlots s gen feed maxlen taken).taken s x).fold s.cfg.framerMode x.byte =
      ReadRegs.afterSlots s gen feed maxlen (taken ++ [x]) := by
  rw [ReadRegs.taken_afterSlots hprefix hpos]
  simp [ReadRegs.fold, ReadRegs.afterSlots, accumulate_concat]

/-- With no `LENGTH_PREFIX`, only `SIGNAL_EOP` ends a packet (45_packet_framer.md R434). -/
theorem ReadRegs.terminal_taken_afterSlots (hprefix : s.cfg.lengthPrefix = none) (hpos : 0 < maxlen.toNat) (taken : List RxSlot)
    (x : RxSlot) :
    ((ReadRegs.afterSlots s gen feed maxlen taken).taken s x).terminal x = true ↔ x.err.getLsbD 7 = true := by
  rw [ReadRegs.terminal_iff, ReadRegs.taken_afterSlots hprefix hpos]
  simp [ReadRegs.afterSlots]

/-- The packet that the slots `taken` and a last one make (45_packet_framer.md R433 to R435). -/
theorem ReadRegs.packet_check_taken_afterSlots (hprefix : s.cfg.lengthPrefix = none) (hpos : 0 < maxlen.toNat)
    (taken : List RxSlot) (x : RxSlot) {errs : List Byte} (herrs : errs = (taken ++ [x]).map fun x => x.err &&& s.conf.errMask) :
    (((ReadRegs.afterSlots s gen feed maxlen taken).taken s x).check x.byte).packet = {
      delta := ((taken ++ [x]).headD x).delta
      buf := ((taken ++ [x]).map RxSlot.byte).take maxlen.toNat
      errbuf := errs.take (min taken.length (maxlen.toNat - 1)) ++
        [(errs.drop (min taken.length (maxlen.toNat - 1))).foldl (· ||| ·) 0 |||
          if gen ≠ 0 ∧ accumulate s.cfg.framerMode gen feed (taken.map RxSlot.byte) ≠ x.byte then 0x10 else 0] } := by
  have hdelta : ((taken ++ [x]).headD RxSlot.zero).delta = ((taken ++ [x]).headD x).delta := by cases taken <;> rfl
  have hlen : errs.length = taken.length + 1 := by simp [herrs]
  have herr := condense_concat_eq hpos (taken.map fun x => x.err &&& s.conf.errMask) (x.err &&& s.conf.errMask)
  rw [List.length_map, ← List.map_singleton (f := fun x : RxSlot => x.err &&& s.conf.errMask), ← List.map_append, ← herrs] at herr
  rw [← ite_modify_concat _ _ _ _ (List.length_take_of_le (by omega)).symm, ← herr, herrs,
    ReadRegs.taken_afterSlots hprefix hpos, ReadRegs.check_eq, ReadRegs.packet, Packet.mk.injEq]
  exact ⟨hdelta, rfl, rfl⟩

/-! ### The run -/

/-- The state `s` with another RX tail and host phase: all that READPACKET writes before it returns. -/
def State.readTo (s : State) (tail : Nat) (host : HostPhase) : State :=
  { s with rxRing := { s.rxRing with tail := tail }, host := host }

theorem State.rxFront_of_unread (hwf : u.rxRing.wf (u.cfg.rxN + 1)) (hunread : u.rxUnread = x :: more) :
    u.rxRing.head ≠ u.rxRing.tail ∧ u.rxFront = x ∧ u.rxPop.rxUnread = more := by
  have hnonempty : u.rxRing.isEmpty = false :=
    Bool.eq_false_iff.2 fun h => List.cons_ne_nil x more (hunread.symm.trans ((Ring.isEmpty_iff_unread hwf RxSlot.zero).1 h))
  have hcons : u.rxUnread = u.rxFront :: u.rxPop.rxUnread := Ring.unread_consume hwf hnonempty RxSlot.zero
  obtain ⟨hfront, hmore⟩ := List.cons_eq_cons.1 (hcons.symm.trans hunread)
  exact ⟨by simpa [Ring.isEmpty] using hnonempty, hfront, hmore⟩

theorem execThen_of_next {i : Instr} (h : exec i s = .next u) (n : Nat) : execThen n i s = u.hostRun n := by
  rw [execThen, h]

theorem State.hostDue_of_readPacket_of_unread {r : ReadRegs} (hhost : u.host = .readPacket r) (hunread : u.rxUnread ≠ []) :
    u.hostDue = true := by
  rw [State.hostDue_of_readPacket hhost, bne_iff_ne, State.rxCount, ← Ring.unread_length RxSlot.zero]
  exact mt List.length_eq_zero_iff.1 hunread

/-- READPACKET that has taken the slots `taken` takes those before the end of the packet, one in each step, and returns with the last. -/
theorem State.hostRun_readStep (hprefix : s.cfg.lengthPrefix = none) (hpos : 0 < maxlen.toNat) (hlast : last.err.getLsbD 7 = true)
    (xs : List RxSlot) :
    ∀ (taken : List RxSlot) (tail : Nat) (host : HostPhase), (s.readTo tail host).rxRing.wf (s.cfg.rxN + 1) →
      (s.readTo tail host).rxUnread = xs ++ last :: rest → (∀ x ∈ xs, x.err.getLsbD 7 = false) →
      ∃ tail', (s.readTo tail' .ready).rxUnread = rest ∧
        ((s.readTo tail host).readStep (ReadRegs.afterSlots s gen feed maxlen taken)).hostRun xs.length =
          .next ((s.readTo tail' .ready).answerPacket (countValue ((taken ++ xs).length + 1))
            (((ReadRegs.afterSlots s gen feed maxlen (taken ++ xs)).taken s last).check last.byte).packet) := by
  induction xs with
  | nil =>
    intro taken tail host hwf hunread _
    obtain ⟨hne, hfront, hrest⟩ := State.rxFront_of_unread hwf hunread
    have hend := (ReadRegs.terminal_taken_afterSlots (gen := gen) (feed := feed) hprefix hpos taken last).2 hlast
    rw [State.readStep_of_unread hwf hne, State.readIteration_of_terminal hfront hend, List.append_nil]
    exact ⟨_, hrest, rfl⟩
  | cons x xs ih =>
    intro taken tail host hwf hunread hnoEop
    obtain ⟨hne, hfront, hmore⟩ := State.rxFront_of_unread hwf hunread
    obtain ⟨hx, hxs⟩ := List.forall_mem_cons.1 hnoEop
    have hgoes : ¬((ReadRegs.afterSlots s gen feed maxlen taken).taken s x).terminal x = true := by
      rw [ReadRegs.terminal_taken_afterSlots hprefix hpos, hx]
      exact Bool.false_ne_true
    have hnext : (s.readTo tail host).readIteration (ReadRegs.afterSlots s gen feed maxlen taken) =
        s.readTo ((tail + 1) % s.cfg.rxC) (.readPacket (ReadRegs.afterSlots s gen feed maxlen (taken ++ [x]))) := by
      rw [State.readIteration_of_not_terminal hfront hgoes, ← ReadRegs.fold_taken_afterSlots hprefix hpos]
      rfl
    have hdue : (s.readTo ((tail + 1) % s.cfg.rxC)
        (.readPacket (ReadRegs.afterSlots s gen feed maxlen (taken ++ [x])))).hostDue = true :=
      State.hostDue_of_readPacket_of_unread rfl (hmore.trans_ne (List.append_ne_nil_of_right_ne_nil _ (List.cons_ne_nil _ _)))
    have hrun := ih (taken ++ [x]) ((tail + 1) % s.cfg.rxC) (.readPacket (ReadRegs.afterSlots s gen feed maxlen (taken ++ [x])))
      (Ring.consume_wf (r := (s.readTo tail host).rxRing) hwf) hmore hxs
    rw [List.append_assoc, List.singleton_append] at hrun
    rw [State.readStep_of_unread hwf hne, hnext, List.length_cons, State.hostRun_succ hdue (State.hostStep_of_readPacket rfl)]
    exact hrun

end

/-- Settles O57: the run starts with no slot taken. -/
theorem readPacketReturnsThePacket : Obligations.ReadPacketReturnsThePacket := by
  rintro s gen feed maxlen xs rest last _ _ errs _ hon hroom hprefix hwf hunread hnoEop hlast rfl rfl herrs rfl
  have hpos : 0 < maxlen.toNat := by bv_omega
  obtain ⟨tail', hrest, hrun⟩ := State.hostRun_readStep (gen := gen) (feed := feed) hprefix hpos hlast xs [] s.rxRing.tail s.host
    hwf hunread hnoEop
  rw [ReadRegs.afterSlots_nil hpos, List.nil_append, ReadRegs.packet_check_taken_afterSlots hprefix hpos xs last herrs] at hrun
  have hplace : min (xs.length + 1) maxlen.toNat - 1 = min xs.length (maxlen.toNat - 1) := by omega
  rw [execThen_of_next (execReadPacket_on hon gen feed hroom), hplace]
  exact ⟨_, hrun, hrest, rfl⟩

end Sys2Proof.Machine
end

section
/-! SUPPORT. 45_packet_framer.md R440, R441: one step of WRITEPACKET as the whole state after it, and WRITEPACKET with room for the whole
packet, whose steps write the payload and the trailer in order. -/

namespace Sys2Proof.Machine

section
variable {s : State} {w : WriteRegs} {b : Byte}

/-! ### A step of WRITEPACKET -/

theorem State.hostDue_of_writePacket (h : s.host = .writePacket w) : s.hostDue = s.canWrite := by
  rw [State.hostDue, h]

/-- WRITEPACKET under way, when its hold is released, does one WRITE (45_packet_framer.md R440). -/
theorem State.hostStep_of_writePacket (h : s.host = .writePacket w) (hcan : s.canWrite = true) :
    s.hostStep = .next (s.packetWrite w) := by
  rw [State.hostStep, h]
  exact congrArg _ (if_pos hcan)

theorem execWritePacket_on (hon : s.mode = .on) (gen feed : Byte) (delay : Half) (payload : List Byte) :
    exec (.writePacket gen feed delay payload) s =
      .next (State.writeContinue { s with conf := { s.conf with delay := delay } }
        { payload := payload, gen := gen, i := 0, acc := feed }) := by
  simp only [exec, execWritePacket, State.whenOn_on hon]

/-- A WRITE stages its byte on an idle engine and queues it on a busy one (42_tx_engine.md R300, R301). -/
theorem State.writeByte_eq (s : State) (b : Byte) :
    s.writeByte b = if s.tx.state = .idle then { s with
        tx := { s.tx with byte := b, effDelay := BitVec.ofNat 16 (max s.conf.delay.toNat 2), wait := 0, state := .wait }
        conf := { s.conf with delay := 0 } }
      else { s with
        txRing := { s.txRing with
          slots := s.txRing.slots.set s.txRing.head ⟨b, s.conf.delay⟩
          head := (s.txRing.head + 1) % (s.cfg.txN + 1) }
        conf := { s.conf with delay := 0 } } := by
  split
  case isTrue h => rw [State.writeByte_idle h, effectiveDelay_eq_max]
  case isFalse h => exact State.writeByte_busy h b

theorem State.writeByte_results (s : State) (b : Byte) : (s.writeByte b).results = s.results := by
  rw [State.writeByte_eq]
  split <;> rfl

/-- A payload byte with more to write after it (45_packet_framer.md R440, R441). -/
theorem State.packetWrite_of_more (hl : w.payload.length < 256) (hb : w.payload[w.i.toNat]? = some b)
    (hmore : w.i.toNat + 1 < w.payload.length ∨ w.gen ≠ 0) :
    s.packetWrite w = { s.writeByte b with
      host := .writePacket { w with i := w.i + 1, acc := accumulate s.cfg.framerMode w.gen w.acc [b] } } := by
  rcases s.packetWrite_cases w hl with ⟨b', hb', ⟨-, heq⟩ | ⟨hlast, hgen, -⟩⟩ | ⟨hover, -⟩
  · obtain rfl : b = b' := Option.some_inj.1 (hb.symm.trans hb')
    exact heq
  · exact (hmore.elim (fun h => by omega) (fun h => h hgen)).elim
  · cases (List.getElem?_eq_none hover).symm.trans hb

/-- The last payload byte of a packet with no trailer. -/
theorem State.packetWrite_of_last (hl : w.payload.length < 256) (hb : w.payload[w.i.toNat]? = some b)
    (hlast : w.i.toNat + 1 = w.payload.length) (hgen : w.gen = 0) :
    s.packetWrite w = (s.writeByte b).answer .ok w.value := by
  rcases s.packetWrite_cases w hl with ⟨b', hb', ⟨hmore, -⟩ | ⟨-, -, heq⟩⟩ | ⟨hover, -⟩
  · exact (hmore.elim (fun h => by omega) (fun h => h hgen)).elim
  · obtain rfl : b = b' := Option.some_inj.1 (hb.symm.trans hb')
    exact heq
  · omega

/-- The trailer. -/
theorem State.packetWrite_of_trailer (hl : w.payload.length < 256) (hend : w.i.toNat = w.payload.length) (hgen : w.gen ≠ 0) :
    s.packetWrite w = (s.writeByte w.acc).answer .ok w.value := by
  rcases s.packetWrite_cases w hl with ⟨b, hb, -⟩ | ⟨-, heq⟩
  · cases (List.getElem?_eq_none hend.ge).symm.trans hb
  · rw [heq, if_neg hgen]

/-- Step 0 goes on when there is a byte to write (45_packet_framer.md R440). -/
theorem State.writeContinue_of_more (h : w.i.toNat < w.payload.length ∨ w.gen ≠ 0) :
    s.writeContinue w = { s with host := .writePacket w } :=
  if_neg fun ⟨hend, hgen⟩ => h.elim (Nat.not_lt.2 hend) (· hgen)

end

/-- Settles O59: step 0, the hold condition, and the WRITE of each byte, which is the next of the payload or the trailer. -/
theorem writePacketSetsTheDelayOnce : Obligations.WritePacketSetsTheDelayOnce := by
  refine ⟨fun s gen feed delay payload hon => ?_, fun u w hhost => ?_, fun u wrote w b hhost hl hb hcan hwrote => ?_⟩
  · rw [execWritePacket_on hon]
    refine ⟨?_, fun hmore => ?_⟩
    · rintro rfl rfl
      rfl
    · exact congrArg _ (State.writeContinue_of_more (hmore.imp_left List.length_pos_iff.2))
  · rw [State.host_mem_dueSteps_iff, State.hostDue_of_writePacket hhost, State.canWrite_iff]
  · obtain rfl : wrote = u.writeByte b := hwrote.trans (u.writeByte_eq b).symm
    rw [State.hostStep_of_writePacket hhost (State.canWrite_iff.2 hcan)]
    rcases hb with hb | ⟨hend, hgen, rfl⟩
    · have hlt : w.i.toNat < w.payload.length := (List.getElem?_eq_some_iff.1 hb).1
      refine ⟨fun hmore => ?_, fun hlast => ?_⟩
      · rw [State.packetWrite_of_more hl hb (hmore.imp_right And.right)]
      · obtain ⟨hlast, hgen⟩ := hlast.resolve_right hlt.ne
        rw [State.packetWrite_of_last hl hb hlast hgen, State.answer, State.writeByte_results]
        rfl
    · refine ⟨fun hmore => by omega, fun _ => ?_⟩
      rw [State.packetWrite_of_trailer hl hend hgen, State.answer, State.writeByte_results]
      rfl

/-! ### The bytes of a packet -/

/-- The bytes WRITEPACKET writes: the payload, and the trailer when a generator is given (45_packet_framer.md R441). -/
def packetBytes (mode : FramerMode) (gen feed : Byte) (payload : List Byte) : List Byte :=
  payload ++ if gen = 0 then [] else [accumulate mode gen feed payload]

/-- WRITEPACKET's working registers after `k` bytes of the payload (45_packet_framer.md R440). -/
def WriteRegs.afterBytes (mode : FramerMode) (gen feed : Byte) (payload : List Byte) (k : Nat) : WriteRegs where
  payload := payload
  gen := gen
  i := BitVec.ofNat 8 k
  acc := accumulate mode gen feed (payload.take k)

/-- WRITEPACKET after `k` of its bytes: it has returned when these are all, else it goes on (45_packet_framer.md R440). -/
def State.packetWritten (s : State) (mode : FramerMode) (gen feed : Byte) (payload : List Byte) (k : Nat) : State :=
  if k < (packetBytes mode gen feed payload).length then
    { s with host := .writePacket (WriteRegs.afterBytes mode gen feed payload k) }
  else s.answer .ok (countValue (packetBytes mode gen feed payload).length)

section
variable {s u : State} {mode : FramerMode} {gen feed b first : Byte} {payload others : List Byte} {k : Nat}

theorem length_packetBytes (mode : FramerMode) (gen feed : Byte) (payload : List Byte) :
    (packetBytes mode gen feed payload).length = payload.length + if gen = 0 then 0 else 1 := by
  rw [packetBytes, List.length_append]
  split <;> rfl

/-- Bytes are left to write: of the payload, or the trailer. -/
theorem lt_length_packetBytes_iff (hk : k ≤ payload.length) :
    k < (packetBytes mode gen feed payload).length ↔ k < payload.length ∨ gen ≠ 0 := by
  rw [length_packetBytes]
  split
  case isTrue h => exact ⟨.inl, fun hor => hor.resolve_right (· h)⟩
  case isFalse h => exact iff_of_true (Nat.lt_succ_of_le hk) (.inr h)

theorem WriteRegs.value_afterBytes (mode : FramerMode) (gen feed : Byte) (payload : List Byte) (k : Nat) :
    (WriteRegs.afterBytes mode gen feed payload k).value = countValue (packetBytes mode gen feed payload).length := by
  rw [length_packetBytes]
  rfl

theorem WriteRegs.toNat_i_afterBytes (hk : k < 256) : (WriteRegs.afterBytes mode gen feed payload k).i.toNat = k :=
  Nat.mod_eq_of_lt hk

/-- One more byte of the payload is accumulated and counted. -/
theorem WriteRegs.afterBytes_succ (hb : payload[k]? = some b) :
    WriteRegs.afterBytes mode gen feed payload (k + 1) = { WriteRegs.afterBytes mode gen feed payload k with
      i := (WriteRegs.afterBytes mode gen feed payload k).i + 1
      acc := accumulate mode gen (WriteRegs.afterBytes mode gen feed payload k).acc [b] } := by
  simp only [WriteRegs.afterBytes, List.take_add_one, hb, Option.toList_some, accumulate_concat, BitVec.ofNat_add]
  rfl

theorem State.packetWritten_of_more (h : k < (packetBytes mode gen feed payload).length) :
    s.packetWritten mode gen feed payload k =
      { s with host := .writePacket (WriteRegs.afterBytes mode gen feed payload k) } :=
  if_pos h

theorem State.packetWritten_of_all (h : k = (packetBytes mode gen feed payload).length) :
    s.packetWritten mode gen feed payload k = s.answer .ok (countValue (packetBytes mode gen feed payload).length) :=
  if_neg h.not_lt

/-- Each step writes the next byte of the packet. -/
theorem State.packetWrite_afterBytes (hmode : s.cfg.framerMode = mode) (hl : payload.length < 256)
    (hb : (packetBytes mode gen feed payload)[k]? = some b) :
    s.packetWrite (WriteRegs.afterBytes mode gen feed payload k) =
      (s.writeByte b).packetWritten mode gen feed payload (k + 1) := by
  subst hmode
  have htotal := length_packetBytes s.cfg.framerMode gen feed payload
  obtain ⟨hk, -⟩ := List.getElem?_eq_some_iff.1 hb
  have hle : k ≤ payload.length := by split at htotal <;> omega
  have hi : (WriteRegs.afterBytes s.cfg.framerMode gen feed payload k).i.toNat = k :=
    WriteRegs.toNat_i_afterBytes (by omega)
  rcases hle.lt_or_eq with hlt | hend
  · rw [packetBytes, List.getElem?_append_left hlt] at hb
    have hb' : (WriteRegs.afterBytes s.cfg.framerMode gen feed payload k).payload[
      (WriteRegs.afterBytes s.cfg.framerMode gen feed payload k).i.toNat]? = some b := by rw [hi]; exact hb
    have hleft := lt_length_packetBytes_iff (mode := s.cfg.framerMode) (gen := gen) (feed := feed) hlt
    by_cases hmore : k + 1 < payload.length ∨ gen ≠ 0
    · rw [State.packetWrite_of_more hl hb' (by rw [hi]; exact hmore), State.packetWritten_of_more (hleft.2 hmore),
        WriteRegs.afterBytes_succ hb]
      rfl
    · obtain ⟨hlast, hgen⟩ := not_or.1 hmore
      rw [State.packetWrite_of_last hl hb' (by rw [hi]; exact le_antisymm hlt (Nat.not_lt.1 hlast)) (not_not.1 hgen),
        WriteRegs.value_afterBytes, State.packetWritten_of_all (le_antisymm hk (Nat.not_lt.1 (mt hleft.1 hmore)))]
  · have hgen : gen ≠ 0 := ((lt_length_packetBytes_iff hle).1 hk).resolve_left hend.not_lt
    rw [if_neg hgen] at htotal
    have htrailer : b = (WriteRegs.afterBytes s.cfg.framerMode gen feed payload k).acc := by
      rw [packetBytes, if_neg hgen, hend, List.getElem?_concat_length] at hb
      rw [WriteRegs.afterBytes, hend, List.take_length]
      exact (Option.some_inj.1 hb).symm
    rw [State.packetWrite_of_trailer hl (hi.trans hend) hgen, WriteRegs.value_afterBytes,
      State.packetWritten_of_all (by omega), htrailer]

theorem State.writeByte_setHost (s : State) (p : HostPhase) (b : Byte) :
    State.writeByte { s with host := p } b = { s.writeByte b with host := p } := by
  simp only [State.writeByte_eq]
  split <;> rfl

/-- One host step under way writes the next byte. -/
theorem State.hostRun_packetWritten (hmode : s.cfg.framerMode = mode) (hl : payload.length < 256) (hcan : s.canWrite = true)
    (hb : (packetBytes mode gen feed payload)[k]? = some b) (n : Nat) :
    (s.packetWritten mode gen feed payload k).hostRun (n + 1) =
      ((s.writeByte b).packetWritten mode gen feed payload (k + 1)).hostRun n := by
  obtain ⟨hk, -⟩ := List.getElem?_eq_some_iff.1 hb
  have hstep := State.packetWrite_afterBytes
    (s := { s with host := .writePacket (WriteRegs.afterBytes mode gen feed payload k) }) hmode hl hb
  rw [State.writeByte_setHost] at hstep
  rw [State.packetWritten_of_more hk, State.hostRun_succ (t := (s.writeByte b).packetWritten mode gen feed payload (k + 1))]
  · exact (State.hostDue_of_writePacket (s := { s with host := _ }) rfl).trans hcan
  · exact (State.hostStep_of_writePacket (s := { s with host := _ }) rfl hcan).trans (congrArg _ hstep)

/-- The state `s` with another value of `DELAY`. -/
def State.withDelay (s : State) (delay : Half) : State := { s with conf := { s.conf with delay := delay } }

/-- Step 0 of a packet that is not empty writes `DELAY` and goes on with the first byte (45_packet_framer.md R440). -/
theorem execWritePacket_of_bytes (hon : s.mode = .on) (delay : Half)
    (hpos : 0 < (packetBytes s.cfg.framerMode gen feed payload).length) :
    exec (.writePacket gen feed delay payload) s =
      .next ((s.withDelay delay).packetWritten s.cfg.framerMode gen feed payload 0) := by
  rw [execWritePacket_on hon, State.packetWritten_of_more hpos, State.writeContinue_of_more]
  · rfl
  · exact (lt_length_packetBytes_iff payload.length.zero_le).1 hpos

/-! ### A busy engine with room -/

theorem State.full_eq_false_of_room (hwf : s.txRing.wf (s.cfg.txN + 1)) (hroom : s.txQueued.length + 1 ≤ s.cfg.txN) :
    s.txRing.full s.cfg.txC = false :=
  Bool.eq_false_iff.2 fun h => by
    have hfull : s.txQueued.length + 1 = s.cfg.txN + 1 := (Ring.full_iff_unread hwf TxSlot.zero).1 h
    omega

/-- A byte queued on a ring with room is the last of the queue, with `DELAY` as its delay (42_tx_engine.md R301). -/
theorem State.writeByte_of_room (hbusy : s.tx.state ≠ .idle) (hwf : s.txRing.wf (s.cfg.txN + 1))
    (hroom : s.txQueued.length + 1 ≤ s.cfg.txN) (b : Byte) :
    s.canWrite = true ∧ (s.writeByte b).txRing.wf (s.cfg.txN + 1) ∧
      (s.writeByte b).txQueued = s.txQueued ++ [⟨b, s.conf.delay⟩] := by
  have hfull := State.full_eq_false_of_room hwf hroom
  rw [State.writeByte_busy hbusy]
  exact ⟨by simp [State.canWrite, State.txFull, hfull], Ring.push_wf hwf _, Ring.unread_push hwf hfull _ _⟩

/-- With `DELAY = 0`, a byte queued changes nothing but the TX ring. -/
theorem State.writeByte_of_delay_zero (hbusy : s.tx.state ≠ .idle) (hdelay : s.conf.delay = 0) (b : Byte) :
    s.writeByte b = { s with txRing := (s.writeByte b).txRing } := by
  have hconf : { s.conf with delay := 0 } = s.conf := by rw [← hdelay]
  rw [State.writeByte_busy hbusy, hconf]

/-- WRITEPACKET on a busy engine, with `DELAY = 0` and room for its bytes from the `k`th on, queues them back to back and returns. -/
theorem State.hostRun_queues (hl : payload.length < 256) (rest : List Byte) :
    ∀ (k : Nat) (u : State), u.cfg.framerMode = mode → (packetBytes mode gen feed payload).drop k = rest →
      k ≤ (packetBytes mode gen feed payload).length →
      u.tx.state ≠ .idle → u.conf.delay = 0 → u.txRing.wf (u.cfg.txN + 1) → u.txQueued.length + rest.length ≤ u.cfg.txN →
      ∃ t, (u.packetWritten mode gen feed payload k).hostRun rest.length = .next t ∧
        t.txQueued = u.txQueued ++ rest.map (fun b => ⟨b, 0⟩) ∧
        t = State.answer { u with txRing := t.txRing } .ok (countValue (packetBytes mode gen feed payload).length) := by
  induction rest with
  | nil =>
    intro k u _ hrest hk _ _ _ _
    have hall := hk.antisymm (List.drop_eq_nil_iff.1 hrest)
    rw [State.packetWritten_of_all hall]
    exact ⟨_, rfl, (List.append_nil _).symm, rfl⟩
  | cons b rest ih =>
    intro k u hmode hrest hk hbusy hdelay hwf hroom
    rw [List.length_cons] at hroom ⊢
    have hb : (packetBytes mode gen feed payload)[k]? = some b := by
      rw [← List.head?_drop, hrest, List.head?_cons]
    obtain ⟨hcan, hwf', hqueue⟩ := State.writeByte_of_room hbusy hwf (by omega) b
    obtain ⟨hdelay', hbusy'⟩ := u.writeByte_after b
    have hcfg := (u.writeByte_frame b).cfg
    obtain ⟨t, hrun, hqueued, ht⟩ := ih (k + 1) (u.writeByte b) (by rw [hcfg]; exact hmode)
      (by rw [← List.tail_drop, hrest, List.tail_cons]) (List.getElem?_eq_some_iff.1 hb).1 hbusy' hdelay'
      (by rw [hcfg]; exact hwf')
      (by rw [hcfg, hqueue, List.length_append, List.length_singleton]; omega)
    refine ⟨t, ?_, ?_, ?_⟩
    · rw [State.hostRun_packetWritten hmode hl hcan hb]
      exact hrun
    · rw [hqueued, hqueue, hdelay, List.append_assoc, List.singleton_append, List.map_cons]
    · rw [ht, State.writeByte_of_delay_zero hbusy hdelay]
      rfl

/-- WRITEPACKET writes its first byte, and with room for the others queues them back to back and returns. -/
theorem execThen_writePacket (hon : s.mode = .on) (hl : payload.length < 256) {delay : Half}
    (hbytes : packetBytes s.cfg.framerMode gen feed payload = first :: others) (hcan : s.canWrite = true)
    (hu : u = (s.withDelay delay).writeByte first)
    (hwf : u.txRing.wf (s.cfg.txN + 1)) (hroom : u.txQueued.length + others.length ≤ s.cfg.txN) :
    ∃ t, execThen (first :: others).length (.writePacket gen feed delay payload) s = .next t ∧
      t.txQueued = u.txQueued ++ others.map (fun b => ⟨b, 0⟩) ∧
      t = State.answer { u with txRing := t.txRing } .ok (BitVec.ofNat 32 (first :: others).length) := by
  obtain ⟨hdelay, hbusy⟩ := (s.withDelay delay).writeByte_after first
  have hcfg : u.cfg = s.cfg := hu ▸ ((s.withDelay delay).writeByte_frame first).cfg
  obtain ⟨t, hrun, hqueued, ht⟩ := State.hostRun_queues (mode := s.cfg.framerMode) (gen := gen) (feed := feed) hl others 1 u
    (by rw [hcfg]) (by rw [hbytes, List.drop_one, List.tail_cons]) (by rw [hbytes]; exact Nat.succ_pos _) (hu ▸ hbusy)
    (hu ▸ hdelay) (by rw [hcfg]; exact hwf) (by rw [hcfg]; exact hroom)
  refine ⟨t, ?_, hqueued, ?_⟩
  · have hfirst : (packetBytes s.cfg.framerMode gen feed payload)[0]? = some first := by rw [hbytes]; rfl
    rw [execThen_of_next (execWritePacket_of_bytes hon delay (by rw [hbytes]; exact Nat.succ_pos _)), List.length_cons,
      State.hostRun_packetWritten (s := s.withDelay delay) (mode := s.cfg.framerMode) rfl hl hcan hfirst, ← hu]
    exact hrun
  · rw [hbytes] at ht
    exact ht

end

/-- Settles O60: the first byte is staged or queued with `delay`, and leaves `DELAY = 0` and a busy engine for the others. -/
theorem writePacketQueuesPayloadAndTrailer : Obligations.WritePacketQueuesPayloadAndTrailer := by
  rintro s gen feed delay payload bytes others first hon hl hwf hbytes rfl
  refine ⟨fun hidle hempty hroom => ?_, fun hbusy hroom => ?_⟩
  · have hnone : s.txQueued = [] := (Ring.isEmpty_iff_unread hwf _).1 (beq_iff_eq.2 hempty)
    have hwrote := (State.writeByte_eq (s.withDelay delay) first).trans (if_pos hidle)
    obtain ⟨t, hrun, hqueued, ht⟩ := execThen_writePacket hon hl hbytes.symm (State.canWrite_iff.2 (.inl hidle)) hwrote.symm hwf
      ((congrArg (List.length · + others.length) hnone).trans_le ((Nat.zero_add _).trans_le hroom))
    exact ⟨t, hrun, hqueued.trans (congrArg (· ++ _) hnone), ht⟩
  · rw [List.length_cons] at hroom
    obtain ⟨hcan, hwf', hqueue⟩ := State.writeByte_of_room (s := s.withDelay delay) hbusy hwf
      (show s.txQueued.length + 1 ≤ s.cfg.txN by omega) first
    obtain ⟨t, hrun, hqueued, ht⟩ := execThen_writePacket hon hl hbytes.symm hcan rfl hwf'
      (by rw [hqueue, List.length_append, List.length_singleton, Nat.add_assoc, Nat.add_comm 1]; exact hroom)
    rw [State.writeByte_busy (s := s.withDelay delay) hbusy] at ht
    refine ⟨t, hrun, ?_, ht⟩
    rw [hqueued, hqueue, List.append_assoc]
    rfl

end Sys2Proof.Machine
end

section
/-! SUPPORT. 60_exceptions.md R503, R505: what one step of the machine does, when each step is due, and the passing of time. -/

namespace Sys2Proof.Machine

variable {s t : State} {n a : Tick}

/-! ### One step -/

/-- A step that answers a next state: time passes when nothing is due, a due event is taken by its handler, or the host agent
takes its step. -/
theorem stepWith_next_cases {pick : Nat → Nat} (ht : stepWith pick s = .next t) :
    (s.dueSteps = [] ∧ t = s.advance) ∨
    (∃ d k, d ∈ s.dueSteps ∧ d ≠ .host ∧ t = State.takeEvent { s with free := k } d) ∨
    (∃ k, .host ∈ s.dueSteps ∧ State.hostStep { s with free := k } = .next t) := by
  rcases stepWith_cases pick s with ⟨hnone, heq⟩ | ⟨d, k, hd, heq⟩ <;> rw [heq] at ht
  · cases ht
    exact .inl ⟨hnone, rfl⟩
  · by_cases hhost : d = .host
    · subst hhost
      exact .inr (.inr ⟨k, hd, ht⟩)
    · rw [State.takeDue_event _ _ hhost] at ht
      cases ht
      exact .inr (.inl ⟨d, k, hd, hhost, rfl⟩)

/-! ### When each step is due -/

theorem State.mem_dueSteps_iff {d : Due} : d ∈ s.dueSteps ↔ s.isDue d = true := by
  cases d <;> simp [State.dueSteps]

theorem State.dueSteps_eq_nil_iff : s.dueSteps = [] ↔ ∀ d, s.isDue d = false := by
  simp only [List.eq_nil_iff_forall_not_mem, State.mem_dueSteps_iff, Bool.not_eq_true]

/-- The first level change to come is due from its instant on (30_encoding.md R164). -/
theorem State.pinDue_iff : s.pinDue = true ↔ ∃ c rest, s.bus.changes = c :: rest ∧ c.tick ≤ s.now := by
  cases h : s.bus.changes with
  | nil => simp [State.pinDue, h]
  | cons c rest => simp [State.pinDue, h]

/-- 10_state.md R61, 60_exceptions.md R503. -/
theorem State.rxArmed_iff :
    s.rxArmed = true ↔ s.mode = .on ∧ s.irq.rxEn = true ∧ (s.rx.state ≠ .idle ∨ s.pend.valid = true) := by
  simp [State.rxArmed, and_assoc]

/-- 10_state.md R61, 60_exceptions.md R503. -/
theorem State.txArmed_iff : s.txArmed = true ↔ s.mode = .on ∧ ∃ j, s.tx.state = .semi j := by
  cases h : s.tx.state <;> simp [State.txArmed, h]

theorem State.rxCmpDue_iff : s.rxCmpDue = true ↔ s.rxArmed = true ∧ s.now = s.rx.target := by
  simp [State.rxCmpDue, @eq_comm _ s.now]

theorem State.txCmpDue_iff : s.txCmpDue = true ↔ s.txArmed = true ∧ s.now = s.tx.target := by
  simp [State.txCmpDue, @eq_comm _ s.now]

theorem State.msbDue_iff : s.msbDue = true ↔ s.mode = .on ∧ s.now = s.seq.nextMs := by
  simp [State.msbDue, @eq_comm _ s.now]

theorem State.msPendDue_iff : s.msPendDue = true ↔ s.mode = .on ∧ s.irq.msIe = true ∧ s.irq.msPend = true := by
  simp [State.msPendDue, and_assoc]

/-- A ready host has a step when its next command is at the port (60_exceptions.md R511). -/
theorem State.hostDue_of_ready (hready : s.host = .ready) : s.hostDue = true ↔ ∃ d n, s.fetch = .got d n := by
  cases h : s.fetch <;> simp [State.hostDue, hready, h]

/-! ### The agenda -/

theorem State.tick_mem_agenda {c : PinChange} {rest : List PinChange} (h : s.bus.changes = c :: rest) :
    c.tick ∈ s.agenda := by
  simp [State.agenda, h]

theorem State.portTick_mem_agenda (h : a ∈ ((s.port.map PortWord.tick).filter (s.now < ·)).head?) : a ∈ s.agenda := by
  simp only [State.agenda, List.mem_append, Option.mem_toList]
  exact .inl (.inl (.inl (.inr h)))

theorem State.rxTarget_mem_agenda (h : s.rxArmed = true) : s.rx.target ∈ s.agenda := by
  simp [State.agenda, h]

theorem State.txTarget_mem_agenda (h : s.txArmed = true) : s.tx.target ∈ s.agenda := by
  simp [State.agenda, h]

theorem State.nextMs_mem_agenda (h : s.mode = .on) : s.seq.nextMs ∈ s.agenda := by
  simp [State.agenda, h]

theorem State.lt_nextInstant (s : State) : s.now < s.nextInstant := by
  unfold State.nextInstant
  cases hmin : (s.agenda.filter (s.now < ·)).min? with
  | none => exact Nat.lt_succ_self _
  | some m =>
    have hmem := List.min?_mem hmin
    simpa using (List.mem_filter.1 hmem).2

theorem State.nextInstant_le (ha : a ∈ s.agenda) (hlater : s.now < a) : s.nextInstant ≤ a := by
  have hmem : a ∈ s.agenda.filter (s.now < ·) := List.mem_filter.2 ⟨ha, decide_eq_true hlater⟩
  unfold State.nextInstant
  cases hmin : (s.agenda.filter (s.now < ·)).min? with
  | none => rw [List.min?_eq_none_iff.1 hmin] at hmem; cases hmem
  | some m => exact (List.min?_eq_some_iff.1 hmin).2 a hmem

/-! ### No step is due between two instants of the agenda -/

/-- No port word comes between `now` and the next one known, so the words that have come are the same. -/
theorem takeWhile_tick_le_eq {now n : Tick} (hnow : now ≤ n) :
    ∀ port : List PortWord, (∀ a ∈ ((port.map PortWord.tick).filter (now < ·)).head?, n < a) →
      port.takeWhile (fun p => p.tick ≤ n) = port.takeWhile (fun p => p.tick ≤ now)
  | [], _ => rfl
  | p :: ps, h => by
    by_cases hp : p.tick ≤ now
    · have hrest := takeWhile_tick_le_eq hnow ps (by simpa [Nat.not_lt.2 hp] using h)
      simp [hp, hp.trans hnow, hrest]
    · have hlate : n < p.tick := h _ (by simp [Nat.not_le.1 hp])
      simp [hp, Nat.not_le.2 hlate]

theorem State.arrived_between (hlow : s.now < n) (hhigh : n < s.nextInstant) :
    State.arrived { s with now := n } = s.arrived := by
  refine congrArg (List.map PortWord.word) (takeWhile_tick_le_eq hlow.le s.port fun a ha => ?_)
  have hlater : s.now < a := by simpa using (List.mem_filter.1 (List.mem_of_mem_head? ha)).2
  exact hhigh.trans_le (State.nextInstant_le (State.portTick_mem_agenda ha) hlater)

theorem State.hostDue_between (hlow : s.now < n) (hhigh : n < s.nextInstant) :
    State.hostDue { s with now := n } = s.hostDue := by
  have hfetch : State.fetch { s with now := n } = s.fetch := congrArg decode (State.arrived_between hlow hhigh)
  simp only [State.hostDue, hfetch]
  rfl

/-- An instant that a jump passes over is on no agenda (60_exceptions.md R505, log entry 7). -/
theorem State.dueSteps_between (hnone : s.dueSteps = []) (hlow : s.now < n) (hhigh : n < s.nextInstant) :
    State.dueSteps { s with now := n } = [] := by
  have hnow := State.dueSteps_eq_nil_iff.1 hnone
  have hpassed {a : Tick} (ha : a ∈ s.agenda) : n ≠ a := fun heq =>
    absurd (State.nextInstant_le ha (heq ▸ hlow)) (Nat.not_le.2 (heq ▸ hhigh))
  refine State.dueSteps_eq_nil_iff.2 fun d => Bool.eq_false_iff.2 fun hdue => ?_
  cases d with
  | pin =>
    obtain ⟨c, rest, hc, hle⟩ := State.pinDue_iff.1 hdue
    have hlater : s.now < c.tick := by
      by_contra hpast
      exact Bool.eq_false_iff.1 (hnow .pin) (State.pinDue_iff.2 ⟨c, rest, hc, Nat.not_lt.1 hpast⟩)
    exact absurd (State.nextInstant_le (State.tick_mem_agenda (s := s) hc) hlater) (Nat.not_le.2 (hle.trans_lt hhigh))
  | rxCmp =>
    obtain ⟨harmed, heq⟩ := State.rxCmpDue_iff.1 hdue
    exact hpassed (State.rxTarget_mem_agenda harmed) heq
  | txCmp =>
    obtain ⟨harmed, heq⟩ := State.txCmpDue_iff.1 hdue
    exact hpassed (State.txTarget_mem_agenda harmed) heq
  | msb =>
    obtain ⟨hon, heq⟩ := State.msbDue_iff.1 hdue
    exact hpassed (State.nextMs_mem_agenda hon) heq
  | msPend => exact Bool.eq_false_iff.1 (hnow .msPend) hdue
  | host => exact Bool.eq_false_iff.1 (hnow .host) ((State.hostDue_between hlow hhigh).symm.trans hdue)

end Sys2Proof.Machine
end

section
/-! SUPPORT. 60_exceptions.md R506: no handler, no host step and no passing of time leaves an armed target, or the next boundary, in the
past. -/

namespace Sys2Proof.Machine

variable {s t : State} {u : Tick}

/-! ### The RX engine -/

/-- An RX compare that is not armed has no target to keep. -/
theorem State.rxArmed_of_disabled (h : s.irq.rxEn = false) : ¬ s.rxArmed = true := fun harmed =>
  Bool.false_ne_true (h.symm.trans (State.rxArmed_iff.1 harmed).2.1)

/-- From one bit of a byte to the next the target moves forward (41_rx_engine.md R256, R259). -/
theorem State.Timely.setRx (h : s.Timely) {r : RxEngine} (htarget : s.now ≤ r.target) (hlast : r.lastEdge = s.rx.lastEdge) :
    State.Timely { s with rx := r } :=
  { h with
    rxTarget := fun _ => htarget
    lastEdge := fun v hv => h.lastEdge v (hlast.symm.trans hv) }

theorem State.Timely.zeroBit (h : s.Timely) (harmed : s.rxArmed = true) : s.zeroBit.Timely :=
  h.setRx ((h.rxTarget harmed).trans (Nat.le_add_right _ _)) rfl

theorem State.Timely.oneBit (h : s.Timely) (harmed : s.rxArmed = true) : s.oneBit.Timely :=
  h.setRx ((h.rxTarget harmed).trans (Nat.le_add_right _ _)) rfl

theorem State.Timely.startBit (h : s.Timely) (hu : s.now ≤ u) : (s.startBit u).Timely := by
  rw [State.startBit_eq]
  exact { h with rxTarget := fun _ => hu.trans (Nat.le_add_right _ _) }

theorem State.Timely.stopSlotEdge (h : s.Timely) (hu : s.now ≤ u) : (s.stopSlotEdge u).Timely := by
  rw [State.stopSlotEdge_eq]
  exact { h with rxTarget := fun _ => hu.trans (Nat.le_add_right _ _) }

theorem State.Timely.stopBit (h : s.Timely) (hu : s.now ≤ u) : (s.stopBit u).Timely := by
  rw [State.stopBit_eq]
  exact { h with rxTarget := fun _ => hu.trans (Nat.le_add_right _ _) }

/-- The commit at the end of a packet disarms the compare (41_rx_engine.md R261). -/
theorem State.Timely.eopFire (h : s.Timely) (hidle : s.rx.state = .idle) : s.eopFire.Timely :=
  { h with
    rxTarget := fun harmed => by
      obtain ⟨-, -, hbusy⟩ := State.rxArmed_iff.1 harmed
      exact absurd hbusy (by simp [State.eopFire, hidle]) }

theorem State.Timely.dispatchEdge (h : s.Timely) (hon : s.mode = .on) (hrx : s.irq.rxEn = true) (hu : s.now ≤ u) :
    (s.dispatchEdge u).Timely := by
  have harmed (hbusy : s.rx.state ≠ .idle) : s.rxArmed = true := State.rxArmed_iff.2 ⟨hon, hrx, .inl hbusy⟩
  unfold State.dispatchEdge
  split
  case h_1 => exact h.startBit hu
  case h_2 hs => exact h.zeroBit (harmed (by simp [hs]))
  case h_3 hs => exact h.zeroBit (harmed (by simp [hs]))
  case h_4 => exact h.stopSlotEdge hu

theorem State.Timely.edge (h : s.Timely) : (s.edge s.now).Timely := by
  unfold State.edge State.handleEdge
  split
  case isTrue hcapture =>
    split
    · exact h
    · have hmoved : State.Timely { s with rx := { s.rx with lastEdge := some s.now } } :=
        { h with lastEdge := fun v hv => by cases hv; exact le_rfl }
      exact hmoved.dispatchEdge hcapture.1 hcapture.2 le_rfl
  case isFalse => exact h

theorem State.Timely.pinChange (h : s.Timely) : s.pinChange.Timely := by
  cases hc : s.bus.changes with
  | nil => rw [State.pinChange, hc]; exact h
  | cons c rest =>
    have hmoved : (s.moveBus c rest).Timely := { h with }
    rw [State.pinChange_cons hc]
    split
    · exact hmoved.edge
    · exact hmoved

theorem State.Timely.rxCmp (h : s.Timely) (harmed : s.rxArmed = true) (hu : s.now ≤ u) : (s.rxCmp u).Timely := by
  unfold State.rxCmp
  split
  case h_1 => exact h.oneBit harmed
  case h_2 => exact h.oneBit harmed
  case h_3 => exact h.stopBit hu
  case h_4 hidle => exact h.eopFire hidle

/-! ### The TX engine -/

/-- A TX compare that is not armed has no target to keep. -/
theorem State.txArmed_of_rest (h : ∀ j, s.tx.state ≠ .semi j) : ¬ s.txArmed = true := fun harmed =>
  have ⟨_, j, hj⟩ := State.txArmed_iff.1 harmed
  h j hj

/-- The boundaries of a byte come in order: a semibit is no longer than a bit (42_tx_engine.md R314). -/
theorem State.boundary_le_succ (h : s.timing.derived) (j : Nat) : s.boundary j ≤ s.boundary (j + 1) := by
  obtain ⟨-, hS, -, -, hTT, hTS⟩ := h
  have hsemi : s.timing.TS.toNat ≤ s.timing.TT.toNat := by
    rw [hTS, hTT, hS]
    exact Nat.div_le_self _ _
  unfold State.boundary
  rcases Nat.mod_two_eq_zero_or_one j with heven | hodd
  · have hbit : (j + 1) / 2 = j / 2 := by omega
    rw [heven, hbit, Nat.zero_mul]
    exact Nat.le_add_right _ _
  · have hbit : (j + 1) / 2 = j / 2 + 1 := by omega
    rw [hodd, hbit, Nat.one_mul, Nat.succ_mul, ← Nat.add_assoc]
    exact (Nat.add_le_add_left hsemi _).trans (Nat.le_add_right _ _)

/-- The start bit's boundary is one semibit after its start (42_tx_engine.md R311, R314). -/
theorem State.Timely.beginByte (h : s.Timely) (hu : s.now ≤ u) : (s.beginByte u).Timely :=
  { h with
    txTarget := fun _ => hu.trans (Nat.le_add_right _ _)
    txBoundary := fun j _ hj _ => by
      cases hj
      simp [State.beginByte, State.boundary] }

theorem State.Timely.sample (h : s.Timely) (j : Nat) : (s.sample j).Timely := by
  rw [State.sample_eq]
  exact { h with }

theorem State.Timely.drive (h : s.Timely) {j : Fin 23} (harmed : s.txArmed = true) (hj : s.tx.state = .semi j)
    (hpos : 1 ≤ j.val) (hlt : j.val + 1 < 23) : (s.drive j.val hlt).Timely := by
  obtain ⟨hon, -⟩ := State.txArmed_iff.1 harmed
  have hnext : s.now ≤ s.boundary (j.val + 1) := calc
    s.now ≤ s.tx.target := h.txTarget harmed
    _ = s.boundary j.val := h.txBoundary j hon hj hpos
    _ ≤ s.boundary (j.val + 1) := State.boundary_le_succ (h.derived hon) _
  exact { h with
    txTarget := fun _ => hnext
    txBoundary := fun i _ hi _ => by cases hi; rfl }

/-- Capture is off while a byte is sent, so its echo arms nothing yet (42_tx_engine.md R317). -/
theorem State.Timely.echoByte (h : s.Timely) (hrx : s.irq.rxEn = false) : s.echoByte.Timely := by
  rw [State.echoByte_eq]
  exact { h with rxTarget := fun harmed => absurd harmed (State.rxArmed_of_disabled hrx) }

theorem State.Timely.flushOnError (h : s.Timely) : s.flushOnError.Timely := by
  rw [State.flushOnError_eq]
  exact { h with }

/-- A released bus arms the RX compare for a staged byte only, at its EOP instant (42_tx_engine.md R318). -/
theorem State.Timely.releaseBus (h : s.Timely) (hu : s.now ≤ u) : (s.releaseBus u).Timely :=
  { h with
    rxTarget := fun harmed => by
      obtain ⟨-, -, hbusy⟩ := State.rxArmed_iff.1 harmed
      have hstaged : s.pend.valid = true := hbusy.resolve_left fun hne => hne rfl
      have heop : (s.releaseBus u).rx.target = s.eopAt u := if_pos hstaged
      rw [heop]
      exact hu.trans (Nat.le_add_right _ _) }

/-- An engine that rests arms no TX compare, whatever else it writes. -/
theorem State.Timely.setTx_rest (h : s.Timely) {x : TxEngine} (hrest : ∀ j, x.state ≠ .semi j) :
    State.Timely { s with tx := x } :=
  { h with
    txTarget := fun harmed => absurd harmed (State.txArmed_of_rest hrest)
    txBoundary := fun j _ hj => absurd hj (hrest j) }

theorem State.Timely.nextByte (h : s.Timely) (hu : s.now ≤ u) : (s.nextByte u).Timely := by
  have hdequeued : s.txDequeue.Timely := { h with }
  unfold State.nextByte
  split
  · exact State.Timely.releaseBus (h.setTx_rest nofun) hu
  · dsimp only
    split
    · exact State.Timely.beginByte { h with } hu
    · exact State.Timely.releaseBus (hdequeued.setTx_rest nofun) hu

theorem State.Timely.endByte (h : s.Timely) (hrx : s.irq.rxEn = false) (hu : s.now ≤ u) : (s.endByte u).Timely := by
  have hnow : s.echoByte.flushOnError.now = s.now := (s.echoByte_frame.trans (State.flushOnError_frame _)).now
  exact (h.echoByte hrx).flushOnError.nextByte (hnow.trans_le hu)

theorem State.sample_irq (s : State) (j : Nat) : (s.sample j).irq = s.irq := by rw [State.sample_eq]

theorem State.Timely.txCmp (h : s.Timely) (hinv : s.Inv) (harmed : s.txArmed = true) (hu : s.now ≤ u) :
    (s.txCmp u).Timely := by
  obtain ⟨hon, j, hj⟩ := State.txArmed_iff.1 harmed
  obtain ⟨hrx, -, -⟩ := hinv.txBusy j hj
  rcases Nat.eq_zero_or_pos j.val with hzero | hpos
  · rw [State.txCmp_first hj hzero]
    exact h.beginByte hu
  · by_cases hlt : j.val + 1 < 23
    · have hsampled : (s.sample j.val).tx.state = .semi j := (s.sample_tx_state _).trans hj
      rw [State.txCmp_middle hj hpos hlt]
      exact (h.sample _).drive (State.txArmed_iff.2 ⟨(s.sample_frame _).mode.trans hon, j, hsampled⟩) hsampled hpos hlt
    · have hlast : j = 22 := Fin.ext (show j.val = 22 by omega)
      rw [State.txCmp_last (hlast ▸ hj)]
      exact (h.sample 22).endByte (by rw [State.sample_irq, hrx]) ((s.sample_frame 22).now.trans_le hu)

/-! ### The sequencer -/

theorem State.Timely.counted (h : s.Timely) : s.counted.Timely := by
  rw [State.counted_eq]
  exact { h with }

/-- A promotion switches capture off and arms boundary 0 (42_tx_engine.md R310). -/
theorem State.Timely.promote (h : s.Timely) (hu : s.now ≤ u) : (s.promote u).Timely := by
  rw [State.promote_eq]
  exact { h with
    rxTarget := fun harmed => absurd harmed (State.rxArmed_of_disabled rfl)
    txTarget := fun _ => hu.trans (Nat.le_add_right _ _)
    txBoundary := fun j _ hj hpos => by cases hj; cases hpos }

theorem State.Timely.msService (h : s.Timely) (hu : s.now ≤ u) : (s.msService u).Timely := by
  rw [State.msService_eq]
  split
  · exact h.counted.promote (s.counted_frame.now.trans_le hu)
  · exact h.counted

theorem State.Timely.msBoundary (h : s.Timely) (hu : s.now ≤ u) : (s.msBoundary u).Timely := by
  have hnext : State.Timely { s with
      seq := { (if s.cfg.uptimeGated then s.seq else s.uptime.seq) with nextMs := s.seq.nextMs + s.cfg.msPeriod } } :=
    { h with nextMs := fun hon => (h.nextMs hon).trans (Nat.le_add_right _ _) }
  rw [State.msBoundary_eq]
  dsimp only
  split
  · exact hnext.msService hu
  · exact { hnext with }

theorem State.Timely.msPending (h : s.Timely) (hu : s.now ≤ u) : (s.msPending u).Timely :=
  State.Timely.msService (s := { s with irq := { s.irq with msPend := false } }) { h with } hu

/-! ### The host agent -/

theorem State.Timely.of_hostFrame (h : s.Timely) (hf : HostFrame s t) : t.Timely := by
  rw [← hf.eq]
  rcases hf.tx with ⟨htx, -⟩ | ⟨-, -, hwait, -⟩ | ⟨-, htx, -⟩
  · rw [htx]
    exact { h with }
  · have hsemi (j : Fin 23) : t.tx.state ≠ .semi j := by simp [hwait]
    exact { h with
      txTarget := fun harmed => absurd harmed (State.txArmed_of_rest hsemi)
      txBoundary := fun j _ hj => absurd hj (hsemi j) }
  · rw [htx]
    exact { h with }

/-- The timing BEGIN derives is the one of 40_calibrator_control.md R201 to R203. -/
theorem calibrate_derived {fClk baud : Nat} {tm : Timing} (h : calibrate fClk baud = some tm) : tm.derived := by
  have hlegal : ¬(baud = 0 ∨ (fClk + baud / 2) / baud < 2 ∨
      65535 < (fClk + baud / 2) / baud + (fClk + baud / 2) / baud / 2) := fun hillegal =>
    nomatch h.symm.trans (calibrate_eq_none rfl hillegal)
  obtain ⟨hbaud, hlow, hhigh⟩ := by simpa only [not_or, Nat.not_lt] using hlegal
  obtain ⟨tm', hcal, hT, hS, hSupp, hSched, hTT, hTS⟩ := exists_calibrate_eq_some hbaud rfl rfl hlow hhigh
  obtain rfl : tm = tm' := Option.some_inj.1 (h.symm.trans hcal)
  refine ⟨hT ▸ hlow, by rw [hS, hT], ?_, by rw [hSched, hT, hS], BitVec.eq_of_toNat_eq (hTT.trans hT.symm),
    BitVec.eq_of_toNat_eq (hTS.trans hS.symm)⟩
  rw [hSupp, hS, hT, Nat.shiftRight_eq_div_pow]

/-- BEGIN arms no compare; the first boundary is one phase later (40_calibrator_control.md R205, 10_state.md R66). -/
theorem State.Timely.begun {tm : Timing} (htm : tm.derived) (pol : Bool) : (s.begun tm pol).Timely where
  derived := fun _ => htm
  rxTarget := nofun
  txTarget := nofun
  txBoundary := nofun
  nextMs := fun _ => Nat.le_add_right _ _
  lastEdge := nofun

/-- END leaves nothing armed (40_calibrator_control.md R207). -/
theorem State.Timely.ended (h : s.Timely) : s.ended.Timely where
  derived := nofun
  rxTarget := nofun
  txTarget := nofun
  txBoundary := nofun
  nextMs := nofun
  lastEdge := h.lastEdge

theorem State.Timely.hostStep (h : s.Timely) (ht : s.hostStep = .next t) : t.Timely := by
  rcases State.hostStep_cases ht with ⟨pol, _, tm, n, -, -, -, hcal, rfl⟩ | ⟨n, -, -, -, rfl⟩ | hf
  · exact { State.Timely.begun (s := s.takeWords n) (calibrate_derived hcal) pol with }
  · exact { State.Timely.ended (h.of_hostFrame (s.takeWords_frame n)) with }
  · exact h.of_hostFrame hf

/-! ### A step of the machine -/

theorem State.Timely.takeEvent (h : s.Timely) (hinv : s.Inv) {d : Due} (hd : s.isDue d = true) : (s.takeEvent d).Timely := by
  cases d with
  | pin => exact h.pinChange
  | rxCmp => exact h.rxCmp (State.rxCmpDue_iff.1 hd).1 le_rfl
  | txCmp => exact h.txCmp hinv (State.txCmpDue_iff.1 hd).1 le_rfl
  | msb => exact h.msBoundary le_rfl
  | msPend => exact h.msPending le_rfl
  | host => exact h

/-- When nothing is due, every armed target and the next boundary lie after `now`, and time moves to the first of them at the
latest. -/
theorem State.Timely.advance (h : s.Timely) (hnone : s.dueSteps = []) : s.advance.Timely := by
  have hnot := State.dueSteps_eq_nil_iff.1 hnone
  have hmoves {a : Tick} (ha : a ∈ s.agenda) (hle : s.now ≤ a) (hne : ¬ s.now = a) : s.nextInstant ≤ a :=
    State.nextInstant_le ha (Nat.lt_of_le_of_ne hle hne)
  exact { h with
    rxTarget := fun harmed => hmoves (State.rxTarget_mem_agenda harmed) (h.rxTarget harmed) fun heq =>
      Bool.eq_false_iff.1 (hnot .rxCmp) (State.rxCmpDue_iff.2 ⟨harmed, heq⟩)
    txTarget := fun harmed => hmoves (State.txTarget_mem_agenda harmed) (h.txTarget harmed) fun heq =>
      Bool.eq_false_iff.1 (hnot .txCmp) (State.txCmpDue_iff.2 ⟨harmed, heq⟩)
    nextMs := fun hon => hmoves (State.nextMs_mem_agenda hon) (h.nextMs hon) fun heq =>
      Bool.eq_false_iff.1 (hnot .msb) (State.msbDue_iff.2 ⟨hon, heq⟩)
    lastEdge := fun v hv => (h.lastEdge v hv).trans s.lt_nextInstant.le }

/-- Settles O17: each handler arms its target at or after `now`, and time stops at the first of them. -/
theorem noEventIsEverLate : Obligations.NoEventIsEverLate := by
  intro pick s t hinv h ht
  rcases stepWith_next_cases ht with ⟨hnone, rfl⟩ | ⟨d, k, hd, -, rfl⟩ | ⟨k, -, hk⟩
  · exact h.advance hnone
  · exact State.Timely.takeEvent (s := { s with free := k }) { h with } { hinv with } (State.mem_dueSteps_iff.1 hd)
  · exact State.Timely.hostStep (s := { s with free := k }) { h with } hk

end Sys2Proof.Machine
end

section
/-! SUPPORT. 60_exceptions.md R505, R507, R513, R515: the passing of time, the order of due steps, refusals, and the changes of
`MODE`. -/

namespace Sys2Proof.Machine

variable {s t : State}

/-! ### The passing of time -/

theorem State.hostStep_now (ht : s.hostStep = .next t) : t.now = s.now := by
  rcases State.hostStep_cases ht with ⟨_, _, _, _, -, -, -, -, rfl⟩ | ⟨_, -, -, -, rfl⟩ | hf
  · rfl
  · rfl
  · exact hf.now

/-- Settles O8: a due step leaves the time; when none is due the step is `State.advance`, which moves to the next instant. -/
theorem timePassesOnlyWhenNothingIsDue : Obligations.TimePassesOnlyWhenNothingIsDue := by
  intro s t ht
  rcases stepWith_next_cases ht with ⟨hnone, rfl⟩ | ⟨d, k, hd, -, rfl⟩ | ⟨k, hd, hk⟩
  · exact ⟨absurd hnone, fun _ => ⟨s.lt_nextInstant, fun _ ha hlater => State.nextInstant_le ha hlater,
      fun _ hlow hhigh => State.dueSteps_between hnone hlow hhigh, rfl⟩⟩
  · exact ⟨fun _ => (State.takeEvent_frame _ d).now, fun hnone => absurd hnone (List.ne_nil_of_mem hd)⟩
  · exact ⟨fun _ => State.hostStep_now (s := { s with free := k }) hk, fun hnone => absurd hnone (List.ne_nil_of_mem hd)⟩

/-! ### The order of due steps -/

/-- The choice that always names number `i` takes the due step with that number. -/
theorem stepWith_const {i : Nat} (hi : i < s.dueSteps.length) :
    ∃ k, stepWith (fun _ => i) s = State.takeDue { s with free := k } s.dueSteps[i] := by
  unfold stepWith
  split
  case h_1 hdue => simp [hdue] at hi
  case h_2 d hdue =>
    obtain rfl : i = 0 := by simpa [hdue] using hi
    exact ⟨s.free, by simp only [hdue, List.getElem_cons_zero]⟩
  case h_3 d ds _ hdue =>
    have hmod : i % (ds.length + 1) = i := Nat.mod_eq_of_lt (by simpa [hdue] using hi)
    refine ⟨s.free + 1, congrArg _ ?_⟩
    rw [hmod, List.getD_eq_getElem _ _ (by simpa [hdue] using hi)]
    simp only [hdue]

/-- Settles O9: what a choice can take, what choice takes a given step, and when each step is due. -/
theorem dueStepsAreTakenInAnyOrder : Obligations.DueStepsAreTakenInAnyOrder := by
  refine ⟨fun pick s hne => ?_, fun s d hd => ?_, fun s => ⟨Config.tieOrder, rfl⟩, fun s => ?_⟩
  · rcases stepWith_cases pick s with ⟨hnone, -⟩ | ⟨d, k, hd, heq⟩
    · exact absurd hnone hne
    · exact ⟨d, hd, k, heq⟩
  · obtain ⟨i, hi, rfl⟩ := List.getElem_of_mem hd
    exact ⟨fun _ => i, stepWith_const hi⟩
  · simp only [State.mem_dueSteps_iff, State.isDue]
    refine ⟨State.pinDue_iff, ?_, ?_, State.msbDue_iff, State.msPendDue_iff, State.hostDue_of_ready,
      rfl, rfl, rfl, rfl, rfl, rfl⟩
    · rw [State.rxCmpDue_iff, State.rxArmed_iff, and_assoc, and_assoc]
    · rw [State.txCmpDue_iff, State.txArmed_iff, and_assoc]

/-! ### Refusals -/

theorem goesOn.ne_refused {o : StepOutcome} (h : goesOn o) (r : Refusal) : o ≠ .refused r := by
  obtain ⟨t, rfl⟩ := h
  nofun

/-- A command under the mode check goes on if its meaning while `ON` does (30_encoding.md R154). -/
theorem State.whenOn_goesOn {f : State → StepOutcome} (hf : goesOn (f s)) : goesOn (s.whenOn f) := by
  cases hmode : s.mode with
  | on => rwa [State.whenOn_on hmode]
  | off => exact ⟨_, State.whenOn_off hmode f⟩

/-- The commands that a run can be refused for, each with its name (60_exceptions.md R515). -/
theorem exec_refused_cases {i : Instr} {r : Refusal} (h : exec i s = .refused r) :
    (∃ x, i = .setScope x ∧ r = .scopeBuffer) ∨ (∃ x, i = .adcResults x ∧ r = .adcResults) ∨
      (∃ pol baud, i = .beginCmd pol baud ∧ s.mode = .on ∧ r = .secondBegin) := by
  cases i with
  | setScope x => cases h; exact .inl ⟨x, rfl, rfl⟩
  | adcResults x => cases h; exact .inr (.inl ⟨x, rfl, rfl⟩)
  | beginCmd pol baud =>
    cases hmode : s.mode with
    | on =>
      rw [execBegin_on hmode] at h
      cases h
      exact .inr (.inr ⟨pol, baud, rfl, rfl, rfl⟩)
    | off =>
      simp only [exec, execBegin, hmode] at h
      split at h <;> cases h
  | setDelay ms => cases h
  | setDelayTimeout ms => cases h
  | setEcho en => cases h
  | setAllow bits => cases h
  | setErrorMask mask => cases h
  | readPacket gen feed maxlen =>
    simp only [exec] at h
    refine absurd h (goesOn.ne_refused (State.whenOn_goesOn ?_) r)
    split <;> exact ⟨_, rfl⟩
  | _ =>
    simp only [exec] at h
    refine absurd h (goesOn.ne_refused (State.whenOn_goesOn ?_) r)
    exact ⟨_, rfl⟩

/-- Only a ready host that takes a command of the port can refuse. -/
theorem State.hostStep_refused {r : Refusal} (h : s.hostStep = .refused r) :
    s.host = .ready ∧ ∃ i n, s.fetch = .got (.command i) n ∧ exec i (s.takeWords n) = .refused r := by
  unfold State.hostStep at h
  split at h
  case h_1 hready =>
    split at h
    case h_1 d n hfetch =>
      cases d with
      | command i => exact ⟨hready, i, n, hfetch, h⟩
      | illegal why => cases h
    case h_2 => cases h
  all_goals cases h

/-- A refused step is a refused step of the host agent: a handler has no refusal. -/
theorem stepWith_refused {pick : Nat → Nat} {r : Refusal} (h : stepWith pick s = .refused r) :
    ∃ k, State.hostStep { s with free := k } = .refused r := by
  rcases stepWith_cases pick s with ⟨-, heq⟩ | ⟨d, k, -, heq⟩ <;> rw [heq] at h
  · cases h
  · by_cases hhost : d = .host
    · subst hhost
      exact ⟨k, h⟩
    · rw [State.takeDue_event _ _ hhost] at h
      cases h

/-- Settles O10: a refusal comes from the command that a ready host takes from its port. -/
theorem onlyTheRefusedCommandsRefuse : Obligations.OnlyTheRefusedCommandsRefuse := by
  intro s r h
  obtain ⟨k, hk⟩ := stepWith_refused h
  obtain ⟨hready, i, n, hfetch, hexec⟩ := State.hostStep_refused hk
  exact ⟨hready, i, n, hfetch, exec_refused_cases (s := State.takeWords { s with free := k } n) hexec⟩

/-! ### The changes of `MODE` -/

/-- Settles O12: neither time nor a handler moves `MODE`, and of the host's steps only BEGIN and END do. -/
theorem modeChangesOnlyByBeginAndEnd : Obligations.ModeChangesOnlyByBeginAndEnd := by
  intro s t ht hne
  rcases stepWith_next_cases ht with ⟨-, rfl⟩ | ⟨d, k, -, -, rfl⟩ | ⟨k, -, hk⟩
  · exact absurd rfl hne
  · exact absurd (State.takeEvent_frame _ d).mode hne
  · rcases State.hostStep_cases hk with ⟨pol, baud, _, n, hready, hfetch, hoff, -, rfl⟩ | ⟨n, hready, hfetch, hon, rfl⟩ | hf
    · exact ⟨hready, _, n, hfetch, .inl ⟨hoff, rfl, pol, baud, rfl⟩⟩
    · exact ⟨hready, _, n, hfetch, .inr ⟨hon, rfl, rfl⟩⟩
    · exact absurd hf.mode hne

end Sys2Proof.Machine
end
